-- ==== Sys2Proof/Word.lean ====
section
/-! DEFINITION. The machine word, the multi-word values and the transaction widths (00_scope.md R7, R9 to R11). -/

namespace Sys2Proof

/-- MachineWord: the one storage width of the block (R7 `XLEN` = 64). Every value is unsigned (R14). -/
abbrev Word := BitVec 64

/-- A register index (R8 `IDX_BITS` = 6, 20_memory.md R50). -/
abbrev Index := BitVec 6

/-- A packed transaction word `TW` (30_encoding.md R70). -/
abbrev TxWord := BitVec 71

/-- `M64`, the source's `MachineWord::MAX` (R9). -/
def M64 : Word := 0xFFFFFFFFFFFFFFFF#64

/-- `M32` (R9), the mask of a 32-bit half. -/
def M32 : Word := 0xFFFFFFFF#64

/-- A DoubleWord: two named MachineWords (R11). -/
structure DoubleWord where
  hi : Word
  lo : Word
deriving DecidableEq, Repr

/-- A TripleWord: three named MachineWords (R11). -/
structure TripleWord where
  hi2 : Word
  hi1 : Word
  lo : Word
deriving DecidableEq, Repr

/-- `val2(hi, lo)` of R11. -/
def val2 (hi lo : Word) : Nat := hi.toNat * 2 ^ 64 + lo.toNat

/-- `val3(hi2, hi1, lo)` of R11. -/
def val3 (hi2 hi1 lo : Word) : Nat := hi2.toNat * 2 ^ 128 + hi1.toNat * 2 ^ 64 + lo.toNat

end Sys2Proof
end

