-- ==== Sys2Proof/Syntax.lean ====
section
/-! DEFINITION. The instructions: one constructor per row of spec/opcode_table.json (30_encoding.md R70, R75). -/

namespace Sys2Proof

/-- The thirteen commands of R75 and the two host transactions of R70. A command carries no operand but HRUN.RANDOM's
count (R73); its registers are fixed by its rule. -/
inductive Instr where
  /-- `NOP` (45_host_system.md R162). -/
  | nop
  /-- `WMUL` (40_wmul.md R93). -/
  | wmul
  /-- `SNUM` (41_snum.md R104). -/
  | snum
  /-- `BDIV` (42_bdiv.md R118). -/
  | bdiv
  /-- `DELTA` (43_delta.md R126). -/
  | delta
  /-- `CLRF` (45_host_system.md R163). -/
  | clrf
  /-- `REF` (44_oracle_harness.md R142). -/
  | ref
  /-- `HCHK` (44_oracle_harness.md R145). -/
  | hchk
  /-- `HRUN.SMALL` (44_oracle_harness.md R147, R148). -/
  | hrunSmall
  /-- `HRUN.BOUNDARY` (44_oracle_harness.md R147, R149). -/
  | hrunBoundary
  /-- `HRUN.RANDOM n` (44_oracle_harness.md R147, R151); `n` is the field `N` (R74). -/
  | hrunRandom (n : BitVec 32)
  /-- `HRUN.SATEDGE` (44_oracle_harness.md R147, R150). -/
  | hrunSatedge
  /-- `HCLR` (44_oracle_harness.md R153). -/
  | hclr
  /-- `RD reg` (45_host_system.md R160). -/
  | rd (idx : Index)
  /-- `WR reg, value` (45_host_system.md R161). -/
  | wr (idx : Index) (v : Word)
deriving DecidableEq, Repr

end Sys2Proof
end

