-- ==== Sys2Proof/Machine/CommandWord.lean ====
section
/-! DEFINITION. The fields of a command word (30_encoding.md R71, R74), the command words of R75 and the words R76 calls
illegal. -/

namespace Sys2Proof

/-- The index of CMD (20_memory.md R59). -/
def cmdIndex : Index := 0x1B#6

/-- Field `OP`, bits 7:0 (R71). -/
def cwOp (cw : Word) : BitVec 8 := cw.extractLsb' 0 8

/-- Field `CLS`, bits 15:8 (R71, R74). -/
def cwCls (cw : Word) : BitVec 8 := cw.extractLsb' 8 8

/-- Field `N`, bits 47:16, used as it stands (R71, R74). -/
def cwN (cw : Word) : BitVec 32 := cw.extractLsb' 16 32

/-- Field `ZERO`, bits 63:48 (R71). -/
def cwZero (cw : Word) : BitVec 16 := cw.extractLsb' 48 16

def cwNop : Word := 0x00#64
def cwWmul : Word := 0x01#64
def cwSnum : Word := 0x02#64
def cwBdiv : Word := 0x03#64
def cwDelta : Word := 0x04#64
def cwClrf : Word := 0x0F#64
def cwRef : Word := 0x10#64
def cwHchk : Word := 0x11#64
def cwHrunSmall : Word := 0x0012#64
def cwHrunBoundary : Word := 0x0112#64
def cwHrunSatedge : Word := 0x0312#64
def cwHclr : Word := 0x13#64

/-- `0x212 + n · 2^16`, the fields ZERO, N, CLS, OP side by side (R71, R75). -/
def cwHrunRandom (n : BitVec 32) : Word := 0#16 ++ n ++ 0x0212#16

/-- The operations whose format is C0 (R71, R75): every field above OP must be zero. -/
def isC0Op (op : BitVec 8) : Bool :=
  op == 0x00#8 || op == 0x01#8 || op == 0x02#8 || op == 0x03#8 || op == 0x04#8 || op == 0x0F#8 ||
    op == 0x10#8 || op == 0x11#8 || op == 0x13#8

/-- A command word that matches a row of R75, said field by field as R71 says the two formats (and so the
complement of R76's list of illegal words, its harness clause apart). -/
def isLegalCommandWord (cw : Word) : Bool :=
  cwZero cw == 0#16 &&
    ((isC0Op (cwOp cw) && cwCls cw == 0#8 && cwN cw == 0#32) ||
      (cwOp cw == 0x12#8 && (cwCls cw == 2#8 || (BitVec.ule (cwCls cw) 3#8 && cwN cw == 0#32))))

/-- The rows marked harness-only in R75. -/
def isHarnessOp (op : BitVec 8) : Bool := op == 0x10#8 || op == 0x11#8 || op == 0x12#8 || op == 0x13#8

end Sys2Proof
end

