-- ==== Sys2Proof/WellFormed.lean ====
section
/-! DEFINITION. Which instructions are well formed. The widths of the fields are in Syntax; what is left to check is that
an instruction is written as itself: a `WR` to CMD with a command's word IS that command (45_host_system.md R166). -/

namespace Sys2Proof

/-- `wr 0x1B v` with a legal command word `v` is another spelling of the command `v` encodes (R166, 30_encoding.md R72)
and is written with the command's own constructor; every other term is well formed. -/
def Instr.wf : Instr → Bool
  | .nop => true
  | .wmul => true
  | .snum => true
  | .bdiv => true
  | .delta => true
  | .clrf => true
  | .ref => true
  | .hchk => true
  | .hrunSmall => true
  | .hrunBoundary => true
  | .hrunRandom _ => true
  | .hrunSatedge => true
  | .hclr => true
  | .rd _ => true
  | .wr idx v => !(idx == cmdIndex && isLegalCommandWord v)

end Sys2Proof
end

