-- ==== Sys2Proof/Decode.lean ====
section
/-! DEFINITION. Decoding a command word (30_encoding.md R72, R75, R76) and a transaction word (R70); encoding both. -/

namespace Sys2Proof

/-- Why a command word is illegal: the clauses of R76, in its order. Each raises ILLEGAL_CMD in the machine. -/
inductive IllegalWord where
  /-- An `OP` that R77 reserves. -/
  | reservedOp
  /-- `ZERO ≠ 0`. -/
  | zeroField
  /-- `CLS ≠ 0` or `N ≠ 0` with an `OP` other than 0x12. -/
  | unusedField
  /-- `OP = 0x12` with `CLS > 3`. -/
  | badClass
  /-- `OP = 0x12`, `CLS ≠ 2` and `N ≠ 0`. -/
  | unusedCount
deriving DecidableEq, Repr

/-- One row of the opcode map R75: a word `cw` matches when `cw & mask = pattern`. -/
structure OpRow where
  pattern : Word
  mask : Word
  instr : Word → Instr

/-- The mask of the rows that match one word only. -/
def fullMask : Word := 0xFFFFFFFFFFFFFFFF#64

/-- The opcode map of R75, in its order. -/
def opRows : List OpRow :=
  [ ⟨0x0000000000000000#64, fullMask, fun _ => .nop⟩,
    ⟨0x0000000000000001#64, fullMask, fun _ => .wmul⟩,
    ⟨0x0000000000000002#64, fullMask, fun _ => .snum⟩,
    ⟨0x0000000000000003#64, fullMask, fun _ => .bdiv⟩,
    ⟨0x0000000000000004#64, fullMask, fun _ => .delta⟩,
    ⟨0x000000000000000F#64, fullMask, fun _ => .clrf⟩,
    ⟨0x0000000000000010#64, fullMask, fun _ => .ref⟩,
    ⟨0x0000000000000011#64, fullMask, fun _ => .hchk⟩,
    ⟨0x0000000000000012#64, fullMask, fun _ => .hrunSmall⟩,
    ⟨0x0000000000000112#64, fullMask, fun _ => .hrunBoundary⟩,
    ⟨0x0000000000000212#64, 0xFFFF00000000FFFF#64, fun cw => .hrunRandom (cwN cw)⟩,
    ⟨0x0000000000000312#64, fullMask, fun _ => .hrunSatedge⟩,
    ⟨0x0000000000000013#64, fullMask, fun _ => .hclr⟩ ]

/-- `(cw & mask) = match` (R72). -/
def OpRow.matches (row : OpRow) (cw : Word) : Bool := (cw &&& row.mask) == row.pattern

/-- Which clause of R76 a word that matches no row falls under. -/
def illegalReason (cw : Word) : IllegalWord :=
  if !(isC0Op (cwOp cw) || cwOp cw == 0x12#8) then .reservedOp
  else if cwZero cw != 0#16 then .zeroField
  else if cwOp cw != 0x12#8 then .unusedField
  else if BitVec.ult 3#8 (cwCls cw) then .badClass
  else .unusedCount

/-- Decoding a command word (R72). The rows are those of every instance; that the harness rows need `HARNESS = 1` is
asked by the commands themselves (Machine/Ops.lean), which raise the same ILLEGAL_CMD. -/
def decodeCommand (cw : Word) : Except IllegalWord Instr :=
  match opRows.find? (fun row => row.matches cw) with
  | some row => .ok (row.instr cw)
  | none => .error (illegalReason cw)

/-- `TW[70]`, 1 for a write (R70). -/
def txWe (tw : TxWord) : Bool := tw.getLsbD 70

/-- `TW[69:64]`, the register index (R70). -/
def txIdx (tw : TxWord) : Index := tw.extractLsb' 64 6

/-- `TW[63:0]`, the data, ignored on a read (R70). -/
def txData (tw : TxWord) : Word := tw.extractLsb' 0 64

/-- Decoding a transaction word (R70, R72). Total: every word is a transaction. A `WR` to CMD is the command its data
encodes (45_host_system.md R166); data that encodes none stays the transaction `wr 0x1B v`. -/
def decode (tw : TxWord) : Instr :=
  if txWe tw then
    if txIdx tw = cmdIndex then
      match decodeCommand (txData tw) with
      | .ok i => i
      | .error _ => .wr cmdIndex (txData tw)
    else .wr (txIdx tw) (txData tw)
  else .rd (txIdx tw)

/-- The packed word `we ∥ idx ∥ wdata` (R70). -/
def packTx (we : Bool) (idx : Index) (v : Word) : TxWord := BitVec.ofBool we ++ idx ++ v

/-- A `WR` to CMD that carries the command word `cw` (R80). -/
def packCommand (cw : Word) : TxWord := packTx true cmdIndex cw

/-- The transaction word of an instruction (R75, R80); a read is listed with `wdata = 0` (R70). -/
def encode : Instr → TxWord
  | .nop => packCommand cwNop
  | .wmul => packCommand cwWmul
  | .snum => packCommand cwSnum
  | .bdiv => packCommand cwBdiv
  | .delta => packCommand cwDelta
  | .clrf => packCommand cwClrf
  | .ref => packCommand cwRef
  | .hchk => packCommand cwHchk
  | .hrunSmall => packCommand cwHrunSmall
  | .hrunBoundary => packCommand cwHrunBoundary
  | .hrunRandom n => packCommand (cwHrunRandom n)
  | .hrunSatedge => packCommand cwHrunSatedge
  | .hclr => packCommand cwHclr
  | .rd idx => packTx false idx 0#64
  | .wr idx v => packTx true idx v

/-- The transaction word of a row of the opcode table whose bits are `w`: a 64-bit row is a command word and comes by
a `WR` to CMD; a 71-bit row, in whole bytes 72, is the transaction word itself. -/
def tableTx (nbits w : Nat) : TxWord :=
  if nbits ≤ 64 then packCommand (BitVec.ofNat 64 w) else BitVec.ofNat 71 w

/-- The instruction the decoder reads from an opcode-table word; `none` for an illegal command word and for bits that
no transaction has. -/
def decodeTableWord (nbits w : Nat) : Option Instr :=
  if nbits ≤ 64 then
    if w < 2 ^ 64 then
      match decodeCommand (BitVec.ofNat 64 w) with
      | .ok i => some i
      | .error _ => none
    else none
  else if w < 2 ^ 71 then some (decode (BitVec.ofNat 71 w)) else none

end Sys2Proof
end

