-- ==== Sys2Proof/Config.lean ====
section
/-! DEFINITION. What the source fixes (00_scope.md R7), what an instance fixes (R8), and the one free value. -/

namespace Sys2Proof.Config

/-- `BPS_DENOM` (R7). -/
def bpsDenom : Word := 10000#64

/-- `RATE_MAX` (R7), the largest legal `rate_bps`. -/
def rateMax : Word := 10000#64

/-- `2 ^ SCALAR_BITS` (R7 with `SCALAR_BITS` = 14): SNUM's scalar is below it (41_snum.md R105). -/
def scalarLimit : Word := 0x4000#64

/-- The instance parameters the block is built with (R8, 92 D22 and D25). They are no registers (10_state.md R38);
the machine carries them in its state, where no step changes them, so that every statement covers every instance. -/
structure Build where
  /-- `HARNESS`: whether the oracle REF and the harness EQH exist in this instance; CONFIG bit 0 (10_state.md R30). -/
  harness : Bool
  /-- `SMALL_N`: the bound of the class SMALL (44_oracle_harness.md R148). -/
  smallN : Nat
deriving DecidableEq, Repr

/-- What R8 requires of the parameters: 1 ≤ SMALL_N ≤ 4999. -/
abbrev Build.wf (b : Build) : Prop := 1 ≤ b.smallN ∧ b.smallN ≤ 4999

/-- The build `State.reset` is given: the testbench instance with the suggested bound.
DESIGN CHOICE, unsafe: the spec leaves both parameters open (log entries 1 and 2). -/
def testbench : Build := { harness := true, smallN := 8 }

/-- The draw stream `rnd` (R8, 44_oracle_harness.md R151): the `k`-th word the environment supplies, a free value
under no law (93 I9; log entry 3). Nothing can evaluate it. -/
opaque rnd : Nat → Word

end Sys2Proof.Config
end

