-- ==== Sys2Proof/Machine/State.lean ====
section
/-! DEFINITION. The state of the block (10_state.md R20 to R31, R39), its host's inputs and port, and reset (70 R200). -/

namespace Sys2Proof.Machine

/-- The machine never stops with a fault: every fault of the block is the sticky record of 60_exceptions.md R175, which
is state, and no input is without a meaning. So this type has no constructor. -/
inductive Fault where
deriving DecidableEq, Repr

/-- Why an instruction has no meaning here. -/
inductive Refusal where
  /-- Raised by exec's arm for an instruction not modelled yet, by its mnemonic; safe. No arm raises it now. -/
  | notModelled (mnemonic : String)
deriving DecidableEq, Repr

/-- The fault causes (60_exceptions.md R170). -/
inductive Cause where
  /-- A division by zero would occur (R171). -/
  | div0
  /-- An operand is outside its declared domain (R172). -/
  | domain
  /-- The word written to CMD matches no command (R173). -/
  | illegalCmd
  /-- The access is not allowed (R174). -/
  | access
  /-- DELTA and the oracle disagree (R182). -/
  | mismatch
deriving DecidableEq, Repr

/-- What the port drives for the last input taken: the model's own field (log entry 5). -/
inductive Reply where
  /-- `rdata` is not driven: a write, a reset, or nothing taken yet (30_encoding.md R70). -/
  | notDriven
  /-- The `rdata` of a read (30_encoding.md R70). -/
  | data (w : Word)
  /-- The bytes a read answers on a byte-addressed bus, the one at the lowest offset first (20_memory.md R53). -/
  | bytes (bs : List (BitVec 8))
  /-- The bus binding refused the access (20_memory.md R53). -/
  | busError
deriving DecidableEq, Repr

/-- An access on a byte-addressed bus (20_memory.md R53): a byte offset from the block's base address, and a size in
bytes or the bytes to write, the one at the lowest offset first. -/
inductive BusAccess where
  | read (offset size : Nat)
  | write (offset : Nat) (bytes : List (BitVec 8))
deriving DecidableEq, Repr

/-- What the outside world can do to the block. -/
inductive Input where
  /-- A transaction at the word port, as its packed word (30_encoding.md R70). -/
  | transaction (tw : TxWord)
  /-- An access through the default bus binding (20_memory.md R53). -/
  | bus (access : BusAccess)
  /-- Reset, asserted and released (70_reset_and_hazards.md R200). -/
  | reset
deriving DecidableEq, Repr

/-- The whole state. CMD holds nothing (10_state.md R29) and CONFIG is `build.harness` (R30). -/
structure State where
  /-- account_portion (10_state.md R21) -/
  a : Word
  /-- cluster_effective (R21) -/
  c : Word
  /-- cluster_portion (R21) -/
  p : Word
  /-- rate_bps (R21) -/
  r : Word
  /-- DELTA's output (R21) -/
  result : Word
  /-- WMUL operand a (R22) -/
  ma : Word
  /-- WMUL operand b (R22) -/
  mb : Word
  /-- WMUL output hi (R22) -/
  mh : Word
  /-- WMUL output lo (R22) -/
  ml : Word
  /-- SNUM operand hi (R23) -/
  nh : Word
  /-- SNUM operand lo (R23) -/
  nl : Word
  /-- SNUM scalar (R23) -/
  s : Word
  /-- the cap of SNUM and of BDIV (R23, R24) -/
  k : Word
  /-- SNUM output hi2, BDIV numerator hi2 (R23, R24) -/
  t2 : Word
  /-- SNUM output hi1, BDIV numerator hi1 (R23, R24) -/
  t1 : Word
  /-- SNUM output lo′, BDIV numerator lo (R23, R24) -/
  t0 : Word
  /-- BDIV denominator hi (R24) -/
  dh : Word
  /-- BDIV denominator lo (R24) -/
  dl : Word
  /-- BDIV output (R24) -/
  q : Word
  /-- STATUS (R26); its fields are in Machine/Flags.lean -/
  status : Word
  /-- CAUSE (R27) -/
  cause : Word
  /-- FINFO (R28) -/
  finfo : Word
  /-- the oracle's result (R31) -/
  refres : Word
  /-- agreeing vectors, saturating (R31) -/
  hcnt : Word
  /-- A of the first mismatching vector (R31) -/
  ha : Word
  /-- its C (R31) -/
  hc : Word
  /-- its P (R31) -/
  hp : Word
  /-- its R (R31) -/
  hr : Word
  /-- DELTA's result on it (R31) -/
  hdut : Word
  /-- the oracle's result on it (R31) -/
  href : Word
  /-- the instance parameters, which no step changes (00_scope.md R8, 10_state.md R30, R38) -/
  build : Config.Build
  /-- the model's own: how many words of `Config.rnd` have been drawn (44_oracle_harness.md R151; log entry 3) -/
  drawn : Nat
  /-- the model's own: the host's inputs not taken yet, the next one first (20_memory.md R57; log entry 4) -/
  pending : List Input
  /-- the model's own: what the port drives for the last input taken (log entry 5) -/
  reply : Reply
deriving DecidableEq, Repr

/-- The state reset leaves (10_state.md R39, 70 R200): every register 0; the instance, the draw stream and the host's
inputs are outside the block's registers and stay what they are. -/
def State.resetWith (build : Config.Build) (drawn : Nat) (pending : List Input) : State :=
  { a := 0#64, c := 0#64, p := 0#64, r := 0#64, result := 0#64,
    ma := 0#64, mb := 0#64, mh := 0#64, ml := 0#64,
    nh := 0#64, nl := 0#64, s := 0#64, k := 0#64,
    t2 := 0#64, t1 := 0#64, t0 := 0#64, dh := 0#64, dl := 0#64, q := 0#64,
    status := 0#64, cause := 0#64, finfo := 0#64,
    refres := 0#64, hcnt := 0#64, ha := 0#64, hc := 0#64, hp := 0#64, hr := 0#64, hdut := 0#64, href := 0#64,
    build := build, drawn := drawn, pending := pending, reply := .notDriven }

/-- The machine right after reset (10_state.md R39), as the testbench instance, with no draw taken and no input offered
(log entries 1 to 5). -/
def State.reset : State := State.resetWith Config.testbench 0 []

end Sys2Proof.Machine
end

