-- ==== Sys2Proof/Machine/Flags.lean ====
section
/-! DEFINITION. The five fields of STATUS (10_state.md R26, R34). -/

namespace Sys2Proof.Machine

/-- The one-bit fields of STATUS (R26). -/
inductive Flag where
  | fault
  | sat
  | cap
  | zsc
  | clamp
deriving DecidableEq, Repr

/-- The bit of STATUS a field stands at (R26). -/
def Flag.bit : Flag → Nat
  | .fault => 0
  | .sat => 1
  | .cap => 2
  | .zsc => 3
  | .clamp => 4

/-- The word with only this field set. -/
def Flag.mask (f : Flag) : Word := 1#64 <<< f.bit

/-- The value of a field of STATUS. -/
def State.flag (s : State) (f : Flag) : Bool := s.status.getLsbD f.bit

/-- `STATUS.F <- b` (00_scope.md R12); every other bit keeps its value. -/
def State.setFlag (s : State) (f : Flag) (b : Bool) : State :=
  { s with status := if b then s.status ||| f.mask else s.status &&& ~~~f.mask }

end Sys2Proof.Machine
end

