-- ==== Sys2Proof/Machine/Operands.lean ====
section
/-! DEFINITION. The register space: the address map and its access rights (20_memory.md R59), the value of each location
and the write of a data register. It is the block's one operand form (45_host_system.md R164). -/

namespace Sys2Proof.Machine

/-- The registers of the map (R59). -/
inductive Reg where
  | a | c | p | r | result
  | ma | mb | mh | ml | nh | nl | s | k | t2 | t1 | t0 | dh | dl | q
  | status | cause | finfo | cmd | config
  | refres | hcnt | ha | hc | hp | hr | hdut | href
deriving DecidableEq, Repr

/-- The access column of R59. -/
inductive Access where
  | readWrite
  | readOnly
  | writeOnly
deriving DecidableEq, Repr

/-- A register's access right (R59). -/
def Reg.access : Reg → Access
  | .a | .c | .p | .r | .result => .readWrite
  | .ma | .mb | .mh | .ml | .nh | .nl | .s | .k | .t2 | .t1 | .t0 | .dh | .dl | .q => .readWrite
  | .status | .cause | .finfo | .config => .readOnly
  | .cmd => .writeOnly
  | .refres | .hcnt | .ha | .hc | .hp | .hr | .hdut | .href => .readOnly

/-- A register that exists only when `HARNESS = 1` (10_state.md R31, R59). -/
def Reg.ifHarness (harness : Bool) (reg : Reg) : Option Reg := if harness then some reg else none

/-- The register at an index of the map (R59); `none` is unmapped. -/
def Reg.ofIndex (harness : Bool) (idx : Index) : Option Reg :=
  match idx.toNat with
  | 0x00 => some .a
  | 0x01 => some .c
  | 0x02 => some .p
  | 0x03 => some .r
  | 0x04 => some .result
  | 0x08 => some .ma
  | 0x09 => some .mb
  | 0x0A => some .mh
  | 0x0B => some .ml
  | 0x0C => some .nh
  | 0x0D => some .nl
  | 0x0E => some .s
  | 0x0F => some .k
  | 0x10 => some .t2
  | 0x11 => some .t1
  | 0x12 => some .t0
  | 0x13 => some .dh
  | 0x14 => some .dl
  | 0x15 => some .q
  | 0x18 => some .status
  | 0x19 => some .cause
  | 0x1A => some .finfo
  | 0x1B => some .cmd
  | 0x1C => some .config
  | 0x20 => Reg.ifHarness harness .refres
  | 0x21 => Reg.ifHarness harness .hcnt
  | 0x22 => Reg.ifHarness harness .ha
  | 0x23 => Reg.ifHarness harness .hc
  | 0x24 => Reg.ifHarness harness .hp
  | 0x25 => Reg.ifHarness harness .hr
  | 0x26 => Reg.ifHarness harness .hdut
  | 0x27 => Reg.ifHarness harness .href
  | _ => none

/-- The index of a register (10_state.md R39). -/
def Reg.index : Reg → Index
  | .a => 0x00#6
  | .c => 0x01#6
  | .p => 0x02#6
  | .r => 0x03#6
  | .result => 0x04#6
  | .ma => 0x08#6
  | .mb => 0x09#6
  | .mh => 0x0A#6
  | .ml => 0x0B#6
  | .nh => 0x0C#6
  | .nl => 0x0D#6
  | .s => 0x0E#6
  | .k => 0x0F#6
  | .t2 => 0x10#6
  | .t1 => 0x11#6
  | .t0 => 0x12#6
  | .dh => 0x13#6
  | .dl => 0x14#6
  | .q => 0x15#6
  | .status => 0x18#6
  | .cause => 0x19#6
  | .finfo => 0x1A#6
  | .cmd => 0x1B#6
  | .config => 0x1C#6
  | .refres => 0x20#6
  | .hcnt => 0x21#6
  | .ha => 0x22#6
  | .hc => 0x23#6
  | .hp => 0x24#6
  | .hr => 0x25#6
  | .hdut => 0x26#6
  | .href => 0x27#6

/-- The register at `idx`, if it is mapped and readable: RW or RO (45_host_system.md R160). -/
def Reg.readableAt (harness : Bool) (idx : Index) : Option Reg :=
  match Reg.ofIndex harness idx with
  | some reg => if reg.access = .writeOnly then none else some reg
  | none => none

/-- The data register at `idx`, if it is mapped and RW (45_host_system.md R161); CMD is not one. -/
def Reg.writableAt (harness : Bool) (idx : Index) : Option Reg :=
  match Reg.ofIndex harness idx with
  | some reg => if reg.access = .readWrite then some reg else none
  | none => none

/-- CONFIG: bit 0 is `HARNESS`, bits 63:1 read as 0 (10_state.md R30). -/
def configWord (build : Config.Build) : Word := if build.harness then 1#64 else 0#64

/-- The value of a register. CMD holds nothing and reads as 0 (10_state.md R29). -/
def State.reg (s : State) : Reg → Word
  | .a => s.a
  | .c => s.c
  | .p => s.p
  | .r => s.r
  | .result => s.result
  | .ma => s.ma
  | .mb => s.mb
  | .mh => s.mh
  | .ml => s.ml
  | .nh => s.nh
  | .nl => s.nl
  | .s => s.s
  | .k => s.k
  | .t2 => s.t2
  | .t1 => s.t1
  | .t0 => s.t0
  | .dh => s.dh
  | .dl => s.dl
  | .q => s.q
  | .status => s.status
  | .cause => s.cause
  | .finfo => s.finfo
  | .cmd => 0#64
  | .config => configWord s.build
  | .refres => s.refres
  | .hcnt => s.hcnt
  | .ha => s.ha
  | .hc => s.hc
  | .hp => s.hp
  | .hr => s.hr
  | .hdut => s.hdut
  | .href => s.href

/-- The host's write of a data register (10_state.md R25): all 64 bits as given. A register that is not RW is not
written by the host. -/
def State.writeReg (s : State) (reg : Reg) (v : Word) : State :=
  match reg with
  | .a => { s with a := v }
  | .c => { s with c := v }
  | .p => { s with p := v }
  | .r => { s with r := v }
  | .result => { s with result := v }
  | .ma => { s with ma := v }
  | .mb => { s with mb := v }
  | .mh => { s with mh := v }
  | .ml => { s with ml := v }
  | .nh => { s with nh := v }
  | .nl => { s with nl := v }
  | .s => { s with s := v }
  | .k => { s with k := v }
  | .t2 => { s with t2 := v }
  | .t1 => { s with t1 := v }
  | .t0 => { s with t0 := v }
  | .dh => { s with dh := v }
  | .dl => { s with dl := v }
  | .q => { s with q := v }
  | .status | .cause | .finfo | .cmd | .config => s
  | .refres | .hcnt | .ha | .hc | .hp | .hr | .hdut | .href => s

end Sys2Proof.Machine
end

