-- ==== Sys2Proof/Machine/Ops.lean ====
section
/-! DEFINITION. The shared operations: taking a fault and returning from one (60_exceptions.md R175, R179), the gate every
command passes (R178, 30_encoding.md R72), and reset (70_reset_and_hazards.md R200). -/

namespace Sys2Proof.Machine

/-- The cause codes (60_exceptions.md R170). -/
def Cause.code : Cause → Word
  | .div0 => 1#64
  | .domain => 2#64
  | .illegalCmd => 3#64
  | .access => 4#64
  | .mismatch => 5#64

/-- Fault entry, `raise Fault(cause, info)` (R175). The first fault is kept; nothing else is saved, there is no handler
to go to, and the block is idle afterwards. -/
def raiseFault (cause : Cause) (info : Word) (s : State) : State :=
  if s.flag .fault then s
  else { s.setFlag .fault true with cause := cause.code, finfo := info }

/-- The return from a fault (R179, 45_host_system.md R163): the record is cleared, nothing is restored. -/
def clearFault (s : State) : State :=
  { s.setFlag .fault false with cause := 0#64, finfo := 0#64 }

/-- A `WR` to CMD that decoded to a command other than CLRF. Refused while a fault is recorded (R178); a harness-only
row matches no word of an instance without the harness, so the word is illegal there (30_encoding.md R72, R76);
otherwise the command has its effect. -/
def runCommand (cw : Word) (harnessOnly : Bool) (effect : State → State) (s : State) : State :=
  if s.flag .fault then s
  else if harnessOnly && !s.build.harness then raiseFault .illegalCmd cw s
  else effect s

/-- A `WR` to CMD whose data matches no command (60_exceptions.md R173); under a recorded fault nothing happens (R178). -/
def illegalCommand (cw : Word) (s : State) : State := runCommand cw false (raiseFault .illegalCmd cw) s

/-- `FINFO` of an ACCESS fault: `(we · 64) + idx` (60_exceptions.md R170, R174). -/
def accessInfo (we : Bool) (idx : Index) : Word := (BitVec.ofBool we ++ idx).setWidth 64

/-- Reset (70 R200): every register takes its reset value; the instance, the draw stream, which is not rewound, and the
host's further inputs are outside the block. -/
def resetBlock (s : State) : State := State.resetWith s.build s.drawn s.pending

end Sys2Proof.Machine
end

