-- ==== Sys2Proof/Machine/Bdiv.lean ====
section
/-! DEFINITION. BDIV, the bit-by-bit long-division unit (42_bdiv.md). -/

namespace Sys2Proof.Machine

/-- The temporaries a bit-step carries to the next: the running quotient and the two-limb remainder (R110, R114, R115). -/
structure DivRegs where
  q : Word
  rh : Word
  rl : Word
deriving DecidableEq, Repr

/-- What `bdiv` returns: the quotient and the early-exit report (R110). -/
structure BdivOut where
  q : Word
  cap : Bool
deriving DecidableEq, Repr

/-- `val2(x) ≥ val2(y)`, from word compares (R110). -/
def ge2 (xh xl yh yl : Word) : Bool := decide (yh < xh) || (decide (xh = yh) && decide (yl ≤ xl))

/-- `(val2(x) − val2(y)) mod 2^128`, from word subtracts (R110). -/
def sub2 (xh xl yh yl : Word) : DoubleWord :=
  let borrow : Word := if xl < yl then 1#64 else 0#64
  { hi := (xh - yh) - borrow, lo := xl - yl }

/-- One bit-step, lines 7 to 16 of R110; `none` is the early exit of line 16. -/
def bitStep (dh dl k : Word) (b : Bool) (d : DivRegs) : Option DivRegs :=
  let carry := d.rh.getLsbD 63
  let qtop := d.q.getLsbD 63
  let rh := (d.rh <<< 1) ||| (d.rl >>> 63)
  let rl := (d.rl <<< 1) ||| (if b then 1#64 else 0#64)
  let q := d.q <<< 1
  let next : DivRegs :=
    if carry || ge2 rh rl dh dl then
      { q := q ||| 1#64, rh := (sub2 rh rl dh dl).hi, rl := (sub2 rh rl dh dl).lo }
    else { q := q, rh := rh, rl := rl }
  if qtop || decide (k ≤ next.q) then none else some next

/-- The inner loop on the limb `w`: its lowest `n` bits, the most significant of them first (R110 lines 6 to 16). -/
def limbLoop (dh dl k w : Word) : Nat → DivRegs → Option DivRegs
  | 0, d => some d
  | n + 1, d =>
    match bitStep dh dl k (w.getLsbD n) d with
    | some d' => limbLoop dh dl k w n d'
    | none => none

/-- The outer loop over the limbs of the numerator, most significant first (R110 lines 4 to 16): 64 bit-steps each (R116). -/
def divLoop (dh dl k : Word) : List Word → DivRegs → Option DivRegs
  | [], d => some d
  | w :: ws, d =>
    match limbLoop dh dl k w 64 d with
    | some d' => divLoop dh dl k ws d'
    | none => none

/-- `bdiv(n2, n1, n0, dh, dl, k)` (R110); the error is the defect of line 1 (R117). -/
def bdiv (n2 n1 n0 dh dl k : Word) : Except Cause BdivOut :=
  if dh = 0#64 ∧ dl = 0#64 then .error .div0
  else if k ≤ 0#64 then .ok { q := k, cap := true }
  else
    match divLoop dh dl k [n2, n1, n0] { q := 0#64, rh := 0#64, rl := 0#64 } with
    | some d => .ok { q := d.q, cap := false }
    | none => .ok { q := k, cap := true }

/-- What BDIV does: `Q` and `STATUS.CAP`, or DIV0 before anything is written (R118). -/
def bdivEffect (s : State) : State :=
  match bdiv s.t2 s.t1 s.t0 s.dh s.dl s.k with
  | .error cause => raiseFault cause cwBdiv s
  | .ok out => { s with q := out.q }.setFlag .cap out.cap

/-- `BDIV` (R118). -/
def execBdiv (s : State) : Host.Outcome State Fault Refusal := .next (runCommand cwBdiv false bdivEffect s)

end Sys2Proof.Machine
end

