-- ==== Sys2Proof/Machine/Wmul.lean ====
section
/-! DEFINITION. WMUL, the wide-multiply unit (40_wmul.md). -/

namespace Sys2Proof.Machine

/-- The unit's one multiplier, 32×32→64; its operands are at most `M32` (00_scope.md R10, 40_wmul.md R92). -/
def mul32 (x y : Word) : Word := x * y

/-- `wmul(a, b)`, line by line (R90). -/
def wmul (a b : Word) : DoubleWord :=
  let a0 := a &&& M32
  let a1 := a >>> 32
  let b0 := b &&& M32
  let b1 := b >>> 32
  let p00 := mul32 a0 b0
  let p01 := mul32 a0 b1
  let p10 := mul32 a1 b0
  let p11 := mul32 a1 b1
  let mid := (p00 >>> 32) + (p01 &&& M32) + (p10 &&& M32)
  { hi := p11 + (p01 >>> 32) + (p10 >>> 32) + (mid >>> 32),
    lo := (p00 &&& M32) ||| ((mid &&& M32) <<< 32) }

/-- What WMUL writes: `MH`, `ML` and nothing else (R93). -/
def wmulEffect (s : State) : State :=
  { s with mh := (wmul s.ma s.mb).hi, ml := (wmul s.ma s.mb).lo }

/-- `WMUL` (R93). -/
def execWmul (s : State) : Host.Outcome State Fault Refusal := .next (runCommand cwWmul false wmulEffect s)

end Sys2Proof.Machine
end

