-- ==== Sys2Proof/Machine/Snum.lean ====
section
/-! DEFINITION. SNUM, the bounded scalar-multiply accumulator (41_snum.md). -/

namespace Sys2Proof.Machine

/-- What `snum` returns: the TripleWord and the saturation report (R100). -/
structure SnumOut where
  t : TripleWord
  sat : Bool
deriving DecidableEq, Repr

/-- `snum(nh, nl, s, k)`, line by line (R100); the comparison point is R102's. -/
def snum (nh nl s k : Word) : SnumOut :=
  let low := wmul nl s
  let high := wmul nh s
  let t1 := high.lo + low.hi
  let carry : Word := if t1 < high.lo then 1#64 else 0#64
  let t2 := high.hi + carry
  { t := { hi2 := t2, hi1 := t1, lo := low.lo }, sat := decide (k ≤ t2) }

/-- What SNUM does: the domain test of R105 first, then `T2`, `T1`, `T0`, written whatever SAT says, and `STATUS.SAT`
(R104). -/
def snumEffect (s : State) : State :=
  if Config.scalarLimit ≤ s.s then raiseFault .domain cwSnum s
  else
    let out := snum s.nh s.nl s.s s.k
    { s with t2 := out.t.hi2, t1 := out.t.hi1, t0 := out.t.lo }.setFlag .sat out.sat

/-- `SNUM` (R104). -/
def execSnum (s : State) : Host.Outcome State Fault Refusal := .next (runCommand cwSnum false snumEffect s)

end Sys2Proof.Machine
end

