-- ==== Sys2Proof/Machine/Delta.lean ====
section
/-! DEFINITION. DELTA, the proportional-stake orchestrator (43_delta.md). -/

namespace Sys2Proof.Machine

/-- What `delta` returns: the result and its two reports (R125). -/
structure DeltaOut where
  res : Word
  zsc : Bool
  clamp : Bool
deriving DecidableEq, Repr

/-- `delta(a, c, p, r)`, phases D0 to D5 in order (R125, R137). -/
def delta (a c p r : Word) : Except Cause DeltaOut :=
  if Config.rateMax < r then .error .domain
  else if a = 0#64 ∨ c = 0#64 ∨ r = 0#64 then .ok { res := 0#64, zsc := true, clamp := false }
  else
    let n := wmul a c
    let sn := snum n.hi n.lo r a
    if sn.sat then .ok { res := a, zsc := false, clamp := true }
    else if p = 0#64 then .error .div0
    else
      let d := wmul p Config.bpsDenom
      match bdiv sn.t.hi2 sn.t.hi1 sn.t.lo d.hi d.lo a with
      | .error cause => .error cause
      | .ok out => .ok { res := out.q, zsc := false, clamp := out.cap }

/-- `RESULT <- res ; STATUS.ZSC <- zsc ; STATUS.CLAMP <- clamp` (R126). -/
def writeDelta (out : DeltaOut) (s : State) : State :=
  ({ s with result := out.res }.setFlag .zsc out.zsc).setFlag .clamp out.clamp

/-- What DELTA does; a fault is raised before anything is written (R126). -/
def deltaEffect (s : State) : State :=
  match delta s.a s.c s.p s.r with
  | .error cause => raiseFault cause cwDelta s
  | .ok out => writeDelta out s

/-- `DELTA` (R126). -/
def execDelta (s : State) : Host.Outcome State Fault Refusal := .next (runCommand cwDelta false deltaEffect s)

end Sys2Proof.Machine
end

