-- ==== Sys2Proof/Machine/Vectors.lean ====
section
/-! DEFINITION. The harness's vector lists (44_oracle_harness.md R148 to R151). -/

namespace Sys2Proof.Machine

/-- One vector of the harness. -/
structure Vec where
  a : Word
  c : Word
  p : Word
  r : Word
deriving DecidableEq, Repr

/-- Every `(a, c, p, r)` of four lists, in lexicographic order with `a` outermost and `r` innermost (R148, R149). -/
def vecGrid (as cs ps rs : List Word) : List Vec :=
  as.flatMap fun a => cs.flatMap fun c => ps.flatMap fun p => rs.map fun r => { a := a, c := c, p := p, r := r }

/-- The words `lo, lo + 1, …`, `n` of them. -/
def wordsFrom (lo n : Nat) : List Word := (List.range n).map fun i => BitVec.ofNat 64 (lo + i)

/-- Class 0, SMALL (R148), for the parameter `SMALL_N`. -/
def smallVectors (smallN : Nat) : List Vec :=
  vecGrid (wordsFrom 0 (smallN + 1)) (wordsFrom 0 (smallN + 1)) (wordsFrom 1 smallN)
    (wordsFrom 0 (smallN + 1) ++ wordsFrom (10000 - smallN) (smallN + 1))

/-- `WB`, the ten boundary words (R149). -/
def boundaryWords : List Word :=
  [1#64, 2#64, 0xFFFFFFFF#64, 0x100000000#64, 0x100000001#64, 0x7FFFFFFFFFFFFFFF#64, 0x8000000000000000#64,
    0x8000000000000001#64, 0xFFFFFFFFFFFFFFFE#64, 0xFFFFFFFFFFFFFFFF#64]

/-- Class 1, BOUNDARY (R149). -/
def boundaryVectors : List Vec :=
  vecGrid (0#64 :: boundaryWords) (0#64 :: boundaryWords) boundaryWords [0#64, 1#64, 2#64, 9999#64, 10000#64]

/-- `c* = ceil(p·10000 / r)`, the least `c` that saturates (R150). -/
def satEdgeC (p r : Nat) : Nat := (p * 10000 + (r - 1)) / r

/-- The three vectors of SATEDGE for one `a`, `p`, `r`: `c* − 1`, `c*`, `c* + 1` (R150). -/
def satEdgeTriple (a p r : Nat) : List Vec :=
  [satEdgeC p r - 1, satEdgeC p r, satEdgeC p r + 1].map fun c =>
    { a := BitVec.ofNat 64 a, c := BitVec.ofNat 64 c, p := BitVec.ofNat 64 p, r := BitVec.ofNat 64 r }

/-- Class 3, SATEDGE (R150). -/
def satEdgeVectors : List Vec :=
  [1, 2, 7, 10 ^ 6, 2 ^ 32, 2 ^ 63, 2 ^ 64 - 1].flatMap fun a =>
    [1, 2, 5, 2 * 10 ^ 6, 2 ^ 32, 2 ^ 50].flatMap fun p =>
      [1, 3, 500, 9999, 10000].flatMap fun r => satEdgeTriple a p r

/-- The vector four draws make: `p` is 1 in place of 0 and `r` is taken modulo 10001 (R151). -/
def randomVec (d0 d1 d2 d3 : Word) : Vec :=
  { a := d0, c := d1, p := if d2 = 0#64 then 1#64 else d2, r := BitVec.umod d3 10001#64 }

/-- Class 2, RANDOM (R151): `n` vectors from the stream, its next word being number `start`. -/
def randomVectors (stream : Nat → Word) (start : Nat) : Nat → List Vec
  | 0 => []
  | n + 1 =>
    randomVec (stream start) (stream (start + 1)) (stream (start + 2)) (stream (start + 3)) ::
      randomVectors stream (start + 4) n

end Sys2Proof.Machine
end

