-- ==== Sys2Proof/Machine/Harness.lean ====
section
/-! DEFINITION. REF, the reference oracle, and EQH, the equivalence harness (44_oracle_harness.md). -/

namespace Sys2Proof.Machine

/-- `ref(a, c, p, r)`, in exact integer arithmetic, with no short-circuit and no early exit (R140). -/
def ref (a c p r : Word) : Except Cause Word :=
  if p = 0#64 then .error .div0
  else .ok (BitVec.ofNat 64 (min a.toNat (a.toNat * c.toNat * r.toNat / (p.toNat * 10000))))

/-- What REF does: `REFRES`, or a fault before anything is written (R142). -/
def refEffect (s : State) : State :=
  if Config.rateMax < s.r then raiseFault .domain cwRef s
  else
    match ref s.a s.c s.p s.r with
    | .error cause => raiseFault cause cwRef s
    | .ok v => { s with refres := v }

/-- `REF` (R142). -/
def execRef (s : State) : Host.Outcome State Fault Refusal := .next (runCommand cwRef true refEffect s)

/-- `HCNT + 1`, saturating at `M64` (R145 line 8). -/
def countUp (n : Word) : Word := if n < M64 then n + 1#64 else M64

/-- Lines 5 to 11 of `hcheck` (R145): both results are written; equal ones are counted, unequal ones captured and
MISMATCH raised. The error is the state a fault leaves, the command having ended. -/
def hcompare (cw : Word) (out : DeltaOut) (v : Word) (s : State) : Except State State :=
  let t := { writeDelta out s with refres := v }
  if out.res = v then .ok { t with hcnt := countUp t.hcnt }
  else
    .error (raiseFault .mismatch cw
      { t with ha := t.a, hc := t.c, hp := t.p, hr := t.r, hdut := out.res, href := v })

/-- `hcheck(cw)` (R145): the error is the state after a fault, which ends the command. -/
def hcheck (cw : Word) (s : State) : Except State State :=
  if Config.rateMax < s.r then .error (raiseFault .domain cw s)
  else if s.p = 0#64 then .error (raiseFault .div0 cw s)
  else
    match delta s.a s.c s.p s.r with
    | .error cause => .error (raiseFault cause cw s)
    | .ok out =>
      match ref s.a s.c s.p s.r with
      | .error cause => .error (raiseFault cause cw s)
      | .ok v => hcompare cw out v s

/-- What HCHK does (R145). -/
def hchkEffect (s : State) : State :=
  match hcheck cwHchk s with
  | .error t => t
  | .ok t => t

/-- `HCHK` (R145). -/
def execHchk (s : State) : Host.Outcome State Fault Refusal := .next (runCommand cwHchk true hchkEffect s)

/-- `A <- a ; C <- c ; P <- p ; R <- r` (R147), after taking the vector's `draws` words from the stream: four for a
vector of class RANDOM, none for the others (R151). -/
def applyVec (draws : Nat) (v : Vec) (s : State) : State :=
  { s with a := v.a, c := v.c, p := v.p, r := v.r, drawn := s.drawn + draws }

/-- The loop of HRUN over a class's list; a MISMATCH ends it (R147). -/
def hrun (cw : Word) (draws : Nat) : List Vec → State → State
  | [], s => s
  | v :: vs, s =>
    match hcheck cw (applyVec draws v s) with
    | .error t => t
    | .ok t => hrun cw draws vs t

/-- What HRUN.SMALL does (R147, R148). -/
def hrunSmallEffect (s : State) : State := hrun cwHrunSmall 0 (smallVectors s.build.smallN) s

/-- `HRUN.SMALL` (R147). -/
def execHrunSmall (s : State) : Host.Outcome State Fault Refusal := .next (runCommand cwHrunSmall true hrunSmallEffect s)

/-- What HRUN.BOUNDARY does (R147, R149). -/
def hrunBoundaryEffect (s : State) : State := hrun cwHrunBoundary 0 boundaryVectors s

/-- `HRUN.BOUNDARY` (R147). -/
def execHrunBoundary (s : State) : Host.Outcome State Fault Refusal :=
  .next (runCommand cwHrunBoundary true hrunBoundaryEffect s)

/-- What HRUN.RANDOM n does (R147, R151): the next `4·n` words of the free stream `Config.rnd`. -/
def hrunRandomEffect (n : BitVec 32) (s : State) : State :=
  hrun (cwHrunRandom n) 4 (randomVectors Config.rnd s.drawn n.toNat) s

/-- `HRUN.RANDOM n` (R147). -/
def execHrunRandom (n : BitVec 32) (s : State) : Host.Outcome State Fault Refusal :=
  .next (runCommand (cwHrunRandom n) true (hrunRandomEffect n) s)

/-- What HRUN.SATEDGE does (R147, R150). -/
def hrunSatedgeEffect (s : State) : State := hrun cwHrunSatedge 0 satEdgeVectors s

/-- `HRUN.SATEDGE` (R147). -/
def execHrunSatedge (s : State) : Host.Outcome State Fault Refusal :=
  .next (runCommand cwHrunSatedge true hrunSatedgeEffect s)

/-- What HCLR does: the count and the captures, not `REFRES`, no flag (R153). -/
def hclrEffect (s : State) : State :=
  { s with hcnt := 0#64, ha := 0#64, hc := 0#64, hp := 0#64, hr := 0#64, hdut := 0#64, href := 0#64 }

/-- `HCLR` (R153). -/
def execHclr (s : State) : Host.Outcome State Fault Refusal := .next (runCommand cwHclr true hclrEffect s)

end Sys2Proof.Machine
end

