-- ==== Sys2Proof/Machine/HostSystem.lean ====
section
/-! DEFINITION. The two transactions RD and WR and the system commands NOP and CLRF (45_host_system.md). -/

namespace Sys2Proof.Machine

/-- `NOP` (R162). -/
def execNop (s : State) : Host.Outcome State Fault Refusal := .next (runCommand cwNop false id s)

/-- `CLRF` (R163), the one command that executes while a fault is recorded (60_exceptions.md R178). -/
def execClrf (s : State) : Host.Outcome State Fault Refusal := .next (clearFault s)

/-- `RD reg` (R160): the reply is the register's value, whatever STATUS.FAULT is; a forbidden read replies 0 and raises
ACCESS (60_exceptions.md R174). -/
def execRd (idx : Index) (s : State) : Host.Outcome State Fault Refusal :=
  match Reg.readableAt s.build.harness idx with
  | some reg => .next { s with reply := .data (s.reg reg) }
  | none => .next { raiseFault .access (accessInfo false idx) s with reply := .data 0#64 }

/-- The command a word written to CMD starts (R161, R166, 30_encoding.md R72): the rule of the row it matches, or
ILLEGAL_CMD. -/
def startCommand (cw : Word) (s : State) : Host.Outcome State Fault Refusal :=
  match decodeCommand cw with
  | .error _ => .next (illegalCommand cw s)
  | .ok .nop => execNop s
  | .ok .wmul => execWmul s
  | .ok .snum => execSnum s
  | .ok .bdiv => execBdiv s
  | .ok .delta => execDelta s
  | .ok .clrf => execClrf s
  | .ok .ref => execRef s
  | .ok .hchk => execHchk s
  | .ok .hrunSmall => execHrunSmall s
  | .ok .hrunBoundary => execHrunBoundary s
  | .ok (.hrunRandom n) => execHrunRandom n s
  | .ok .hrunSatedge => execHrunSatedge s
  | .ok .hclr => execHclr s
  -- the decoder of command words answers no transaction (Laws/Decode.lean, decodeCommand_not_bus)
  | .ok (.rd _) => .next (illegalCommand cw s)
  | .ok (.wr _ _) => .next (illegalCommand cw s)

/-- `WR reg, value` (R161): a write to CMD starts a command and stores nothing; a data register takes all 64 bits,
whatever STATUS.FAULT is; any other index raises ACCESS and the value is dropped. -/
def execWr (idx : Index) (v : Word) (s : State) : Host.Outcome State Fault Refusal :=
  if idx = cmdIndex then startCommand v s
  else
    match Reg.writableAt s.build.harness idx with
    | some reg => .next (s.writeReg reg v)
    | none => .next (raiseFault .access (accessInfo true idx) s)

end Sys2Proof.Machine
end

