-- ==== Sys2Proof/Machine/Dispatch.lean ====
section
/-! DEFINITION. One arm per instruction. -/

namespace Sys2Proof.Machine

def exec (i : Instr) (s : State) : Host.Outcome State Fault Refusal :=
  match i with
  | .nop => Sys2Proof.Machine.execNop s
  | .wmul => Sys2Proof.Machine.execWmul s
  | .snum => Sys2Proof.Machine.execSnum s
  | .bdiv => Sys2Proof.Machine.execBdiv s
  | .delta => Sys2Proof.Machine.execDelta s
  | .clrf => Sys2Proof.Machine.execClrf s
  | .ref => Sys2Proof.Machine.execRef s
  | .hchk => Sys2Proof.Machine.execHchk s
  | .hrunSmall => Sys2Proof.Machine.execHrunSmall s
  | .hrunBoundary => Sys2Proof.Machine.execHrunBoundary s
  | .hrunRandom n => Sys2Proof.Machine.execHrunRandom n s
  | .hrunSatedge => Sys2Proof.Machine.execHrunSatedge s
  | .hclr => Sys2Proof.Machine.execHclr s
  | .rd idx => Sys2Proof.Machine.execRd idx s
  | .wr idx v => Sys2Proof.Machine.execWr idx v s

end Sys2Proof.Machine
end

