-- ==== Sys2Proof/Machine/Port.lean ====
section
/-! DEFINITION. How an input reaches the block: the word port (20_memory.md R51, R57), the default bus binding (R53) and
reset (70_reset_and_hazards.md R200). -/

namespace Sys2Proof.Machine

/-- The word eight bytes make, the byte at the lowest offset being bits 7:0 (20_memory.md R53). -/
def wordOfBytes : List (BitVec 8) → Word
  | [] => 0#64
  | b :: bs => b.setWidth 64 ||| (wordOfBytes bs <<< 8)

/-- The byte at offset `8·idx + j`: bits `8j + 7 : 8j` of the register (R53). -/
def byteOfWord (w : Word) (j : Nat) : BitVec 8 := w.extractLsb' (8 * j) 8

/-- The eight bytes of a register, the one at byte offset `8·idx` first (R53). -/
def bytesOfWord (w : Word) : List (BitVec 8) := (List.range 8).map (byteOfWord w)

/-- What the default binding answers the bus for what the port drives: a read's word as its bytes (R53). -/
def busReply : Reply → Reply
  | .notDriven => .notDriven
  | .data w => .bytes (bytesOfWord w)
  | .bytes bs => .bytes bs
  | .busError => .busError

/-- The outcome of a transaction that came over the bus: the block's own, its reply carried as bytes (R53). -/
def onBus : Host.Outcome State Fault Refusal → Host.Outcome State Fault Refusal
  | .next t => .next { t with reply := busReply t.reply }
  | .fault e => .fault e
  | .refused e => .refused e

/-- A naturally aligned 8-byte access inside the window (R53). -/
def busAligned (offset size : Nat) : Bool := size == 8 && offset % 8 == 0 && decide (offset + size ≤ 8 * 64)

/-- The default bus binding (R53): the transaction an access becomes; `none` is refused and never reaches the block. -/
def bindAccess : BusAccess → Option TxWord
  | .read offset size =>
    if busAligned offset size then some (packTx false (BitVec.ofNat 6 (offset / 8)) 0#64) else none
  | .write offset bytes =>
    if busAligned offset bytes.length then
      some (packTx true (BitVec.ofNat 6 (offset / 8)) (wordOfBytes bytes))
    else none

/-- The next input and the state in which it is taken: the host's queue is one shorter and the port drives nothing yet.
Inputs are taken in the order the host issues them (R57). -/
def takeInput (s : State) : Option (Input × State) :=
  match s.pending with
  | [] => none
  | input :: rest => some (input, { s with pending := rest, reply := .notDriven })

/-- One input, to completion (70 R206). -/
def deliver (input : Input) (s : State) : Host.Outcome State Fault Refusal :=
  match input with
  | .transaction tw => exec (decode tw) s
  | .bus access =>
    match bindAccess access with
    | some tw => onBus (exec (decode tw) s)
    | none => .next { s with reply := .busError }
  | .reset => .next (resetBlock s)

/-- With nothing offered the block is idle and keeps all its registers (60_exceptions.md R191). -/
def idle (s : State) : Host.Outcome State Fault Refusal := .next s

end Sys2Proof.Machine
end

