-- ==== Sys2Proof/Machine/Step.lean ====
section
/-! DEFINITION. One step: the block takes the host's next input and performs it to completion (20_memory.md R57,
70_reset_and_hazards.md R206); with none it stays idle. -/

namespace Sys2Proof.Machine

def step (s : State) : Host.Outcome State Fault Refusal :=
  match takeInput s with
  | some (input, t) => deliver input t
  | none => idle s

/-- The transaction that carries an opcode-table word, put where `step` takes its next input: first in the host's queue
(log entry 4: the host's script comes from outside the machine). -/
def State.withFetchWord (s : State) (nbits w : Nat) : State :=
  { s with pending := .transaction (tableTx nbits w) :: s.pending }

end Sys2Proof.Machine
end

