-- ==== Sys2Proof/Machine/Script.lean ====
section
/-! DEFINITION. Host scripts (00_scope.md R13, 30_encoding.md R80, R81): what each line makes the host issue, and what a
host may conclude from STATUS.FAULT (60_exceptions.md R192). The lines are the host's; the block sees only the transactions
and resets they expand to. -/

namespace Sys2Proof.Machine

/-- One line of a script (R80) or one pseudo-instruction (R81). -/
inductive ScriptLine where
  | wr (idx : Index) (v : Word)
  | rd (idx : Index)
  /-- `<mnemonic>`: the command's `WR` to CMD -/
  | command (i : Instr)
  | ldv (a c p r : Word)
  | mov (dst src : Index)
  | expect (idx : Index) (v : Word)
  | reset
deriving DecidableEq, Repr

/-- What lines leave: the block, and whether every `EXPECT` among them passed. The second is the testbench's and has no
effect on the block (R81). -/
structure ScriptRun where
  block : State
  passed : Bool
deriving DecidableEq, Repr

/-- The state after the host has issued one input, ahead of anything else it has to issue; `none` if the machine
stopped, which it never does. -/
def issue (input : Input) (s : State) : Option State :=
  match step { s with pending := input :: s.pending } with
  | .next t => some t
  | .fault _ => none
  | .refused _ => none

/-- `WR reg, value` (R80). -/
def issueWr (idx : Index) (v : Word) (s : State) : Option State := issue (.transaction (packTx true idx v)) s

/-- `RD reg` and the `rdata` it replies (R80). -/
def issueRd (idx : Index) (s : State) : Option (Word × State) :=
  match issue (.transaction (packTx false idx 0#64)) s with
  | some t =>
    match t.reply with
    | .data w => some (w, t)
    | .notDriven => none
    | .bytes _ => none
    | .busError => none
  | none => none

/-- A line that checks nothing. -/
def unchecked (t : State) : ScriptRun := { block := t, passed := true }

/-- One line (R80, R81). An `EXPECT` does to the block what the read does, whether it passes or fails. -/
def ScriptLine.run (line : ScriptLine) (s : State) : Option ScriptRun :=
  match line with
  | .wr idx v => (issueWr idx v s).map unchecked
  | .rd idx => (issueRd idx s).map fun x => unchecked x.2
  | .command i => (issue (.transaction (encode i)) s).map unchecked
  | .ldv a c p r =>
    ((issueWr 0x00#6 a s).bind fun s1 => (issueWr 0x01#6 c s1).bind fun s2 =>
      (issueWr 0x02#6 p s2).bind fun s3 => issueWr 0x03#6 r s3).map unchecked
  | .mov dst src => ((issueRd src s).bind fun x => issueWr dst x.1 x.2).map unchecked
  | .expect idx v => (issueRd idx s).map fun x => { block := x.2, passed := decide (x.1 = v) }
  | .reset => (issue .reset s).map unchecked

/-- A script, line after line; a failed `EXPECT` fails the script and does not end it (R81). -/
def runScript : List ScriptLine → State → Option ScriptRun
  | [], s => some (unchecked s)
  | line :: lines, s =>
    (line.run s).bind fun x => (runScript lines x.block).map fun y => { y with passed := x.passed && y.passed }

/-- The lines of a script, each with the state in which the host issues it. -/
def issuedIn : List ScriptLine → State → List (ScriptLine × State)
  | [], _ => []
  | line :: lines, s =>
    (line, s) ::
      match line.run s with
      | some x => issuedIn lines x.block
      | none => []

/-- Whether a line, issued in this state, clears the fault record: CLRF by any spelling, or `RESET` (60_exceptions.md
R178). A `MOV` into CMD is CLRF when what it reads is CLRF's word. -/
def ScriptLine.clearsRecord (line : ScriptLine) (s : State) : Bool :=
  match line with
  | .wr idx v => decide (decode (packTx true idx v) = .clrf)
  | .rd _ => false
  | .command i => decide (decode (encode i) = .clrf)
  | .ldv _ _ _ _ => false
  | .mov dst src => decide (dst = cmdIndex) && decide ((issueRd src s).map Prod.fst = some cwClrf)
  | .expect _ _ => false
  | .reset => true

/-- The premise and the check of 60_exceptions.md R192: STATUS.FAULT is 0 at the start of a script and at its end. -/
def endsWithoutFault (lines : List ScriptLine) (s : State) : Bool :=
  !s.flag .fault &&
    match runScript lines s with
    | some x => !x.block.flag .fault
    | none => false

end Sys2Proof.Machine
end

