-- ==== Sys2Proof/Machine/Sequencer.lean ====
section
/-! DEFINITION. The sequencer inside BDIV and DELTA, one phase or one bit-step at a time (10_state.md R33, 43_delta.md R137,
42_bdiv.md R110, R116). The host never sees it: the machine's step runs each command as one function call, as R33 allows;
this is the same command in the phases the spec names. -/

namespace Sys2Proof.Machine

/-- The hidden control state (R33). -/
inductive Phase where
  | idle
  | d0 | d1 | d2 | d3 | d4 | d5
  | b0 | b1
deriving DecidableEq, Repr

/-- The command whose phases are running: who takes the quotient, and whose word a fault reports (R110). -/
inductive SeqOwner where
  | bdiv
  | delta
deriving DecidableEq, Repr

/-- The sequencer, its call-scoped temporaries (10_state.md R32) and the architectural state behind it. -/
structure Seq where
  phase : Phase
  owner : SeqOwner
  /-- `n_hi`, `n_lo` of D2 -/
  num2 : DoubleWord
  /-- the numerator: `t2`, `t1`, `t0` of D3, or `T2`, `T1`, `T0` -/
  num3 : TripleWord
  /-- the denominator: `d_hi`, `d_lo` of D4, or `DH`, `DL` -/
  den : DoubleWord
  /-- the cap: `a` inside DELTA, or `K` -/
  k : Word
  div : DivRegs
  /-- 2 down to 0 -/
  limb : Nat
  /-- 63 down to 0 -/
  bit : Nat
  /-- bit-steps done (R116); no register shows it -/
  bitSteps : Nat
  st : State
deriving DecidableEq, Repr

/-- The command word a fault reports (R110, R125). -/
def SeqOwner.word : SeqOwner → Word
  | .bdiv => cwBdiv
  | .delta => cwDelta

/-- A write to CMD moves the sequencer from IDLE to the first phase of the decoded command (R33): B0 on the leaf unit's
registers, or D0. -/
def seqStart (owner : SeqOwner) (s : State) : Seq :=
  { phase := match owner with
      | .bdiv => .b0
      | .delta => .d0,
    owner := owner, num2 := ⟨0#64, 0#64⟩, num3 := ⟨s.t2, s.t1, s.t0⟩, den := ⟨s.dh, s.dl⟩, k := s.k,
    div := ⟨0#64, 0#64, 0#64⟩, limb := 0, bit := 0, bitSteps := 0, st := s }

/-- `raise Fault`: the phase goes to IDLE (60_exceptions.md R175). -/
def seqRaise (cause : Cause) (x : Seq) : Seq :=
  { x with phase := .idle, st := raiseFault cause x.owner.word x.st }

/-- DELTA's result is written and the command is done (R126). -/
def seqDelta (out : DeltaOut) (x : Seq) : Seq := { x with phase := .idle, st := writeDelta out x.st }

/-- `bdiv` returns `(q, cap)`: to `Q` and `CAP` (R118), or to DELTA's result (R125 D5). -/
def seqQuotient (q : Word) (cap : Bool) (x : Seq) : Seq :=
  match x.owner with
  | .bdiv => { x with phase := .idle, st := { x.st with q := q }.setFlag .cap cap }
  | .delta => seqDelta { res := q, zsc := false, clamp := cap } x

/-- The limb the outer loop is at (R110 line 5). -/
def seqLimbWord (x : Seq) : Word :=
  match x.limb with
  | 0 => x.num3.lo
  | 1 => x.num3.hi1
  | _ => x.num3.hi2

/-- One bit-step of phase B1 and the loop counters after it (R110 lines 4 to 17). -/
def seqBit (x : Seq) : Seq :=
  match bitStep x.den.hi x.den.lo x.k ((seqLimbWord x).getLsbD x.bit) x.div with
  | none => seqQuotient x.k true { x with bitSteps := x.bitSteps + 1 }
  | some d =>
    match x.bit, x.limb with
    | bit + 1, _ => { x with div := d, bit := bit, bitSteps := x.bitSteps + 1 }
    | 0, limb + 1 => { x with div := d, limb := limb, bit := 63, bitSteps := x.bitSteps + 1 }
    | 0, 0 => seqQuotient d.q false { x with div := d, bitSteps := x.bitSteps + 1 }

/-- One phase (R137; R110 for B0 and B1). -/
def seqStep (x : Seq) : Seq :=
  match x.phase with
  | .idle => x
  | .d0 => if Config.rateMax < x.st.r then seqRaise .domain x else { x with phase := .d1 }
  | .d1 =>
    if x.st.a = 0#64 ∨ x.st.c = 0#64 ∨ x.st.r = 0#64 then seqDelta { res := 0#64, zsc := true, clamp := false } x
    else { x with phase := .d2 }
  | .d2 => { x with num2 := wmul x.st.a x.st.c, phase := .d3 }
  | .d3 =>
    let sn := snum x.num2.hi x.num2.lo x.st.r x.st.a
    if sn.sat then seqDelta { res := x.st.a, zsc := false, clamp := true } x
    else { x with num3 := sn.t, phase := .d4 }
  | .d4 =>
    if x.st.p = 0#64 then seqRaise .div0 x
    else { x with den := wmul x.st.p Config.bpsDenom, phase := .d5 }
  | .d5 => { x with k := x.st.a, phase := .b0 }
  | .b0 =>
    if x.den.hi = 0#64 ∧ x.den.lo = 0#64 then seqRaise .div0 x
    else if x.k ≤ 0#64 then seqQuotient x.k true x
    else { x with div := ⟨0#64, 0#64, 0#64⟩, limb := 2, bit := 63, phase := .b1 }
  | .b1 => seqBit x

/-- `n` phases. -/
def seqRun : Nat → Seq → Seq
  | 0, x => x
  | n + 1, x => seqRun n (seqStep x)

end Sys2Proof.Machine
end

