-- ==== Sys2Proof/Safety.lean ====
section
/-! DEFINITION. What the claims call a good state: the form of the status and fault registers, and what an instance built
to the spec never shows. -/

namespace Sys2Proof.Safety

open Sys2Proof.Machine

/-- The source's formula in exact arithmetic, `min(a, floor(a·c·r / (p·10000)))` (00_scope.md R3, 43_delta.md R128). -/
def exactStake (a c p r : Nat) : Nat := min a (a * c * r / (p * 10000))

/-- A vector inside the compared domain: `r ≤ 10000` and `p ≠ 0` (44_oracle_harness.md R145, R147). -/
def InDomain (v : Vec) : Prop := v.r ≤ Config.rateMax ∧ v.p ≠ 0#64

/-- STATUS has no bit but its five fields (10_state.md R26), and CAUSE none but a code of 60_exceptions.md R170. -/
def ReservedReadZero (s : State) : Prop := s.status.toNat < 32 ∧ s.cause.toNat ≤ 5

/-- The fault record is all there or all absent (10_state.md R27, R28; 60_exceptions.md R175, R179). -/
def RecordWhole (s : State) : Prop := (s.flag .fault = false → s.cause = 0#64 ∧ s.finfo = 0#64) ∧
  (s.flag .fault = true → s.cause ≠ 0#64)

/-- FINFO holds what its cause says (60_exceptions.md R170): an ACCESS fault a write bit and an index, every other cause
the word of a command that can raise it. -/
def InfoFits (s : State) : Prop :=
  (s.cause = Cause.div0.code → s.finfo ∈ [cwBdiv, cwDelta, cwRef, cwHchk]) ∧
  (s.cause = Cause.domain.code → s.finfo ∈ [cwSnum, cwDelta, cwRef, cwHchk]) ∧
  (s.cause = Cause.illegalCmd.code →
    isLegalCommandWord s.finfo = false ∨ (isHarnessOp (cwOp s.finfo) = true ∧ s.build.harness = false)) ∧
  (s.cause = Cause.access.code → s.finfo.toNat < 128) ∧
  (s.cause = Cause.mismatch.code → cwOp s.finfo = 0x11#8 ∨ cwOp s.finfo = 0x12#8)

/-- An instance without the harness has no harness registers (10_state.md R31); the fields that stand for them keep
their reset value. -/
def HarnessAbsent (s : State) : Prop :=
  s.build.harness = false →
    s.refres = 0#64 ∧ s.hcnt = 0#64 ∧ s.ha = 0#64 ∧ s.hc = 0#64 ∧ s.hp = 0#64 ∧ s.hr = 0#64 ∧ s.hdut = 0#64 ∧
      s.href = 0#64

/-- No mismatch was ever recorded or captured (44_oracle_harness.md R154). -/
def NoMismatch (s : State) : Prop :=
  s.cause ≠ Cause.mismatch.code ∧ s.ha = 0#64 ∧ s.hc = 0#64 ∧ s.hp = 0#64 ∧ s.hr = 0#64 ∧ s.hdut = 0#64 ∧
    s.href = 0#64

/-- The form of the fault and status registers and of the absent harness, which every step keeps in an instance whose
`SMALL_N` is in the range of 00_scope.md R8. -/
def RecordForm (s : State) : Prop :=
  s.build.wf ∧ ReservedReadZero s ∧ RecordWhole s ∧ InfoFits s ∧ HarnessAbsent s

/-- No fault is recorded: commands execute (60_exceptions.md R178, R192). -/
def Executing (s : State) : Prop := s.flag .fault = false

/-- The state a fault of this code leaves when none is recorded (60_exceptions.md R175). -/
def faulted (code info : Word) (s : State) : State :=
  { s.setFlag .fault true with cause := code, finfo := info }

/-- R76's list of illegal words, its last clause for an instance without the harness. -/
def IllegalIn (harness : Bool) (cw : Word) : Prop :=
  cwOp cw ∉ [0x00#8, 0x01#8, 0x02#8, 0x03#8, 0x04#8, 0x0F#8, 0x10#8, 0x11#8, 0x12#8, 0x13#8] ∨
  cwZero cw ≠ 0#16 ∨
  ((cwCls cw ≠ 0#8 ∨ cwN cw ≠ 0#32) ∧ cwOp cw ≠ 0x12#8) ∨
  (cwOp cw = 0x12#8 ∧ 3#8 < cwCls cw) ∨
  (cwOp cw = 0x12#8 ∧ cwCls cw ≠ 2#8 ∧ cwN cw ≠ 0#32) ∨
  (harness = false ∧ cwOp cw ∈ [0x10#8, 0x11#8, 0x12#8, 0x13#8])

/-- The access of an index, range by range (20_memory.md R59). -/
def accessAt (harness : Bool) (idx : Index) : Option Access :=
  let i := idx.toNat
  if i ≤ 0x04 ∨ (0x08 ≤ i ∧ i ≤ 0x15) then some .readWrite
  else if (0x18 ≤ i ∧ i ≤ 0x1A) ∨ i = 0x1C then some .readOnly
  else if i = 0x1B then some .writeOnly
  else if 0x20 ≤ i ∧ i ≤ 0x27 ∧ harness = true then some .readOnly
  else none

/-- The fault, code and information word, that a well-formed instruction raises when none is recorded: the tests in the
order of 60_exceptions.md R177; `none` where it raises none (R170 to R174). -/
def expectedFault (i : Instr) (s : State) : Option (Word × Word) :=
  match i with
  | .nop | .wmul | .clrf => none
  | .snum => if 2 ^ 14 ≤ s.s.toNat then some (2#64, 0x02#64) else none
  | .bdiv => if s.dh = 0#64 ∧ s.dl = 0#64 then some (1#64, 0x03#64) else none
  | .delta =>
    if 10000 < s.r.toNat then some (2#64, 0x04#64)
    else if s.a = 0#64 ∨ s.c = 0#64 ∨ s.r = 0#64 then none
    else if s.p = 0#64 then some (1#64, 0x04#64) else none
  | .ref =>
    if s.build.harness = false then some (3#64, 0x10#64)
    else if 10000 < s.r.toNat then some (2#64, 0x10#64)
    else if s.p = 0#64 then some (1#64, 0x10#64) else none
  | .hchk =>
    if s.build.harness = false then some (3#64, 0x11#64)
    else if 10000 < s.r.toNat then some (2#64, 0x11#64)
    else if s.p = 0#64 then some (1#64, 0x11#64) else none
  | .hrunSmall => if s.build.harness = false then some (3#64, 0x0012#64) else none
  | .hrunBoundary => if s.build.harness = false then some (3#64, 0x0112#64) else none
  | .hrunRandom n => if s.build.harness = false then some (3#64, cwHrunRandom n) else none
  | .hrunSatedge => if s.build.harness = false then some (3#64, 0x0312#64) else none
  | .hclr => if s.build.harness = false then some (3#64, 0x13#64) else none
  | .rd idx =>
    match accessAt s.build.harness idx with
    | some .readWrite => none
    | some .readOnly => none
    | some .writeOnly => some (4#64, BitVec.ofNat 64 idx.toNat)
    | none => some (4#64, BitVec.ofNat 64 idx.toNat)
  | .wr idx v =>
    match accessAt s.build.harness idx with
    | some .readWrite => none
    | some .writeOnly => some (3#64, v)
    | some .readOnly => some (4#64, BitVec.ofNat 64 (64 + idx.toNat))
    | none => some (4#64, BitVec.ofNat 64 (64 + idx.toNat))

/-- The registers an instruction's rule lists under "writes" (10_state.md R36), STATUS and the fault record apart. -/
def mayWrite : Instr → List Reg
  | .nop => []
  | .wmul => [.mh, .ml]
  | .snum => [.t2, .t1, .t0]
  | .bdiv => [.q]
  | .delta => [.result]
  | .clrf => []
  | .ref => [.refres]
  | .hchk => [.result, .refres, .hcnt, .ha, .hc, .hp, .hr, .hdut, .href]
  | .hrunSmall | .hrunBoundary | .hrunRandom _ | .hrunSatedge =>
    [.a, .c, .p, .r, .result, .refres, .hcnt, .ha, .hc, .hp, .hr, .hdut, .href]
  | .hclr => [.hcnt, .ha, .hc, .hp, .hr, .hdut, .href]
  | .rd _ => []
  | .wr idx _ => [.a, .c, .p, .r, .result, .ma, .mb, .mh, .ml, .nh, .nl, .s, .k, .t2, .t1, .t0, .dh, .dl, .q].filter
      (fun g => g.index == idx)

/-- Which instruction writes which flag other than FAULT (10_state.md R34). -/
def mayWriteFlag (f : Flag) : Instr → Bool
  | .snum => f == .sat
  | .bdiv => f == .cap
  | .delta | .hchk | .hrunSmall | .hrunBoundary | .hrunRandom _ | .hrunSatedge => f == .zsc || f == .clamp
  | .nop | .wmul | .clrf | .ref | .hclr | .rd _ | .wr _ _ => false

/-- The formula's value on a vector, as a word. -/
def vecResult (v : Vec) : Word := BitVec.ofNat 64 (exactStake v.a.toNat v.c.toNat v.p.toNat v.r.toNat)

/-- Whether a vector takes the zero short-circuit (43_delta.md R132). -/
def vecZsc (v : Vec) : Bool := decide (v.a = 0#64 ∨ v.c = 0#64 ∨ v.r = 0#64)

/-- Whether a vector saturates: not short-circuited, and `a·c·r ≥ a·p·10000` (43_delta.md R131). -/
def vecClamp (v : Vec) : Bool :=
  !vecZsc v && decide (v.a.toNat * v.p.toNat * 10000 ≤ v.a.toNat * v.c.toNat * v.r.toNat)

/-- A count that saturates at `M64` (44_oracle_harness.md R145 line 8, R147). -/
def satAdd (n : Word) (m : Nat) : Word := BitVec.ofNat 64 (min (n.toNat + m) (2 ^ 64 - 1))

/-- What a run of HRUN over `count` vectors, the last of them `v`, leaves when none mismatches (44_oracle_harness.md R145,
R147): the last vector and its results and flags, the count, and `draws` words taken from the stream. -/
def afterRun (v : Vec) (count draws : Nat) (s : State) : State :=
  ({ s with a := v.a, c := v.c, p := v.p, r := v.r, result := vecResult v, refres := vecResult v,
            hcnt := satAdd s.hcnt count, drawn := s.drawn + draws }.setFlag .zsc (vecZsc v)).setFlag .clamp (vecClamp v)

/-- Instructions one after another; `none` if the machine stops, which it never does. -/
def runInstrs : List Instr → State → Option State
  | [], s => some s
  | i :: is, s =>
    match exec i s with
    | .next t => runInstrs is t
    | .fault _ => none
    | .refused _ => none

/-- `N_j`, the number the `j` most significant bits of the 192-bit numerator make (42_bdiv.md R111). -/
def topBits (t2 t1 t0 : Word) (j : Nat) : Nat := val3 t2 t1 t0 / 2 ^ (192 - j)

/-- Strict lexicographic order, the first list outermost. -/
def lexLt : List Nat → List Nat → Prop
  | x :: xs, y :: ys => x < y ∨ (x = y ∧ lexLt xs ys)
  | _, _ => False

/-- The order of R148 and R149: `a` outermost, `r` innermost. -/
def acprLt (u v : Vec) : Prop :=
  lexLt [u.a.toNat, u.c.toNat, u.p.toNat, u.r.toNat] [v.a.toNat, v.c.toNat, v.p.toNat, v.r.toNat]

/-- The order of R150: `a`, `p`, `r`, `c`. -/
def aprcLt (u v : Vec) : Prop :=
  lexLt [u.a.toNat, u.p.toNat, u.r.toNat, u.c.toNat] [v.a.toNat, v.p.toNat, v.r.toNat, v.c.toNat]

end Sys2Proof.Safety
end

