-- ==== Sys2Proof/Certificates/Slice0/Obligations.lean ====
section
/-! DEFINITION. The statements for the provers. The fields `pending`, `reply` and `drawn` that some of them name are the
model's own (log entries 4, 5 and 3); every statement holds for every value of them. -/

open Sys2Proof Sys2Proof.Machine Sys2Proof.Safety

/-! ## Encoding -/

/-- R70, R72, R75, R80: every well-formed instruction decodes from its own transaction word, and every transaction word
is the word of the well-formed instruction it decodes to, a read's ignored data apart. -/
def Obligations.DecodeEncodeAgree : Prop :=
  (∀ i : Instr, i.wf = true → decode (encode i) = i) ∧
  (∀ tw : TxWord, (decode tw).wf = true ∧ (txWe tw = true → encode (decode tw) = tw) ∧
    (txWe tw = false → encode (decode tw) = packTx false (txIdx tw) 0#64))

/-- R72: "Exactly one row or none matches (the matches are disjoint)". -/
def Obligations.OpcodeRowsDisjoint : Prop :=
  ∀ cw : Word, (opRows.filter (fun row => row.matches cw)).length ≤ 1

/-- R80: the packed transaction word of each script line, as a number. -/
def Obligations.ScriptLineWords : Prop :=
  (∀ (idx : Index) (v : Word), (packTx true idx v).toNat = 2 ^ 70 + idx.toNat * 2 ^ 64 + v.toNat) ∧
  (∀ idx : Index, (encode (.rd idx)).toNat = idx.toNat * 2 ^ 64) ∧
  (∀ (i : Instr) (cw : Nat), (i, cw) ∈ [(Instr.nop, 0x00), (.wmul, 0x01), (.snum, 0x02), (.bdiv, 0x03), (.delta, 0x04),
      (.clrf, 0x0F), (.ref, 0x10), (.hchk, 0x11), (.hrunSmall, 0x12), (.hrunBoundary, 0x112), (.hrunSatedge, 0x312),
      (.hclr, 0x13)] → (encode i).toNat = 2 ^ 70 + 0x1B * 2 ^ 64 + cw) ∧
  (∀ n : BitVec 32, (encode (.hrunRandom n)).toNat = 2 ^ 70 + 0x1B * 2 ^ 64 + (0x212 + n.toNat * 2 ^ 16))

/-- R76: a word of the list raises ILLEGAL_CMD and writes nothing but the record; every other word executes a command. -/
def Obligations.IllegalWordsFaultAndOthersRun : Prop :=
  ∀ (s : State) (cw : Word), Executing s →
    (IllegalIn s.build.harness cw → exec (.wr cmdIndex cw) s = .next (faulted 3#64 cw s)) ∧
    (¬ IllegalIn s.build.harness cw → ∃ i, decodeCommand cw = .ok i ∧ exec (.wr cmdIndex cw) s = exec i s)

/-- Six transaction words of 95_test_vectors.md table V7, and one of its program P3 whose command word is reserved, written
out, decode to what they stand for. That the last one decodes to the transaction `wr 0x1B 5` is the model's choice (log
entry 10). -/
def Obligations.ListedWordsDecode : Prop :=
  decode 0x5B0000000000000004#71 = .delta ∧ decode 0x5B000000000000000F#71 = .clrf ∧
  decode 0x5B0000000003E80212#71 = .hrunRandom 1000#32 ∧ decode 0x5B0000000000000312#71 = .hrunSatedge ∧
  decode 0x4300000000000001F4#71 = .wr 0x03#6 500#64 ∧ decode 0x270000000000000000#71 = .rd 0x27#6 ∧
  decode 0x5B0000000000000005#71 = .wr 0x1B#6 5#64

/-! ## The step -/

/-- R57, R206: a step takes the next transaction and runs the instruction it decodes to, to completion. The queue and the
reply are the model's (log entries 4 and 5). -/
def Obligations.StepRunsDecodedTransaction : Prop :=
  (∀ (s : State) (tw : TxWord) (rest : List Input), s.pending = .transaction tw :: rest →
    step s = exec (decode tw) { s with pending := rest, reply := .notDriven }) ∧
  (∀ (s : State) (nbits w : Nat),
    step (s.withFetchWord nbits w) = exec (decode (tableTx nbits w)) { s with reply := .notDriven }) ∧
  (∀ s : State, s.pending = [] → step s = .next s)

/-- R53: under the default binding an aligned 8-byte access inside the window is the transaction of its register, the byte
at offset `8·idx + j` being bits `8j + 7 : 8j` of what a read answers and of what a write writes, and every other access
leaves the block as it is. The queue, the reply and the choice of this binding are the model's (log entries 4, 5 and 8). -/
def Obligations.DefaultBusBinding : Prop :=
  (∀ (s : State) (rest : List Input) (idx : Index), s.pending = .bus (.read (8 * idx.toNat) 8) :: rest →
    ∃ (t : State) (w : Word) (bytes : List (BitVec 8)),
      exec (.rd idx) { s with pending := rest, reply := .notDriven } = .next t ∧ t.reply = .data w ∧
        bytes.length = 8 ∧ (∀ j, j < 8 → bytes[j]? = some (w.extractLsb' (8 * j) 8)) ∧
        step s = .next { t with reply := .bytes bytes }) ∧
  (∀ (s : State) (rest : List Input) (idx : Index) (bytes : List (BitVec 8)), bytes.length = 8 →
    s.pending = .bus (.write (8 * idx.toNat) bytes) :: rest →
    ∃ v : Word, (∀ j, j < 8 → bytes[j]? = some (v.extractLsb' (8 * j) 8)) ∧
      step s = exec (decode (packTx true idx v)) { s with pending := rest, reply := .notDriven }) ∧
  (∀ (s : State) (rest : List Input) (offset size : Nat), s.pending = .bus (.read offset size) :: rest →
    (size ≠ 8 ∨ offset % 8 ≠ 0 ∨ 504 < offset) → step s = .next { s with pending := rest, reply := .busError }) ∧
  (∀ (s : State) (rest : List Input) (offset : Nat) (bytes : List (BitVec 8)),
    s.pending = .bus (.write offset bytes) :: rest →
    (bytes.length ≠ 8 ∨ offset % 8 ≠ 0 ∨ 504 < offset) →
    step s = .next { s with pending := rest, reply := .busError })

/-- R166: a write to CMD always completes, whatever the command does, and is the command its data encodes; the data is
never stored: no register changes but those the command's rule lists, and for a word that encodes no command none,
STATUS, CAUSE and FINFO apart. The queue and the reply are the model's (log entries 4 and 5). -/
def Obligations.CommandWriteAlwaysCompletes : Prop :=
  ∀ (s : State) (cw : Word), ∃ t, exec (.wr cmdIndex cw) s = .next t ∧ t.reply = s.reply ∧ t.pending = s.pending ∧
    t.reg .cmd = 0#64 ∧
    (∀ i, decodeCommand cw = .ok i → exec i s = .next t ∧
      ∀ g : Reg, g ∉ mayWrite i → g ∉ [.status, .cause, .finfo] → t.reg g = s.reg g) ∧
    (∀ e, decodeCommand cw = .error e → ∀ g : Reg, g ∉ [.status, .cause, .finfo] → t.reg g = s.reg g)

/-! ## Commands -/

/-- R162. -/
def Obligations.NopRule : Prop :=
  decode (packCommand 0x00#64) = .nop ∧ ∀ s : State, exec .nop s = .next s

/-- R93, R91: `MH`:`ML` become the exact product of `MA` and `MB`, and nothing else changes. -/
def Obligations.WmulRule : Prop :=
  decode (packCommand 0x01#64) = .wmul ∧
  ∀ s : State, (¬ Executing s → exec .wmul s = .next s) ∧
    (Executing s → ∃ h l : Word, val2 h l = s.ma.toNat * s.mb.toNat ∧
      exec .wmul s = .next { s with mh := h, ml := l })

/-- R94: the laws of the wide product, which the spec derives from R91. -/
def Obligations.WmulLaws : Prop :=
  (∀ a b : Word, wmul a b = wmul b a) ∧ (∀ a : Word, wmul a 0#64 = ⟨0#64, 0#64⟩) ∧ (∀ a : Word, wmul a 1#64 = ⟨0#64, a⟩) ∧
  (∀ (a : Word) (k : Nat), 1 ≤ k → k ≤ 63 → wmul a (BitVec.ofNat 64 (2 ^ k)) = ⟨a >>> (64 - k), a <<< k⟩) ∧
  (∀ a b : Word, (wmul a b).hi.toNat ≤ 2 ^ 64 - 2) ∧
  (∀ a b : Word, (wmul a b).hi = 0#64 ↔ a.toNat * b.toNat < 2 ^ 64) ∧
  (∀ (a b : Word) (n : Nat), b.toNat < 2 ^ n → (wmul a b).hi.toNat < 2 ^ n)

/-- R104, R105: SNUM. -/
def Obligations.SnumRule : Prop :=
  decode (packCommand 0x02#64) = .snum ∧
  ∀ s : State, (¬ Executing s → exec .snum s = .next s) ∧
    (Executing s → 2 ^ 14 ≤ s.s.toNat → exec .snum s = .next (faulted 2#64 0x02#64 s)) ∧
    (Executing s → s.s.toNat < 2 ^ 14 →
      ∃ t2 t1 t0 : Word, val3 t2 t1 t0 = val2 s.nh s.nl * s.s.toNat ∧
        exec .snum s = .next ({ s with t2 := t2, t1 := t1, t0 := t0 }.setFlag .sat (decide (s.k ≤ t2))))

/-- R103: a saturation report is sound for every non-zero denominator; the spec derives it from R100. -/
def Obligations.SaturationReportSound : Prop :=
  ∀ s : State, Executing s → s.s.toNat < 2 ^ 14 →
    ∃ t, exec .snum s = .next t ∧
      (t.flag .sat = true → ∀ dh dl : Word, val2 dh dl ≠ 0 →
        s.k.toNat ≤ val3 t.t2 t.t1 t.t0 / val2 dh dl ∧
          min s.k.toNat (val3 t.t2 t.t1 t.t0 / val2 dh dl) = s.k.toNat)

/-- R106: SNUM's corner cases, at the unit's function; the spec derives them from R100 and R104. -/
def Obligations.SnumCornerCases : Prop :=
  (∀ nh nl k : Word, snum nh nl 0#64 k = { t := ⟨0#64, 0#64, 0#64⟩, sat := decide (k = 0#64) }) ∧
  (∀ nh nl sc : Word, (snum nh nl sc 0#64).sat = true) ∧
  (∀ nh nl sc k : Word, sc.toNat < 2 ^ 14 → 16383 < k.toNat → (snum nh nl sc k).sat = false) ∧
  (∀ nh nl sc k : Word, sc.toNat < 2 ^ 14 → (snum nh nl sc k).t.hi2.toNat < 2 ^ 14) ∧
  (∀ k : Word, (snum M64 M64 16383#64 k).t = ⟨0x3FFE#64, 0xFFFFFFFFFFFFFFFF#64, 0xFFFFFFFFFFFFC001#64⟩) ∧
  (snum M64 M64 16383#64 16382#64).sat = true ∧ (snum M64 M64 16383#64 16383#64).sat = false ∧
  wmul M64 3#64 = ⟨2#64, 0xFFFFFFFFFFFFFFFD#64⟩ ∧ wmul 3#64 3#64 = ⟨0#64, 9#64⟩ ∧
  wmul 0x5555555555555555#64 3#64 = ⟨0#64, M64⟩ ∧
  (∀ k : Word, (snum 3#64 M64 3#64 k).t = ⟨0#64, 11#64, 0xFFFFFFFFFFFFFFFD#64⟩) ∧
  (∀ k : Word, (snum 0x5555555555555555#64 M64 3#64 k).t = ⟨1#64, 1#64, 0xFFFFFFFFFFFFFFFD#64⟩) ∧
  (∀ a c r : Word, a ≠ 0#64 → r.toNat ≤ 10000 → (snum (wmul a c).hi (wmul a c).lo r a).sat = false)

/-- R118, R117: BDIV, its quotient and CAP by the closed form of R112. -/
def Obligations.BdivRule : Prop :=
  decode (packCommand 0x03#64) = .bdiv ∧
  ∀ s : State, (¬ Executing s → exec .bdiv s = .next s) ∧
    (Executing s → s.dh = 0#64 → s.dl = 0#64 → exec .bdiv s = .next (faulted 1#64 0x03#64 s)) ∧
    (Executing s → val2 s.dh s.dl ≠ 0 →
      exec .bdiv s = .next
        ({ s with q := BitVec.ofNat 64 (min s.k.toNat (val3 s.t2 s.t1 s.t0 / val2 s.dh s.dl)) }.setFlag .cap
          (decide (s.k.toNat ≤ val3 s.t2 s.t1 s.t0 / val2 s.dh s.dl))))

/-- R129, R130: the sizes of DELTA's intermediates, and that SNUM's early-saturation test never fires inside it; the spec
derives both from R125. -/
def Obligations.DeltaIntermediatesFit : Prop :=
  (∀ p : Word, val2 (wmul p Config.bpsDenom).hi (wmul p Config.bpsDenom).lo = 0 ↔ p = 0#64) ∧
  ∀ a c p r : Word, 1 ≤ r.toNat → r.toNat ≤ 10000 → 1 ≤ p.toNat →
    let n := wmul a c
    let sn := snum n.hi n.lo r a
    let d := wmul p Config.bpsDenom
    val2 n.hi n.lo = a.toNat * c.toNat ∧
      val3 sn.t.hi2 sn.t.hi1 sn.t.lo = a.toNat * c.toNat * r.toNat ∧ a.toNat * c.toNat * r.toNat < 2 ^ 142 ∧
      sn.t.hi2.toNat < 2 ^ 14 ∧ val2 d.hi d.lo = p.toNat * 10000 ∧ d.hi.toNat < 2 ^ 14 ∧ val2 d.hi d.lo ≠ 0 ∧
      (1 ≤ a.toNat → sn.sat = false ∧ sn.t.hi2.toNat < a.toNat)

/-- R126, R132, R133, R134: DELTA, every path, its result and CLAMP by the closed forms of R128 and R131, which the spec
derives from R125. -/
def Obligations.DeltaRule : Prop :=
  decode (packCommand 0x04#64) = .delta ∧
  ∀ s : State, (¬ Executing s → exec .delta s = .next s) ∧
    (Executing s → 10000 < s.r.toNat → exec .delta s = .next (faulted 2#64 0x04#64 s)) ∧
    (Executing s → s.r.toNat ≤ 10000 → (s.a = 0#64 ∨ s.c = 0#64 ∨ s.r = 0#64) →
      exec .delta s = .next (({ s with result := 0#64 }.setFlag .zsc true).setFlag .clamp false)) ∧
    (Executing s → s.r.toNat ≤ 10000 → s.a ≠ 0#64 → s.c ≠ 0#64 → s.r ≠ 0#64 → s.p = 0#64 →
      exec .delta s = .next (faulted 1#64 0x04#64 s)) ∧
    (Executing s → s.r.toNat ≤ 10000 → s.a ≠ 0#64 → s.c ≠ 0#64 → s.r ≠ 0#64 → s.p ≠ 0#64 →
      exec .delta s = .next
        (({ s with result := BitVec.ofNat 64 (exactStake s.a.toNat s.c.toNat s.p.toNat s.r.toNat) }.setFlag .zsc
          false).setFlag .clamp (decide (s.a.toNat * s.p.toNat * 10000 ≤ s.a.toNat * s.c.toNat * s.r.toNat))))

/-- R3, R128: the public contract; the spec derives R128 from R125. -/
def Obligations.DeltaMeetsContract : Prop :=
  ∀ s : State, Executing s → s.p ≠ 0#64 → s.r.toNat ≤ 10000 →
    ∃ t, exec .delta s = .next t ∧ Executing t ∧
      t.result.toNat = min s.a.toNat (s.a.toNat * s.c.toNat * s.r.toNat / (s.p.toNat * 10000))

/-- R131: CLAMP says saturation, equality included, and never the zero short-circuit; the spec derives it from R125 and
R112. -/
def Obligations.ClampSaysSaturation : Prop :=
  ∀ s : State, Executing s → s.r.toNat ≤ 10000 →
    (s.a ≠ 0#64 → s.c ≠ 0#64 → s.r ≠ 0#64 → s.p ≠ 0#64 →
      ∃ t, exec .delta s = .next t ∧
        (t.flag .clamp = true ↔ s.a.toNat * s.p.toNat * 10000 ≤ s.a.toNat * s.c.toNat * s.r.toNat) ∧
        (t.flag .clamp = true ↔ s.p.toNat * 10000 ≤ s.c.toNat * s.r.toNat) ∧
        (t.flag .clamp = true ↔ s.a.toNat ≤ s.a.toNat * s.c.toNat * s.r.toNat / (s.p.toNat * 10000)) ∧
        (t.flag .clamp = true → t.result = s.a) ∧ (t.flag .clamp = false → t.result < s.a)) ∧
    ((s.a = 0#64 ∨ s.c = 0#64 ∨ s.r = 0#64) → ∃ t, exec .delta s = .next t ∧ t.flag .clamp = false)

/-- R135, R37: bounded by `A` whenever DELTA does not fault, monotone in `C` and in `R`, and determined by the four inputs;
the spec derives R135 from R128. -/
def Obligations.DeltaBoundedMonotoneDetermined : Prop :=
  (∀ s : State, Executing s → ∃ t, exec .delta s = .next t ∧ (Executing t → t.result ≤ s.a)) ∧
  (∀ s s' : State, Executing s → Executing s' → s.p ≠ 0#64 → s'.a = s.a → s'.p = s.p → s'.r.toNat ≤ 10000 →
    s.c ≤ s'.c → s.r ≤ s'.r →
    ∃ t t', exec .delta s = .next t ∧ exec .delta s' = .next t' ∧ Executing t ∧ Executing t' ∧ t.result ≤ t'.result) ∧
  (∀ s s' : State, Executing s → Executing s' → s'.a = s.a → s'.c = s.c → s'.p = s.p → s'.r = s.r →
    ∃ t t', exec .delta s = .next t ∧ exec .delta s' = .next t' ∧ t'.flag .fault = t.flag .fault ∧
      (Executing t → t'.result = t.result ∧ t'.flag .zsc = t.flag .zsc ∧ t'.flag .clamp = t.flag .clamp) ∧
      (¬ Executing t → t'.cause = t.cause ∧ t'.finfo = t.finfo))

/-- R163: CLRF, the return from a fault, and the only command that executes while a fault is recorded. -/
def Obligations.ClrfRule : Prop :=
  decode (packCommand 0x0F#64) = .clrf ∧
  ∀ s : State, exec .clrf s = .next { s.setFlag .fault false with cause := 0#64, finfo := 0#64 } ∧
    (Executing s → RecordWhole s → exec .clrf s = .next s) ∧
    (¬ Executing s → exec (.wr cmdIndex 0x0F#64) s = exec .clrf s ∧
      ∀ cw : Word, cw ≠ 0x0F#64 → exec (.wr cmdIndex cw) s = .next s)

/-- R142, R140: REF. -/
def Obligations.RefRule : Prop :=
  decode (packCommand 0x10#64) = .ref ∧
  ∀ s : State, (¬ Executing s → exec .ref s = .next s) ∧
    (Executing s → s.build.harness = false → exec .ref s = .next (faulted 3#64 0x10#64 s)) ∧
    (Executing s → s.build.harness = true → 10000 < s.r.toNat → exec .ref s = .next (faulted 2#64 0x10#64 s)) ∧
    (Executing s → s.build.harness = true → s.r.toNat ≤ 10000 → s.p = 0#64 →
      exec .ref s = .next (faulted 1#64 0x10#64 s)) ∧
    (Executing s → s.build.harness = true → s.r.toNat ≤ 10000 → s.p ≠ 0#64 →
      exec .ref s = .next
        { s with refres := BitVec.ofNat 64 (min s.a.toNat (s.a.toNat * s.c.toNat * s.r.toNat / (s.p.toNat * 10000))) })

/-- R143: DELTA and the oracle agree for every `p > 0`, and differ on purpose at `p = 0`, where the harness never
compares them; the spec derives it from R140 and R125. -/
def Obligations.OracleAgreesOffZeroDivisor : Prop :=
  ∀ s : State, Executing s → s.build.harness = true → s.r.toNat ≤ 10000 →
    ∃ t u, exec .delta s = .next t ∧ exec .ref s = .next u ∧
      (s.p ≠ 0#64 → Executing t ∧ Executing u ∧ t.result = u.refres) ∧
      (s.p = 0#64 → ¬ Executing u ∧ u.cause = 1#64 ∧
        (Executing t ↔ (s.a = 0#64 ∨ s.c = 0#64 ∨ s.r = 0#64)) ∧ (Executing t → t.result = 0#64) ∧
        exec .hchk s = .next (faulted 1#64 0x11#64 s))

/-- R145, R154: HCHK, whose assertion passes on every vector it compares. -/
def Obligations.HchkRule : Prop :=
  decode (packCommand 0x11#64) = .hchk ∧
  ∀ s : State, (¬ Executing s → exec .hchk s = .next s) ∧
    (Executing s → s.build.harness = false → exec .hchk s = .next (faulted 3#64 0x11#64 s)) ∧
    (Executing s → s.build.harness = true → 10000 < s.r.toNat → exec .hchk s = .next (faulted 2#64 0x11#64 s)) ∧
    (Executing s → s.build.harness = true → s.r.toNat ≤ 10000 → s.p = 0#64 →
      exec .hchk s = .next (faulted 1#64 0x11#64 s)) ∧
    (Executing s → s.build.harness = true → s.r.toNat ≤ 10000 → s.p ≠ 0#64 →
      exec .hchk s = .next (afterRun { a := s.a, c := s.c, p := s.p, r := s.r } 1 0 s))

/-- R145 lines 5 to 11, R182: on unequal results the vector and both results are captured and MISMATCH is raised after
the writes; on equal ones the count goes up. This is the comparison on its own, for any two results. -/
def Obligations.MismatchIsCaptured : Prop :=
  ∀ (s : State) (cw v : Word) (out : DeltaOut), Executing s →
    (out.res ≠ v → hcompare cw out v s = .error (faulted 5#64 cw
      (({ s with result := out.res, refres := v, ha := s.a, hc := s.c, hp := s.p, hr := s.r, hdut := out.res,
                 href := v }.setFlag .zsc out.zsc).setFlag .clamp out.clamp))) ∧
    (out.res = v → hcompare cw out v s = .ok
      (({ s with result := out.res, refres := v, hcnt := satAdd s.hcnt 1 }.setFlag .zsc out.zsc).setFlag .clamp
        out.clamp))

/-- R146: the captures keep the first mismatch while its fault is recorded, and CLRF leaves them for the next one; the
spec derives it from R145 and R178. -/
def Obligations.FirstMismatchIsKept : Prop :=
  ∀ (s : State) (cw v : Word) (out : DeltaOut), Executing s → out.res ≠ v →
    ∃ t, hcompare cw out v s = .error t ∧
      (t.ha = s.a ∧ t.hc = s.c ∧ t.hp = s.p ∧ t.hr = s.r ∧ t.hdut = out.res ∧ t.href = v) ∧
      (∀ (i : Instr) (n : BitVec 32), i ∈ [.hchk, .hrunSmall, .hrunBoundary, .hrunRandom n, .hrunSatedge] →
        exec i t = .next t) ∧
      ∃ u, exec .clrf t = .next u ∧ Executing u ∧
        (∀ g : Reg, g ∈ [.ha, .hc, .hp, .hr, .hdut, .href] → u.reg g = t.reg g) ∧
        (∀ (cw' v' : Word) (out' : DeltaOut), out'.res ≠ v' →
          ∃ w, hcompare cw' out' v' u = .error w ∧ w.ha = u.a ∧ w.hc = u.c ∧ w.hp = u.p ∧ w.hr = u.r ∧
            w.hdut = out'.res ∧ w.href = v')

/-- R147, R148: HRUN.SMALL runs the whole class without a mismatch. -/
def Obligations.HrunSmallRule : Prop :=
  decode (packCommand 0x12#64) = .hrunSmall ∧
  ∀ s : State, Executing s → s.build.harness = true → s.build.wf →
    exec .hrunSmall s = .next (afterRun
      { a := BitVec.ofNat 64 s.build.smallN, c := BitVec.ofNat 64 s.build.smallN, p := BitVec.ofNat 64 s.build.smallN,
        r := 10000#64 }
      ((s.build.smallN + 1) ^ 2 * s.build.smallN * (2 * (s.build.smallN + 1))) 0 s)

/-- R147, R149: HRUN.BOUNDARY runs its 6050 vectors without a mismatch. -/
def Obligations.HrunBoundaryRule : Prop :=
  decode (packCommand 0x112#64) = .hrunBoundary ∧
  ∀ s : State, Executing s → s.build.harness = true →
    exec .hrunBoundary s = .next (afterRun { a := M64, c := M64, p := M64, r := 10000#64 } 6050 0 s)

/-- R147, R150: HRUN.SATEDGE runs its 630 vectors without a mismatch. -/
def Obligations.HrunSatedgeRule : Prop :=
  decode (packCommand 0x312#64) = .hrunSatedge ∧
  ∀ s : State, Executing s → s.build.harness = true →
    exec .hrunSatedge s = .next
      (afterRun { a := M64, c := BitVec.ofNat 64 (2 ^ 50 + 1), p := BitVec.ofNat 64 (2 ^ 50), r := 10000#64 } 630 0 s)

/-- R147, R151: HRUN.RANDOM n, for every stream of draws (log entry 3); with `n = 0` it writes nothing. -/
def Obligations.HrunRandomRule : Prop :=
  ∀ (n : BitVec 32) (s : State), decode (packCommand (BitVec.ofNat 64 (0x212 + n.toNat * 2 ^ 16))) = .hrunRandom n ∧
    (Executing s → s.build.harness = true →
      (n = 0#32 → exec (.hrunRandom n) s = .next s) ∧
      (n ≠ 0#32 → exec (.hrunRandom n) s = .next (afterRun
        { a := Config.rnd (s.drawn + 4 * n.toNat - 4), c := Config.rnd (s.drawn + 4 * n.toNat - 3),
          p := if Config.rnd (s.drawn + 4 * n.toNat - 2) = 0#64 then 1#64
            else Config.rnd (s.drawn + 4 * n.toNat - 2),
          r := BitVec.ofNat 64 ((Config.rnd (s.drawn + 4 * n.toNat - 1)).toNat % 10001) }
        n.toNat (4 * n.toNat) s)))

/-- R147: the four HRUN commands are refused under a fault and illegal without the harness. -/
def Obligations.HrunGate : Prop :=
  ∀ (s : State) (n : BitVec 32) (i : Instr) (cw : Word),
    (i, cw) ∈ [(Instr.hrunSmall, 0x12#64), (Instr.hrunBoundary, 0x112#64), (Instr.hrunSatedge, 0x312#64),
      (Instr.hrunRandom n, BitVec.ofNat 64 (0x212 + n.toNat * 2 ^ 16))] →
    (¬ Executing s → exec i s = .next s) ∧
    (Executing s → s.build.harness = false → exec i s = .next (faulted 3#64 cw s))

/-- R152: the four classes are independent commands; in whatever order they run, HCNT grows by the four lengths. That none
mismatches is R154, which the spec derives from R128 and R140. -/
def Obligations.HarnessIsComplete : Prop :=
  ∀ (s : State) (n : BitVec 32) (l : List Instr), Executing s → s.build.harness = true → s.build.smallN = 8 →
    l.Perm [.hrunSmall, .hrunBoundary, .hrunRandom n, .hrunSatedge] →
    ∃ t, runInstrs l s = some t ∧ Executing t ∧ t.hcnt = satAdd s.hcnt (11664 + 6050 + 630 + n.toNat)

/-- R148: the members, the order and the length of SMALL. -/
def Obligations.SmallClassIsExhaustive : Prop :=
  ∀ n : Nat, 1 ≤ n → n ≤ 4999 →
    (∀ v : Vec, v ∈ smallVectors n ↔ v.a.toNat ≤ n ∧ v.c.toNat ≤ n ∧ 1 ≤ v.p.toNat ∧ v.p.toNat ≤ n ∧
      (v.r.toNat ≤ n ∨ (10000 - n ≤ v.r.toNat ∧ v.r.toNat ≤ 10000))) ∧
    List.Pairwise acprLt (smallVectors n) ∧
    (smallVectors n).length = (n + 1) ^ 2 * n * (2 * (n + 1))

/-- R149: the members, the order and the length of BOUNDARY. -/
def Obligations.BoundaryClassIsExhaustive : Prop :=
  (∀ v : Vec, v ∈ boundaryVectors ↔
    v.a.toNat ∈ [0, 1, 2, 2 ^ 32 - 1, 2 ^ 32, 2 ^ 32 + 1, 2 ^ 63 - 1, 2 ^ 63, 2 ^ 63 + 1, 2 ^ 64 - 2, 2 ^ 64 - 1] ∧
    v.c.toNat ∈ [0, 1, 2, 2 ^ 32 - 1, 2 ^ 32, 2 ^ 32 + 1, 2 ^ 63 - 1, 2 ^ 63, 2 ^ 63 + 1, 2 ^ 64 - 2, 2 ^ 64 - 1] ∧
    v.p.toNat ∈ [1, 2, 2 ^ 32 - 1, 2 ^ 32, 2 ^ 32 + 1, 2 ^ 63 - 1, 2 ^ 63, 2 ^ 63 + 1, 2 ^ 64 - 2, 2 ^ 64 - 1] ∧
    v.r.toNat ∈ [0, 1, 2, 9999, 10000]) ∧
  List.Pairwise acprLt boundaryVectors ∧ boundaryVectors.length = 6050

/-- R150: SATEDGE stands on the exact saturation boundary: for each `a`, `p`, `r` the least saturating `c` and its two
neighbours, in order, and where the exact quotient `num / (p · 10000)` stands against `a` at each. -/
def Obligations.SatedgeClassIsTheBoundary : Prop :=
  (∀ p r : Nat, 1 ≤ r → IsLeast (fun c => p * 10000 ≤ c * r) (satEdgeC p r)) ∧
  (∀ v : Vec, v ∈ satEdgeVectors ↔
    ∃ a ∈ [1, 2, 7, 10 ^ 6, 2 ^ 32, 2 ^ 63, 2 ^ 64 - 1], ∃ p ∈ [1, 2, 5, 2 * 10 ^ 6, 2 ^ 32, 2 ^ 50],
      ∃ r ∈ [1, 3, 500, 9999, 10000], v.a.toNat = a ∧ v.p.toNat = p ∧ v.r.toNat = r ∧
        (v.c.toNat + 1 = satEdgeC p r ∨ v.c.toNat = satEdgeC p r ∨ v.c.toNat = satEdgeC p r + 1)) ∧
  List.Pairwise aprcLt satEdgeVectors ∧ satEdgeVectors.length = 630 ∧
  (∀ v ∈ satEdgeVectors,
    let edge := satEdgeC v.p.toNat v.r.toNat
    let num := v.a.toNat * v.c.toNat * v.r.toNat
    let sat := v.a.toNat * (v.p.toNat * 10000)
    (v.c.toNat + 1 = edge → num < sat ∧ vecClamp v = false ∧ (v.c = 0#64 → vecZsc v = true)) ∧
      (v.c.toNat = edge → sat ≤ num ∧ vecClamp v = true ∧ (num = sat ↔ v.r.toNat ∣ v.p.toNat * 10000)) ∧
      (v.c.toNat = edge + 1 → sat < num ∧ vecClamp v = true))

/-- R153: HCLR. -/
def Obligations.HclrRule : Prop :=
  decode (packCommand 0x13#64) = .hclr ∧
  ∀ s : State, (¬ Executing s → exec .hclr s = .next s) ∧
    (Executing s → s.build.harness = false → exec .hclr s = .next (faulted 3#64 0x13#64 s)) ∧
    (Executing s → s.build.harness = true →
      exec .hclr s = .next
        { s with hcnt := 0#64, ha := 0#64, hc := 0#64, hp := 0#64, hr := 0#64, hdut := 0#64, href := 0#64 })

/-! ## Transactions -/

/-- R59: the address map. -/
def Obligations.AddressMap : Prop :=
  (∀ (harness : Bool) (idx : Index), (Reg.ofIndex harness idx).map Reg.access = accessAt harness idx) ∧
  (∀ g : Reg, Reg.ofIndex true g.index = some g) ∧
  (∀ (idx : Index) (g : Reg), Reg.ofIndex false idx = some g → Reg.ofIndex true idx = some g)

/-- R160: RD, allowed and forbidden. -/
def Obligations.RdRule : Prop :=
  ∀ (s : State) (idx : Index),
    (∀ g : Reg, Reg.ofIndex s.build.harness idx = some g → g ≠ .cmd →
      exec (.rd idx) s = .next { s with reply := .data (s.reg g) }) ∧
    ((accessAt s.build.harness idx = none ∨ idx = cmdIndex) →
      (Executing s → exec (.rd idx) s =
        .next { faulted 4#64 (BitVec.ofNat 64 idx.toNat) s with reply := .data 0#64 }) ∧
      (¬ Executing s → exec (.rd idx) s = .next { s with reply := .data 0#64 }))

/-- R161: WR: a data register, whatever STATUS.FAULT is; a forbidden index; a command. -/
def Obligations.WrRule : Prop :=
  ∀ (s : State) (idx : Index) (v : Word),
    (∀ g : Reg, Reg.ofIndex s.build.harness idx = some g → g.access = .readWrite →
      ∃ t, exec (.wr idx v) s = .next t ∧ t.reg g = v ∧ (∀ f : Reg, f ≠ g → t.reg f = s.reg f) ∧
        t.build = s.build ∧ t.drawn = s.drawn ∧ t.pending = s.pending ∧ t.reply = s.reply) ∧
    ((accessAt s.build.harness idx = none ∨ accessAt s.build.harness idx = some .readOnly) →
      (Executing s → exec (.wr idx v) s = .next (faulted 4#64 (BitVec.ofNat 64 (64 + idx.toNat)) s)) ∧
      (¬ Executing s → exec (.wr idx v) s = .next s)) ∧
    (∀ i, decodeCommand v = .ok i → exec (.wr cmdIndex v) s = exec i s) ∧
    (∀ e, decodeCommand v = .error e →
      (Executing s → exec (.wr cmdIndex v) s = .next (faulted 3#64 v s)) ∧
      (¬ Executing s → exec (.wr cmdIndex v) s = .next s))

/-- R57, R25: a read returns the latest write to the register, and a read changes no register. -/
def Obligations.ReadReturnsLatestWrite : Prop :=
  ∀ (s : State) (g : Reg) (v : Word), g.access = .readWrite →
    ∃ t u, exec (.wr g.index v) s = .next t ∧ exec (.rd g.index) t = .next u ∧ u.reply = .data v ∧
      (∀ f : Reg, u.reg f = t.reg f) ∧ (∀ f : Reg, f ≠ g → u.reg f = s.reg f)

/-- R81: what the pseudo-instructions of a host's script do to the block. An `EXPECT` at any index leaves what its read
leaves, whether it passes or fails, and the script goes on: put a plain read in its place and the block ends the same.
The queue and the reply are the model's (log entries 4 and 5). -/
def Obligations.PseudoInstructionsExpand : Prop :=
  ∀ s : State,
    (∀ a c p r : Word, (ScriptLine.ldv a c p r).run s =
      some { block := { s with a := a, c := c, p := p, r := r, reply := .notDriven }, passed := true }) ∧
    (∀ (dst src : Index) (g f : Reg), Reg.ofIndex s.build.harness dst = some g → g.access = .readWrite →
      Reg.ofIndex s.build.harness src = some f → f ≠ .cmd →
      (ScriptLine.mov dst src).run s =
        some { block := { s.writeReg g (s.reg f) with reply := .notDriven }, passed := true }) ∧
    (∀ (idx : Index) (f : Reg) (v : Word), Reg.ofIndex s.build.harness idx = some f → f ≠ .cmd →
      (ScriptLine.expect idx v).run s =
        some { block := { s with reply := .data (s.reg f) }, passed := decide (s.reg f = v) }) ∧
    (∀ (idx : Index) (v : Word), ∃ t w, exec (.rd idx) { s with reply := .notDriven } = .next t ∧ t.reply = .data w ∧
      (ScriptLine.expect idx v).run s = some { block := t, passed := decide (w = v) }) ∧
    ScriptLine.reset.run s = some { block := State.resetWith s.build s.drawn s.pending, passed := true } ∧
    (∀ lines : List ScriptLine, ∃ x, runScript lines s = some x) ∧
    (∀ (pre post : List ScriptLine) (idx : Index) (v : Word),
      (runScript (pre ++ .expect idx v :: post) s).map ScriptRun.block =
        (runScript (pre ++ .rd idx :: post) s).map ScriptRun.block)

/-! ## Faults -/

/-- R171 to R174, R176, R177: which fault each instruction raises, in the order of its tests, and that nothing but the record
(and a read's reply) is written; where none is raised the record keeps its value. That HCHK and HRUN raise none inside
the domain is R154, which the spec derives from R128 and R140. -/
def Obligations.FaultsAreExpectedAndPrecise : Prop :=
  ∀ (i : Instr) (s : State), i.wf = true → s.build.wf → Executing s →
    ∃ t, exec i s = .next t ∧
      (∀ code info, expectedFault i s = some (code, info) →
        t.flag .fault = true ∧ t = { faulted code info s with reply := t.reply }) ∧
      (expectedFault i s = none → t.flag .fault = false ∧ (i ≠ .clrf → t.cause = s.cause ∧ t.finfo = s.finfo))

/-- R178: while a fault is recorded every command but CLRF is refused, reads and writes go on as usual, and only CLRF and
reset clear the record. -/
def Obligations.RecordedFaultGatesCommands : Prop :=
  ∀ s : State, s.flag .fault = true →
    (∀ cw : Word, cw ≠ 0x0F#64 → exec (.wr cmdIndex cw) s = .next s) ∧
    (∃ t, exec (.wr cmdIndex 0x0F#64) s = .next t ∧ exec .clrf s = .next t ∧ t.flag .fault = false) ∧
    (∀ g : Reg, Reg.ofIndex s.build.harness g.index = some g → g ≠ .cmd →
      exec (.rd g.index) s = .next { s with reply := .data (s.reg g) }) ∧
    (∀ (g : Reg) (v : Word), g.access = .readWrite → exec (.wr g.index v) s = .next (s.writeReg g v)) ∧
    (∀ i : Instr, i.wf = true → i ≠ .clrf →
      ∃ t, exec i s = .next t ∧ t.flag .fault = true ∧ t.cause = s.cause ∧ t.finfo = s.finfo) ∧
    (∀ (idx : Index) (v : Word),
      ((accessAt s.build.harness idx = none ∨ idx = cmdIndex) →
        exec (.rd idx) s = .next { s with reply := .data 0#64 }) ∧
      ((accessAt s.build.harness idx = none ∨ accessAt s.build.harness idx = some .readOnly) →
        exec (.wr idx v) s = .next s)) ∧
    (∀ rest : List Input, s.pending = .reset :: rest → ∃ t, step s = .next t ∧ t.flag .fault = false)

/-- R192: a script with STATUS.FAULT = 0 at its start and at its end, none of whose lines clears the record, met no fault
and no refusal on the way: each of its lines was issued and done without a recorded fault, and each command and each write,
a `MOV`'s too, did what its own rule gives. The spec derives R192 from R175 and R178; that it speaks of scripts without CLRF and RESET is
the model's reading (log entry 14). -/
def Obligations.CleanScriptRanEveryLine : Prop :=
  ∀ (lines : List ScriptLine) (s : State), endsWithoutFault lines s = true →
    (∀ x ∈ issuedIn lines s, x.1.clearsRecord x.2 = false) →
    (issuedIn lines s).map Prod.fst = lines ∧
    ∀ x ∈ issuedIn lines s, Executing x.2 ∧ ∃ y, x.1.run x.2 = some y ∧ Executing y.block ∧
      (∀ i, x.1 = .command i → i.wf = true → exec i { x.2 with reply := .notDriven } = .next y.block) ∧
      (∀ idx v, x.1 = .wr idx v → exec (.wr idx v) { x.2 with reply := .notDriven } = .next y.block) ∧
      (∀ dst src, x.1 = .mov dst src → ∃ w u, issueRd src x.2 = some (w, u) ∧ Executing u ∧
        exec (.wr dst w) { u with reply := .notDriven } = .next y.block)

/-! ## Frames over all instructions -/

/-- R36: an instruction changes no register outside its list, STATUS, CAUSE and FINFO apart, nor the instance, nor, but for
a read's reply and the draws of HRUN.RANDOM, the model's own fields (log entries 3 to 5). -/
def Obligations.FrameOfEveryInstruction : Prop :=
  ∀ (i : Instr) (s : State), i.wf = true →
    ∃ t, exec i s = .next t ∧ t.build = s.build ∧ t.pending = s.pending ∧
      (∀ g : Reg, g ∉ mayWrite i → g ∉ [.status, .cause, .finfo] → t.reg g = s.reg g) ∧
      ((∀ idx, i ≠ .rd idx) → t.reply = s.reply) ∧ ((∀ n, i ≠ .hrunRandom n) → t.drawn = s.drawn)

/-- R34: who writes which flag. -/
def Obligations.FlagWritersAreListed : Prop :=
  ∀ (i : Instr) (s : State) (f : Flag), i.wf = true →
    ∃ t, exec i s = .next t ∧ (f ≠ .fault → mayWriteFlag f i = false → t.flag f = s.flag f) ∧
      (f = .fault → s.flag .fault = true → i ≠ .clrf → t.flag .fault = true) ∧
      (s.status.toNat < 32 → t.status.toNat < 32)

/-- R37, R213: no instruction's outcome depends on the host's later inputs or, HRUN.RANDOM apart, on the draws taken. The
queue, the reply and the counter of draws are the model's (log entries 4, 5 and 3). -/
def Obligations.NoHiddenInputs : Prop :=
  ∀ (i : Instr) (s : State) (d : Nat) (l : List Input) (rp : Reply), i.wf = true →
    ∃ t, exec i s = .next t ∧
      (exec i { s with pending := l, reply := rp } =
        .next { t with pending := l, reply := match i with | .rd _ => t.reply | _ => rp }) ∧
      ((∀ n, i ≠ .hrunRandom n) → exec i { s with drawn := d } = .next { t with drawn := d })

/-- R204, which the spec derives from R36, R104 and R118: a command may be re-issued on the same operands and gives the same state, and SNUM followed by BDIV divides
SNUM's product. -/
def Obligations.CommandsMayBeReissued : Prop :=
  (∀ (i : Instr) (s : State), i ∈ [Instr.wmul, .snum, .bdiv, .delta, .ref, .hclr, .clrf, .nop] →
    ∃ t, exec i s = .next t ∧ exec i t = .next t) ∧
  (∀ s : State, Executing s → s.s.toNat < 2 ^ 14 → val2 s.dh s.dl ≠ 0 →
    ∃ t u, exec .snum s = .next t ∧ exec .bdiv t = .next u ∧
      u.q.toNat = min s.k.toNat (val2 s.nh s.nl * s.s.toNat / val2 s.dh s.dl))

/-! ## Invariants and reset -/

/-- R26, R27, R28, R31, R170: the form of the status and fault registers, kept by every step. -/
def Obligations.StepKeepsRecordForm : Prop :=
  ∀ s t : State, RecordForm s → step s = .next t → RecordForm t

/-- R154, which the spec derives from R128 and R140: no step of an instance built to the spec ever records or captures a
mismatch. -/
def Obligations.StepNeverMismatches : Prop :=
  ∀ s t : State, s.build.wf → NoMismatch s → step s = .next t → t.build.wf ∧ NoMismatch t

/-- R39 with the forms above: the reset state, of every instance in the range of R8, starts both invariants. -/
def Obligations.ResetStartsInvariants : Prop :=
  ∀ (b : Config.Build) (d : Nat) (l : List Input), b.wf →
    RecordForm (State.resetWith b d l) ∧ NoMismatch (State.resetWith b d l)

/-- R39, R200: reset sets every register, whatever state it meets, and rewinds no draw. The queue and the counter of draws
are the model's (log entries 4 and 3). -/
def Obligations.ResetSetsEveryRegister : Prop :=
  ∀ (s : State) (rest : List Input), s.pending = .reset :: rest →
    ∃ t, step s = .next t ∧ (∀ g : Reg, g ≠ .config → t.reg g = 0#64) ∧
      t.reg .config = (if s.build.harness then 1#64 else 0#64) ∧ t.build = s.build ∧ t.drawn = s.drawn ∧
      t.pending = rest

/-- R201: what each command does straight after reset; the spec derives it from R200 and the commands' rules. -/
def Obligations.CommandsAfterReset : Prop :=
  ∀ (b : Config.Build) (d : Nat) (l : List Input),
    let s := State.resetWith b d l
    exec .wmul s = .next s ∧ exec .snum s = .next (s.setFlag .sat true) ∧
      exec .bdiv s = .next (faulted 1#64 0x03#64 s) ∧ exec .delta s = .next (s.setFlag .zsc true) ∧
      (b.harness = true → exec .ref s = .next (faulted 1#64 0x10#64 s) ∧
        exec .hchk s = .next (faulted 1#64 0x11#64 s))

/-! ## The sequencer -/

/-- R33, R110, R116: run phase by phase, BDIV reaches IDLE within 2 phases and 192 bit-steps, in the state the command
leaves. -/
def Obligations.SequencerRunsBdiv : Prop :=
  ∀ s : State, Executing s →
    ∃ n, n ≤ 194 ∧ (seqRun n (seqStart .bdiv s)).phase = .idle ∧ (seqRun n (seqStart .bdiv s)).bitSteps ≤ 192 ∧
      exec .bdiv s = .next (seqRun n (seqStart .bdiv s)).st

/-- R111: the loop invariant, which the spec derives from R110. After `j` bit-steps that did not exit, the remainder and the quotient are those of the
number the numerator's `j` top bits make. -/
def Obligations.DivisionLoopInvariant : Prop :=
  ∀ (s : State) (j : Nat), val2 s.dh s.dl ≠ 0 → s.k ≠ 0#64 → j ≤ 192 →
    let x := seqRun (j + 1) (seqStart .bdiv s)
    (x.phase = .b1 ∨ (j = 192 ∧ x.st.flag .cap = false)) →
    val2 x.div.rh x.div.rl = topBits s.t2 s.t1 s.t0 j % val2 s.dh s.dl ∧
      x.div.q.toNat = topBits s.t2 s.t1 s.t0 j / val2 s.dh s.dl ∧ x.div.q.toNat < s.k.toNat

/-- R33, R137, R116: run phase by phase, DELTA reaches IDLE within its 7 phases and 192 bit-steps, in the state the
command leaves. -/
def Obligations.SequencerRunsDelta : Prop :=
  ∀ s : State, Executing s →
    ∃ n, n ≤ 200 ∧ (seqRun n (seqStart .delta s)).phase = .idle ∧ (seqRun n (seqStart .delta s)).bitSteps ≤ 192 ∧
      exec .delta s = .next (seqRun n (seqStart .delta s)).st
end

