-- ==== Sys2Proof/Laws/Arith.lean ====
section
/-! SUPPORT. What the pure functions of the units compute, in exact arithmetic: `wmul` (40_wmul.md R91), `snum` (41_snum.md
R101), the helpers, the bit-step and the loops of `bdiv` (42_bdiv.md R111), and its closed form (R112). -/

namespace Sys2Proof.Machine

/-! ## WMUL -/

theorem and_M32_toNat (x : Word) : (x &&& M32).toNat = x.toNat % 2 ^ 32 := by
  have h := Nat.and_two_pow_sub_one_eq_mod x.toNat 32
  simpa [M32, BitVec.toNat_and] using h

theorem shr32_toNat (x : Word) : (x >>> 32).toNat = x.toNat / 2 ^ 32 := by
  simp [BitVec.toNat_ushiftRight, Nat.shiftRight_eq_div_pow]

theorem join_halves_toNat (x y : Word) :
    ((x &&& M32) ||| ((y &&& M32) <<< 32)).toNat = x.toNat % 2 ^ 32 + (y.toNat % 2 ^ 32) * 2 ^ 32 := by
  have hx : x.toNat % 2 ^ 32 < 2 ^ 32 := Nat.mod_lt _ (by decide)
  have hy : y.toNat % 2 ^ 32 < 2 ^ 32 := Nat.mod_lt _ (by decide)
  have hs : ((y &&& M32) <<< 32).toNat = (y.toNat % 2 ^ 32) <<< 32 := by
    rw [BitVec.toNat_shiftLeft, and_M32_toNat, Nat.shiftLeft_eq]
    omega
  rw [BitVec.toNat_or, hs, and_M32_toNat, Nat.or_comm, ← Nat.shiftLeft_add_eq_or_of_lt hx, Nat.shiftLeft_eq]
  omega

/-- A cross product of two halves fits the word (R90: "each fits exactly in one machine word"). -/
theorem mul32_toNat {x y : Word} (hx : x.toNat < 2 ^ 32) (hy : y.toNat < 2 ^ 32) :
    (mul32 x y).toNat = x.toNat * y.toNat ∧ x.toNat * y.toNat ≤ (2 ^ 32 - 1) * (2 ^ 32 - 1) := by
  have h : x.toNat * y.toNat ≤ (2 ^ 32 - 1) * (2 ^ 32 - 1) := Nat.mul_le_mul (by omega) (by omega)
  refine ⟨?_, h⟩
  rw [mul32, BitVec.toNat_mul]
  exact Nat.mod_eq_of_lt (by omega)

/-- The column sums of the schoolbook product, over the integers. -/
theorem schoolbook (p00 p01 p10 p11 : Nat) (h00 : p00 ≤ (2 ^ 32 - 1) * (2 ^ 32 - 1))
    (h01 : p01 ≤ (2 ^ 32 - 1) * (2 ^ 32 - 1)) (h10 : p10 ≤ (2 ^ 32 - 1) * (2 ^ 32 - 1))
    (h11 : p11 ≤ (2 ^ 32 - 1) * (2 ^ 32 - 1)) :
    let mid := p00 / 2 ^ 32 + p01 % 2 ^ 32 + p10 % 2 ^ 32
    let hi := p11 + p01 / 2 ^ 32 + p10 / 2 ^ 32 + mid / 2 ^ 32
    mid < 2 ^ 64 ∧ hi < 2 ^ 64 ∧
      hi * 2 ^ 64 + (p00 % 2 ^ 32 + (mid % 2 ^ 32) * 2 ^ 32) = p11 * 2 ^ 64 + (p01 + p10) * 2 ^ 32 + p00 := by
  intro mid hi
  refine ⟨?_, ?_, ?_⟩ <;> omega

/-- R91: the pair is the exact product. -/
theorem wmul_value (a b : Word) : val2 (wmul a b).hi (wmul a b).lo = a.toNat * b.toNat := by
  have ha0 : (a &&& M32).toNat < 2 ^ 32 := by rw [and_M32_toNat]; exact Nat.mod_lt _ (by decide)
  have hb0 : (b &&& M32).toNat < 2 ^ 32 := by rw [and_M32_toNat]; exact Nat.mod_lt _ (by decide)
  have ha1 : (a >>> 32).toNat < 2 ^ 32 := by rw [shr32_toNat]; have := a.isLt; omega
  have hb1 : (b >>> 32).toNat < 2 ^ 32 := by rw [shr32_toNat]; have := b.isLt; omega
  obtain ⟨e00, l00⟩ := mul32_toNat ha0 hb0
  obtain ⟨e01, l01⟩ := mul32_toNat ha0 hb1
  obtain ⟨e10, l10⟩ := mul32_toNat ha1 hb0
  obtain ⟨e11, l11⟩ := mul32_toNat ha1 hb1
  obtain ⟨hmid, hhi, hval⟩ := schoolbook _ _ _ _ l00 l01 l10 l11
  have hab : a.toNat * b.toNat = (a >>> 32).toNat * (b >>> 32).toNat * 2 ^ 64 +
      ((a &&& M32).toNat * (b >>> 32).toNat + (a >>> 32).toNat * (b &&& M32).toNat) * 2 ^ 32 +
      (a &&& M32).toNat * (b &&& M32).toNat := by
    have hA : a.toNat = (a >>> 32).toNat * 2 ^ 32 + (a &&& M32).toNat := by
      rw [shr32_toNat, and_M32_toNat]; omega
    have hB : b.toNat = (b >>> 32).toNat * 2 ^ 32 + (b &&& M32).toNat := by
      rw [shr32_toNat, and_M32_toNat]; omega
    conv_lhs => rw [hA, hB]
    ring
  rw [hab, ← hval]
  simp only [wmul, val2]
  rw [join_halves_toNat]
  simp only [BitVec.toNat_add, shr32_toNat, and_M32_toNat] at *
  simp only [e00, e01, e10, e11] at *
  generalize a.toNat % 2 ^ 32 = a0 at *
  generalize b.toNat % 2 ^ 32 = b0 at *
  generalize a.toNat / 2 ^ 32 = a1 at *
  generalize b.toNat / 2 ^ 32 = b1 at *
  generalize a0 * b0 = p00 at *
  generalize a0 * b1 = p01 at *
  generalize a1 * b0 = p10 at *
  generalize a1 * b1 = p11 at *
  clear hab hval
  omega

/-- R94: a factor below `2^14` leaves a high word below `2^14`. -/
theorem wmul_hi_lt {a b : Word} {n : Nat} (hb : b.toNat < 2 ^ n) : (wmul a b).hi.toNat < 2 ^ n := by
  have h := wmul_value a b
  have ha := a.isLt
  by_contra hc
  have h1 : 2 ^ n * 2 ^ 64 ≤ (wmul a b).hi.toNat * 2 ^ 64 := Nat.mul_le_mul_right _ (by omega)
  have h2 : a.toNat * b.toNat < 2 ^ 64 * 2 ^ n :=
    Nat.mul_lt_mul_of_le_of_lt (by omega) hb (by positivity)
  rw [val2] at h
  rw [Nat.mul_comm (2 ^ 64)] at h2
  omega

/-! ## SNUM -/

/-- R101's carry argument over the integers: a sum of two words is below an addend exactly when it wrapped. -/
theorem carry_sum (h l c1 : Nat) (hl : l < 2 ^ 64) (hc : c1 < 2 ^ 14) (hh : h + 1 < 2 ^ 14) :
    (if (l + c1) % 2 ^ 64 < l then (h + 1) % 2 ^ 64 else (h + 0) % 2 ^ 64) < 2 ^ 14 ∧
      (if (l + c1) % 2 ^ 64 < l then (h + 1) % 2 ^ 64 else (h + 0) % 2 ^ 64) * 2 ^ 128 + (l + c1) % 2 ^ 64 * 2 ^ 64 =
        (h * 2 ^ 64 + l) * 2 ^ 64 + c1 * 2 ^ 64 := by
  split <;> constructor <;> omega

/-- R101 and R102: for a scalar of 14 bits the triple is the exact product, its top limb has 14 bits, and the report is
the comparison of the top limb with the cap. -/
theorem snum_value {nh nl s k : Word} (hs : s.toNat < 2 ^ 14) :
    val3 (snum nh nl s k).t.hi2 (snum nh nl s k).t.hi1 (snum nh nl s k).t.lo = val2 nh nl * s.toNat ∧
      (snum nh nl s k).t.hi2.toNat < 2 ^ 14 ∧
      (snum nh nl s k).sat = decide (k ≤ (snum nh nl s k).t.hi2) := by
  have hl := wmul_value nl s
  have hh := wmul_value nh s
  have hc1 : (wmul nl s).hi.toNat < 2 ^ 14 := wmul_hi_lt hs
  have hlo := (wmul nh s).lo.isLt
  have htop : (wmul nh s).hi.toNat + 1 < 2 ^ 14 := by
    have h1 : nh.toNat * s.toNat ≤ (2 ^ 64 - 1) * (2 ^ 14 - 1) :=
      Nat.mul_le_mul (by have := nh.isLt; omega) (by omega)
    rw [← hh, val2] at h1
    omega
  obtain ⟨hlt, hsum⟩ := carry_sum _ _ _ hlo hc1 htop
  have ht1 : (snum nh nl s k).t.hi1.toNat = ((wmul nh s).lo.toNat + (wmul nl s).hi.toNat) % 2 ^ 64 :=
    BitVec.toNat_add _ _
  have ht2 : (snum nh nl s k).t.hi2.toNat =
      if ((wmul nh s).lo.toNat + (wmul nl s).hi.toNat) % 2 ^ 64 < (wmul nh s).lo.toNat
      then ((wmul nh s).hi.toNat + 1) % 2 ^ 64 else ((wmul nh s).hi.toNat + 0) % 2 ^ 64 := by
    simp only [snum, BitVec.lt_def, BitVec.toNat_add]
    split <;> rfl
  have ht0 : (snum nh nl s k).t.lo = (wmul nl s).lo := rfl
  refine ⟨?_, ?_, rfl⟩
  · have hexp : val2 nh nl * s.toNat = nh.toNat * s.toNat * 2 ^ 64 + nl.toNat * s.toNat := by
      rw [val2]; ring
    rw [hexp, ← hl, ← hh, val3, val2, val2, ht2, ht1, ht0, hsum]
    ring
  · rw [ht2]; exact hlt

/-! ## BDIV -/

/-- The two-limb comparison is the comparison of the values (R110). -/
theorem ge2_eq (xh xl yh yl : Word) : ge2 xh xl yh yl = decide (val2 yh yl ≤ val2 xh xl) := by
  have h1 := xl.isLt
  have h2 := yl.isLt
  rw [Bool.eq_iff_iff, decide_eq_true_iff]
  simp only [ge2, Bool.or_eq_true, Bool.and_eq_true, decide_eq_true_eq, BitVec.lt_def, BitVec.le_def, val2]
  constructor
  · rintro (h | ⟨rfl, h⟩) <;> omega
  · intro h
    by_cases he : xh = yh
    · subst he; right; exact ⟨rfl, by omega⟩
    · left
      have : xh.toNat ≠ yh.toNat := fun hc => he (BitVec.eq_of_toNat_eq hc)
      omega

/-- The two-limb subtraction is the subtraction of the values modulo `2^128` (R110). -/
theorem sub2_value (xh xl yh yl : Word) :
    val2 (sub2 xh xl yh yl).hi (sub2 xh xl yh yl).lo = (val2 xh xl + 2 ^ 128 - val2 yh yl) % 2 ^ 128 := by
  have h1 := xl.isLt
  have h2 := yl.isLt
  have h3 := xh.isLt
  have h4 := yh.isLt
  have hhi : (sub2 xh xl yh yl).hi.toNat =
      if xl.toNat < yl.toNat then (2 ^ 64 - 1 + (2 ^ 64 - yh.toNat + xh.toNat) % 2 ^ 64) % 2 ^ 64
      else (2 ^ 64 - yh.toNat + xh.toNat) % 2 ^ 64 := by
    simp only [sub2, BitVec.lt_def]
    split
    · rw [BitVec.toNat_sub, BitVec.toNat_sub]; rfl
    · rw [BitVec.toNat_sub, BitVec.toNat_sub]; simp
  have hlo : (sub2 xh xl yh yl).lo.toNat = (2 ^ 64 - yl.toNat + xl.toNat) % 2 ^ 64 := BitVec.toNat_sub _ _
  rw [val2, hhi, hlo, val2, val2]
  split <;> omega

/-- The value of the running quotient with its guard bit, after the doubling (R115). -/
theorem shl1_toNat (x : Word) : (x <<< 1).toNat + (if x.getLsbD 63 then 2 ^ 64 else 0) = 2 * x.toNat := by
  have h := x.isLt
  have hb : x.getLsbD 63 = decide (2 ^ 63 ≤ x.toNat) := by
    rw [← BitVec.testBit_toNat, Nat.testBit_eq_decide_div_mod_eq, Bool.eq_iff_iff]
    simp only [decide_eq_true_eq]
    omega
  rw [hb, BitVec.toNat_shiftLeft, Nat.shiftLeft_eq]
  by_cases hc : 2 ^ 63 ≤ x.toNat <;> simp only [hc, decide_true, decide_false, if_true, if_false, Bool.false_eq_true] <;> omega

/-- Setting bit 0 of a word just doubled adds one. -/
theorem shl1_or_one_toNat (x : Word) : ((x <<< 1) ||| 1#64).toNat = (x <<< 1).toNat + 1 := by
  have hs : (x <<< 1).toNat = (x.toNat % 2 ^ 63) <<< 1 := by
    rw [BitVec.toNat_shiftLeft, Nat.shiftLeft_eq, Nat.shiftLeft_eq]; omega
  rw [BitVec.toNat_or, hs]
  exact (Nat.shiftLeft_add_eq_or_of_lt (by decide) _).symm

/-- The doubled high limb takes in the top bit of the low limb. -/
theorem shl1_or_top_toNat (x y : Word) :
    ((x <<< 1) ||| (y >>> 63)).toNat = (x <<< 1).toNat + (if y.getLsbD 63 then 1 else 0) := by
  have h := y.isLt
  have hy : (y >>> 63) = if y.getLsbD 63 then 1#64 else 0#64 := by
    apply BitVec.eq_of_toNat_eq
    have hb : y.getLsbD 63 = decide (2 ^ 63 ≤ y.toNat) := by
      rw [← BitVec.testBit_toNat, Nat.testBit_eq_decide_div_mod_eq, Bool.eq_iff_iff]
      simp only [decide_eq_true_eq]
      omega
    rw [hb, BitVec.toNat_ushiftRight, Nat.shiftRight_eq_div_pow]
    by_cases hc : 2 ^ 63 ≤ y.toNat <;> simp only [hc, decide_true, decide_false, if_true, if_false, Bool.false_eq_true, BitVec.toNat_ofNat] <;> omega
  rw [hy]
  split
  · rw [shl1_or_one_toNat]
  · simp

/-- The 129-bit value of the shifted remainder with its guard bit (R111). -/
theorem shifted_remainder (rh rl : Word) (b : Bool) :
    val2 ((rh <<< 1) ||| (rl >>> 63)) ((rl <<< 1) ||| (if b then 1#64 else 0#64)) +
      (if rh.getLsbD 63 then 2 ^ 128 else 0) = 2 * val2 rh rl + b.toNat := by
  have h1 := shl1_toNat rh
  have h2 := shl1_toNat rl
  have h3 := shl1_or_top_toNat rh rl
  have h4 : ((rl <<< 1) ||| (if b then 1#64 else 0#64)).toNat = (rl <<< 1).toNat + b.toNat := by
    cases b
    · simp
    · simpa using shl1_or_one_toNat rl
  rw [val2, val2, h3, h4]
  clear h3 h4
  generalize rh.getLsbD 63 = x at *
  generalize rl.getLsbD 63 = y at *
  cases x <;> cases y <;> simp only [if_true, if_false, Bool.false_eq_true] at * <;> omega

/-- The quotient and the remainder of the bits read so far, and the quotient below the cap (R111). -/
def DivInv (dh dl k : Word) (m : Nat) (d : DivRegs) : Prop :=
  val2 d.rh d.rl = m % val2 dh dl ∧ d.q.toNat = m / val2 dh dl ∧ d.q.toNat < k.toNat

/-- Everything one bit-step can do: from the invariant at `m` it either exits, and then the quotient of `2·m + b` has
reached the cap, or goes on with the invariant at `2·m + b` (R111). -/
theorem bitStep_spec {dh dl k : Word} {m : Nat} {d : DivRegs} (hD : 0 < val2 dh dl) (hi : DivInv dh dl k m d) (b : Bool) :
    (bitStep dh dl k b d = none ∧ k.toNat ≤ (2 * m + b.toNat) / val2 dh dl) ∨
      (∃ d', bitStep dh dl k b d = some d' ∧ DivInv dh dl k (2 * m + b.toNat) d') := by
  obtain ⟨hr, hq, hk⟩ := hi
  have hDlt : val2 dh dl < 2 ^ 128 := by
    have := dh.isLt; have := dl.isLt; rw [val2]; omega
  have hx := shifted_remainder d.rh d.rl b
  have hb : b.toNat ≤ 1 := Bool.toNat_le b
  rw [hr] at hx
  have hrlt : m % val2 dh dl < val2 dh dl := Nat.mod_lt _ hD
  have hdm := Nat.div_add_mod m (val2 dh dl)
  have hq2 := shl1_toNat d.q
  have hq1 := shl1_or_one_toNat d.q
  have hklt := k.isLt
  unfold bitStep
  simp only [ge2_eq]
  generalize hrh : (d.rh <<< 1 ||| d.rl >>> 63) = rh at *
  generalize hrl : (d.rl <<< 1 ||| (if b then 1#64 else 0#64)) = rl at *
  have hlt : val2 rh rl < 2 ^ 128 := by
    have := rh.isLt; have := rl.isLt; rw [val2]; omega
  have key : ∀ g : Bool, g = (d.rh.getLsbD 63 || decide (val2 dh dl ≤ val2 rh rl)) →
      (2 * m + b.toNat) / val2 dh dl = 2 * (m / val2 dh dl) + g.toNat ∧
      (2 * m + b.toNat) % val2 dh dl = (if g then (val2 rh rl + 2 ^ 128 - val2 dh dl) % 2 ^ 128 else val2 rh rl) := by
    intro g hg
    have hcases : (g = true ∧ val2 dh dl ≤ 2 * (m % val2 dh dl) + b.toNat) ∨
        (g = false ∧ 2 * (m % val2 dh dl) + b.toNat < val2 dh dl ∧ d.rh.getLsbD 63 = false) := by
      subst hg
      cases hc : d.rh.getLsbD 63 <;> simp only [hc, if_true, if_false, Bool.false_eq_true, Bool.true_or, Bool.false_or] at *
      · by_cases hle : val2 dh dl ≤ val2 rh rl
        · left; simp only [hle, decide_true, true_and]; omega
        · right; exact ⟨by simp [hle], by omega, trivial⟩
      · left; simp only [true_and]; omega
    have hqr : ∀ q' r', 2 * m + b.toNat = r' + val2 dh dl * q' → r' < val2 dh dl →
        (2 * m + b.toNat) / val2 dh dl = q' ∧ (2 * m + b.toNat) % val2 dh dl = r' := by
      intro q' r' he hr'
      rw [he, Nat.add_mul_div_left _ _ hD, Nat.add_mul_mod_self_left, Nat.div_eq_of_lt hr', Nat.mod_eq_of_lt hr']
      simp
    have hmul : val2 dh dl * (2 * (m / val2 dh dl)) = 2 * (val2 dh dl * (m / val2 dh dl)) := by ring
    have hexp : 2 * m + b.toNat = 2 * (m % val2 dh dl) + b.toNat + val2 dh dl * (2 * (m / val2 dh dl)) := by
      omega
    rcases hcases with ⟨rfl, hge⟩ | ⟨rfl, hlt', hc⟩
    · obtain ⟨e1, e2⟩ := hqr (2 * (m / val2 dh dl) + 1) (2 * (m % val2 dh dl) + b.toNat - val2 dh dl)
        (by rw [Nat.mul_add, Nat.mul_one]; omega) (by omega)
      refine ⟨by simpa using e1, ?_⟩
      rw [e2]
      simp only [if_true]
      cases hc : d.rh.getLsbD 63 <;> simp only [hc, if_true, if_false, Bool.false_eq_true] at hx <;> omega
    · obtain ⟨e1, e2⟩ := hqr (2 * (m / val2 dh dl)) (2 * (m % val2 dh dl) + b.toNat) hexp hlt'
      refine ⟨by simpa using e1, ?_⟩
      rw [e2]
      simp only [hc, if_false, Bool.false_eq_true] at hx ⊢
      omega
  obtain ⟨kq, kr⟩ := key _ rfl
  cases hg : (d.rh.getLsbD 63 || decide (val2 dh dl ≤ val2 rh rl)) <;>
    simp only [hg, if_true, if_false, Bool.false_eq_true, Bool.toNat_true, Bool.toNat_false] at kq kr ⊢
  · by_cases hexit : (d.q.getLsbD 63 || decide (k ≤ d.q <<< 1)) = true
    · left
      refine ⟨if_pos hexit, ?_⟩
      rw [kq, ← hq]
      simp only [Bool.or_eq_true, decide_eq_true_eq, BitVec.le_def] at hexit
      rcases hexit with h | h
      · simp only [h, if_true] at hq2; omega
      · cases hqt : d.q.getLsbD 63 <;> simp only [hqt, if_true, if_false, Bool.false_eq_true] at hq2 <;> omega
    · right
      refine ⟨_, if_neg hexit, ?_⟩
      simp only [Bool.or_eq_true, decide_eq_true_eq, BitVec.le_def, not_or, not_le, Bool.not_eq_true] at hexit
      simp only [hexit.1, if_false, Bool.false_eq_true] at hq2
      refine ⟨kr.symm, ?_, hexit.2⟩
      show (d.q <<< 1).toNat = _
      rw [kq]; omega
  · by_cases hexit : (d.q.getLsbD 63 || decide (k ≤ d.q <<< 1 ||| 1#64)) = true
    · left
      refine ⟨if_pos hexit, ?_⟩
      rw [kq, ← hq]
      simp only [Bool.or_eq_true, decide_eq_true_eq, BitVec.le_def] at hexit
      rcases hexit with h | h
      · simp only [h, if_true] at hq2; omega
      · cases hqt : d.q.getLsbD 63 <;> simp only [hqt, if_true, if_false, Bool.false_eq_true] at hq2 <;> omega
    · right
      refine ⟨_, if_neg hexit, ?_⟩
      simp only [Bool.or_eq_true, decide_eq_true_eq, BitVec.le_def, not_or, not_le, Bool.not_eq_true] at hexit
      simp only [hexit.1, if_false, Bool.false_eq_true] at hq2
      refine ⟨?_, ?_, hexit.2⟩
      · show val2 (sub2 rh rl dh dl).hi (sub2 rh rl dh dl).lo = _
        rw [sub2_value, kr]
      · show (d.q <<< 1 ||| 1#64).toNat = _
        rw [kq]; omega

/-- The low `n + 1` bits of a word are bit `n` and the low `n` bits below it. -/
theorem low_bits_succ (w : Word) (n : Nat) :
    w.toNat % 2 ^ (n + 1) = (w.getLsbD n).toNat * 2 ^ n + w.toNat % 2 ^ n := by
  have hb : (w.getLsbD n).toNat = w.toNat / 2 ^ n % 2 := by
    rw [← BitVec.testBit_toNat, Nat.testBit_eq_decide_div_mod_eq]
    rcases Nat.mod_two_eq_zero_or_one (w.toNat / 2 ^ n) with h | h <;> simp [h]
  rw [hb, Nat.mod_pow_succ, Nat.mul_comm, Nat.add_comm]

/-- Everything the inner loop can do (R111): with `N_j = m` it ends with the invariant at `m·2^n + low`, or exits with the
quotient of that number at least the cap (R113). -/
theorem limbLoop_spec {dh dl k : Word} (hD : 0 < val2 dh dl) (w : Word) :
    ∀ (n m : Nat) (d : DivRegs), DivInv dh dl k m d →
      (limbLoop dh dl k w n d = none ∧ k.toNat ≤ (m * 2 ^ n + w.toNat % 2 ^ n) / val2 dh dl) ∨
        (∃ d', limbLoop dh dl k w n d = some d' ∧ DivInv dh dl k (m * 2 ^ n + w.toNat % 2 ^ n) d') := by
  intro n
  induction n with
  | zero => intro m d hi; right; exact ⟨d, rfl, by simpa [Nat.mod_one] using hi⟩
  | succ n ih =>
    intro m d hi
    have hsum : m * 2 ^ (n + 1) + w.toNat % 2 ^ (n + 1) =
        (2 * m + (w.getLsbD n).toNat) * 2 ^ n + w.toNat % 2 ^ n := by
      rw [low_bits_succ, pow_succ]; ring
    rw [hsum]
    rcases bitStep_spec hD hi (w.getLsbD n) with ⟨he, hk⟩ | ⟨d', he, hi'⟩
    · left
      refine ⟨by rw [limbLoop, he], hk.trans ?_⟩
      apply Nat.div_le_div_right
      have h1 := Nat.le_mul_of_pos_right (2 * m + (w.getLsbD n).toNat) (Nat.two_pow_pos n)
      omega
    · rw [limbLoop, he]
      exact ih _ _ hi'

/-- The number the limbs make after `m`. -/
def limbsValue : List Word → Nat → Nat
  | [], m => m
  | w :: ws, m => limbsValue ws (m * 2 ^ 64 + w.toNat)

theorem limbsValue_mono (ws : List Word) : ∀ m, m ≤ limbsValue ws m := by
  induction ws with
  | nil => intro m; exact le_rfl
  | cons w ws ih =>
    intro m
    have h : m ≤ m * 2 ^ 64 + w.toNat := by omega
    exact h.trans (ih _)

/-- Everything the outer loop can do (R111, R113). -/
theorem divLoop_spec {dh dl k : Word} (hD : 0 < val2 dh dl) (ws : List Word) :
    ∀ (m : Nat) (d : DivRegs), DivInv dh dl k m d →
      (divLoop dh dl k ws d = none ∧ k.toNat ≤ limbsValue ws m / val2 dh dl) ∨
        (∃ d', divLoop dh dl k ws d = some d' ∧ DivInv dh dl k (limbsValue ws m) d') := by
  induction ws with
  | nil => intro m d hi; right; exact ⟨d, rfl, hi⟩
  | cons w ws ih =>
    intro m d hi
    have hw : w.toNat % 2 ^ 64 = w.toNat := Nat.mod_eq_of_lt w.isLt
    rcases limbLoop_spec hD w 64 m d hi with ⟨he, hk⟩ | ⟨d', he, hi'⟩
    · left
      rw [hw] at hk
      exact ⟨by rw [divLoop, he], hk.trans (Nat.div_le_div_right (limbsValue_mono ws _))⟩
    · rw [hw] at hi'
      rw [divLoop, he]
      exact ih _ _ hi'

/-- R117: a zero denominator is the defect, whatever the cap. -/
theorem bdiv_zero (n2 n1 n0 k : Word) : bdiv n2 n1 n0 0#64 0#64 k = .error .div0 := rfl

/-- R112, the closed form: the quotient clamped at the cap, and whether it reached it. -/
theorem bdiv_value {n2 n1 n0 dh dl k : Word} (hD : 0 < val2 dh dl) :
    bdiv n2 n1 n0 dh dl k =
      .ok { q := BitVec.ofNat 64 (min k.toNat (val3 n2 n1 n0 / val2 dh dl)),
            cap := decide (k.toNat ≤ val3 n2 n1 n0 / val2 dh dl) } := by
  have hnz : ¬(dh = 0#64 ∧ dl = 0#64) := by
    rintro ⟨rfl, rfl⟩; simp [val2] at hD
  have hof : BitVec.ofNat 64 k.toNat = k := by simp
  rw [bdiv, if_neg hnz]
  by_cases hk : k ≤ 0#64
  · have hk0 : k.toNat = 0 := by simpa [BitVec.le_def] using hk
    have hkz : k = 0#64 := BitVec.eq_of_toNat_eq hk0
    rw [if_pos hk]
    simp [hkz]
  · rw [if_neg hk]
    have hkpos : 0 < k.toNat := by
      rw [BitVec.le_def] at hk; exact Nat.pos_of_ne_zero (by simpa using hk)
    have h0 : DivInv dh dl k 0 { q := 0#64, rh := 0#64, rl := 0#64 } := by
      refine ⟨?_, ?_, ?_⟩ <;> simp [val2, hkpos]
    have hv : limbsValue [n2, n1, n0] 0 = val3 n2 n1 n0 := by
      simp only [limbsValue, val3]; ring
    rcases divLoop_spec hD [n2, n1, n0] 0 _ h0 with ⟨he, hle⟩ | ⟨d', he, hr, hq, hlt⟩
    · rw [he]
      rw [hv] at hle
      simp [hle]
    · rw [he]
      rw [hv] at hq
      have hlt' : ¬ k.toNat ≤ val3 n2 n1 n0 / val2 dh dl := by omega
      rw [Nat.min_eq_right (by omega), ← hq] at *
      simp [hlt]

end Sys2Proof.Machine
end

