-- ==== Sys2Proof/Laws/Decode.lean ====
section
/-! SUPPORT. The decoder of command words, case by case, and its agreement with R76; the fields of a packed transaction
word (30_encoding.md R70 to R76). -/

namespace Sys2Proof

theorem and_fullMask (cw : Word) : cw &&& fullMask = cw := by
  have : fullMask = BitVec.allOnes 64 := by decide
  rw [this, BitVec.and_allOnes]

/-- The mask of the one row that carries a field (R75). -/
def randomMask : Word := 0xFFFF00000000FFFF#64

/-- The commands whose word has no free field, each with its word (R75). -/
def fixedCommands : List (Word × Instr) :=
  [ (0x0000#64, .nop), (0x0001#64, .wmul), (0x0002#64, .snum), (0x0003#64, .bdiv), (0x0004#64, .delta),
    (0x000F#64, .clrf), (0x0010#64, .ref), (0x0011#64, .hchk), (0x0012#64, .hrunSmall), (0x0112#64, .hrunBoundary),
    (0x0312#64, .hrunSatedge), (0x0013#64, .hclr) ]

/-- Every row of the opcode map is that of a fixed command or HRUN.RANDOM's. -/
theorem opRows_mem {row : OpRow} (h : row ∈ opRows) :
    (row.mask = fullMask ∧ (row.pattern, row.instr row.pattern) ∈ fixedCommands) ∨
      row = ⟨0x0212#64, randomMask, fun cw => .hrunRandom (cwN cw)⟩ := by
  fin_cases h <;> first | exact .inl ⟨rfl, by decide⟩ | exact .inr rfl

/-- Every fixed command has its row. -/
theorem fixedCommands_row {cw : Word} (h : cw ∈ fixedCommands.map Prod.fst) : ∃ row ∈ opRows, row.matches cw = true := by
  have hall : (fixedCommands.map Prod.fst).all (fun w => opRows.any fun row => row.matches w) = true := by decide
  exact List.any_eq_true.1 (List.all_eq_true.1 hall cw h)

/-- What a row that matches a word answers. -/
theorem opRows_matches {row : OpRow} {cw : Word} (h : row ∈ opRows) (hm : row.matches cw = true) :
    (cw, row.instr cw) ∈ fixedCommands ∨ (cw &&& randomMask = 0x0212#64 ∧ row.instr cw = .hrunRandom (cwN cw)) := by
  rw [OpRow.matches, beq_iff_eq] at hm
  rcases opRows_mem h with ⟨hf, hmem⟩ | rfl
  · rw [hf, and_fullMask] at hm
    rw [← hm] at hmem
    exact .inl hmem
  · exact .inr ⟨hm, rfl⟩

/-- The decoder of command words, whole: a fixed command's word, HRUN.RANDOM's, or a word of neither kind (R72, R75). -/
theorem decodeCommand_cases (cw : Word) :
    (∃ i, decodeCommand cw = .ok i ∧
      ((cw, i) ∈ fixedCommands ∨ (cw &&& randomMask = 0x0212#64 ∧ i = .hrunRandom (cwN cw)))) ∨
      (decodeCommand cw = .error (illegalReason cw) ∧ cw ∉ fixedCommands.map Prod.fst ∧
        cw &&& randomMask ≠ 0x0212#64) := by
  unfold decodeCommand
  cases hf : opRows.find? (fun row => row.matches cw) with
  | some row =>
    exact .inl ⟨row.instr cw, rfl, opRows_matches (List.mem_of_find?_eq_some hf) (List.find?_some (p := fun x : OpRow => x.matches cw) hf)⟩
  | none =>
    rw [List.find?_eq_none] at hf
    refine .inr ⟨rfl, fun h => ?_, fun h => ?_⟩
    · obtain ⟨row, hr, hm⟩ := fixedCommands_row h
      exact hf row hr hm
    · exact hf ⟨0x0212#64, randomMask, fun cw => .hrunRandom (cwN cw)⟩ (by simp [opRows, randomMask]) (by simp [OpRow.matches, h])

/-- The fields of a command word as quotients and remainders (R71). -/
theorem cwOp_toNat (cw : Word) : (cwOp cw).toNat = cw.toNat % 256 := by
  simp [cwOp, BitVec.extractLsb'_toNat]

theorem cwCls_toNat (cw : Word) : (cwCls cw).toNat = cw.toNat / 256 % 256 := by
  simp [cwCls, BitVec.extractLsb'_toNat, Nat.shiftRight_eq_div_pow]

theorem cwN_toNat (cw : Word) : (cwN cw).toNat = cw.toNat / 65536 % 2 ^ 32 := by
  simp [cwN, BitVec.extractLsb'_toNat, Nat.shiftRight_eq_div_pow]

theorem cwZero_toNat (cw : Word) : (cwZero cw).toNat = cw.toNat / 2 ^ 48 := by
  have := cw.isLt
  simp only [cwZero, BitVec.extractLsb'_toNat, Nat.shiftRight_eq_div_pow]
  omega

/-- What the mask of HRUN.RANDOM keeps: every field but N (R75). -/
theorem and_randomMask_toNat (cw : Word) :
    (cw &&& randomMask).toNat = cw.toNat / 2 ^ 48 * 2 ^ 48 + cw.toNat % 65536 := by
  have hz : cw &&& randomMask = (cwZero cw ++ 0#32 ++ cw.extractLsb' 0 16 : BitVec (16 + 32 + 16)) := by
    have hc : cw = (cwZero cw ++ cwN cw ++ cw.extractLsb' 0 16 : BitVec (16 + 32 + 16)) := by
      apply BitVec.eq_of_toNat_eq
      have h := cw.isLt
      rw [BitVec.toNat_append, BitVec.toNat_append, ← Nat.shiftLeft_add_eq_or_of_lt (BitVec.isLt _),
        ← Nat.shiftLeft_add_eq_or_of_lt (BitVec.isLt _), cwZero_toNat, cwN_toNat, Nat.shiftLeft_eq, Nat.shiftLeft_eq]
      simp only [BitVec.extractLsb'_toNat, Nat.shiftRight_zero]
      omega
    have hm : randomMask = (0xFFFF#16 ++ 0#32 ++ 0xFFFF#16 : BitVec (16 + 32 + 16)) := by decide
    have h16 : ∀ x : BitVec 16, x &&& 0xFFFF#16 = x := by
      intro x
      have : (0xFFFF#16 : BitVec 16) = BitVec.allOnes 16 := by decide
      rw [this, BitVec.and_allOnes]
    conv_lhs => rw [hc, hm]
    rw [BitVec.and_append, BitVec.and_append, h16, h16, BitVec.and_zero]
  have h := cw.isLt
  rw [hz, BitVec.toNat_append, BitVec.toNat_append, ← Nat.shiftLeft_add_eq_or_of_lt (BitVec.isLt _),
    ← Nat.shiftLeft_add_eq_or_of_lt (BitVec.isLt _), cwZero_toNat, Nat.shiftLeft_eq, Nat.shiftLeft_eq]
  simp only [BitVec.extractLsb'_toNat, Nat.shiftRight_zero, BitVec.toNat_ofNat]
  omega

/-- A word is legal exactly when its fields make one of the words of R75. -/
theorem isLegalCommandWord_iff (cw : Word) :
    isLegalCommandWord cw = true ↔ cw ∈ fixedCommands.map Prod.fst ∨ cw &&& randomMask = 0x0212#64 := by
  have h := cw.isLt
  simp only [isLegalCommandWord, isC0Op, Bool.and_eq_true, Bool.or_eq_true, beq_iff_eq, BitVec.ule, decide_eq_true_eq,
    ← BitVec.toNat_inj, cwOp_toNat, cwCls_toNat, cwN_toNat, cwZero_toNat, and_randomMask_toNat, fixedCommands,
    List.map_cons, List.map_nil, List.mem_cons, List.not_mem_nil, or_false, BitVec.toNat_ofNat]
  omega

/-- The decoder refuses exactly the words R76 calls illegal. -/
theorem decodeCommand_ok_iff (cw : Word) : (∃ i, decodeCommand cw = .ok i) ↔ isLegalCommandWord cw = true := by
  rw [isLegalCommandWord_iff]
  rcases decodeCommand_cases cw with ⟨i, hd, h⟩ | ⟨hd, h⟩
  · exact iff_of_true ⟨i, hd⟩ (h.imp (fun h => List.mem_map_of_mem (f := Prod.fst) h) And.left)
  · refine iff_of_false (by rintro ⟨i, hi⟩; rw [hd] at hi; cases hi) (not_or.2 h)

theorem decodeCommand_error {cw : Word} (h : isLegalCommandWord cw = false) :
    decodeCommand cw = .error (illegalReason cw) := by
  rcases decodeCommand_cases cw with ⟨i, hd, _⟩ | ⟨hd, _, _⟩
  · exact absurd ((decodeCommand_ok_iff cw).1 ⟨i, hd⟩) (by simp [h])
  · exact hd

theorem cwHrunRandom_toNat (n : BitVec 32) : (cwHrunRandom n).toNat = n.toNat * 65536 + 0x212 := by
  have h1 : n.toNat < 2 ^ 32 := n.isLt
  rw [cwHrunRandom, BitVec.toNat_append, BitVec.toNat_append, ← Nat.shiftLeft_add_eq_or_of_lt (BitVec.isLt _),
    ← Nat.shiftLeft_add_eq_or_of_lt (BitVec.isLt _), Nat.shiftLeft_eq, Nat.shiftLeft_eq]
  simp only [BitVec.toNat_ofNat]
  omega

/-- The field `N` of `HRUN.RANDOM n`'s word is `n` (R74). -/
theorem cwN_cwHrunRandom (n : BitVec 32) : cwN (cwHrunRandom n) = n := by
  have hn : n.toNat < 2 ^ 32 := n.isLt
  apply BitVec.eq_of_toNat_eq
  rw [cwN_toNat, cwHrunRandom_toNat]; omega

theorem cwHrunRandom_and_randomMask (n : BitVec 32) : cwHrunRandom n &&& randomMask = 0x0212#64 := by
  have hn : n.toNat < 2 ^ 32 := n.isLt
  apply BitVec.eq_of_toNat_eq
  rw [and_randomMask_toNat, cwHrunRandom_toNat]
  simp only [BitVec.toNat_ofNat]
  omega

/-- A word that the row of HRUN.RANDOM matches is the word of HRUN.RANDOM with its own field `N` (R75). -/
theorem cwHrunRandom_cwN {cw : Word} (h : cw &&& randomMask = 0x0212#64) : cwHrunRandom (cwN cw) = cw := by
  have hm : cw.toNat / 2 ^ 48 * 2 ^ 48 + cw.toNat % 65536 = 0x212 := by rw [← and_randomMask_toNat, h]; rfl
  clear h
  have hlow : cw.toNat % 65536 = 0x212 := by omega
  have hdiv := Nat.div_add_mod cw.toNat 65536
  apply BitVec.eq_of_toNat_eq
  rw [cwHrunRandom_toNat, cwN_toNat, Nat.mod_eq_of_lt (by omega), ← hlow, Nat.mul_comm, hdiv]

/-- `HRUN.RANDOM n` decodes from its word, with every bit of `n` (R74, R75). -/
theorem decodeCommand_random (n : BitVec 32) : decodeCommand (cwHrunRandom n) = .ok (.hrunRandom n) := by
  have hnot : cwHrunRandom n ∉ fixedCommands.map Prod.fst := by
    have hall : (fixedCommands.map Prod.fst).all (fun w => w &&& randomMask != 0x0212#64) = true := by decide
    intro h
    have := List.all_eq_true.1 hall _ h
    rw [cwHrunRandom_and_randomMask] at this
    exact absurd this (by decide)
  rcases decodeCommand_cases (cwHrunRandom n) with ⟨i, hd, h | ⟨_, rfl⟩⟩ | ⟨_, _, h⟩
  · exact absurd (List.mem_map_of_mem (f := Prod.fst) h) hnot
  · rw [hd, cwN_cwHrunRandom]
  · exact absurd (cwHrunRandom_and_randomMask n) h

/-- The decoder of command words answers commands only, and the word it read is the one the command encodes to. -/
theorem decodeCommand_encode {cw : Word} {i : Instr} (h : decodeCommand cw = .ok i) :
    encode i = packCommand cw ∧ i.wf = true := by
  have hall : fixedCommands.all (fun x => encode x.2 == packCommand x.1 && x.2.wf) = true := by decide
  rcases decodeCommand_cases cw with ⟨j, hd, hj⟩ | ⟨hd, _, _⟩
  · obtain rfl : j = i := by rw [hd] at h; cases h; rfl
    rcases hj with hj | ⟨hm, rfl⟩
    · simpa using List.all_eq_true.1 hall _ hj
    · exact ⟨by rw [encode, cwHrunRandom_cwN hm], rfl⟩
  · rw [hd] at h; cases h

theorem decodeCommand_not_bus {cw : Word} {i : Instr} (h : decodeCommand cw = .ok i) :
    (∀ idx, i ≠ .rd idx) ∧ (∀ idx v, i ≠ .wr idx v) := by
  rcases decodeCommand_cases cw with ⟨j, hd, hj⟩ | ⟨hd, _, _⟩
  · obtain rfl : j = i := by rw [hd] at h; cases h; rfl
    rcases hj with hj | ⟨_, rfl⟩
    · constructor <;> intros <;> rintro rfl <;> simp [fixedCommands] at hj
    · exact ⟨fun _ => nofun, fun _ _ => nofun⟩
  · rw [hd] at h; cases h

/-! ## Transaction words (R70) -/

theorem packTx_toNat (we : Bool) (idx : Index) (v : Word) :
    (packTx we idx v).toNat = we.toNat * 2 ^ 70 + idx.toNat * 2 ^ 64 + v.toNat := by
  rw [packTx, BitVec.toNat_append, BitVec.toNat_append, ← Nat.shiftLeft_add_eq_or_of_lt (BitVec.isLt _),
    ← Nat.shiftLeft_add_eq_or_of_lt (BitVec.isLt _), Nat.shiftLeft_eq, Nat.shiftLeft_eq, BitVec.toNat_ofBool]
  omega

@[simp] theorem txWe_packTx (we : Bool) (idx : Index) (v : Word) : txWe (packTx we idx v) = we := by
  have h := packTx_toNat we idx v
  have h1 := idx.isLt
  have h2 := v.isLt
  rw [txWe, ← BitVec.testBit_toNat, Nat.testBit_eq_decide_div_mod_eq, h]
  cases we <;> simp <;> omega

@[simp] theorem txIdx_packTx (we : Bool) (idx : Index) (v : Word) : txIdx (packTx we idx v) = idx := by
  apply BitVec.eq_of_toNat_eq
  have h := packTx_toNat we idx v
  have h1 := idx.isLt
  have h2 := v.isLt
  rw [txIdx, BitVec.extractLsb'_toNat, h, Nat.shiftRight_eq_div_pow]
  cases we <;> simp <;> omega

@[simp] theorem txData_packTx (we : Bool) (idx : Index) (v : Word) : txData (packTx we idx v) = v := by
  apply BitVec.eq_of_toNat_eq
  have h := packTx_toNat we idx v
  have h2 := v.isLt
  rw [txData, BitVec.extractLsb'_toNat, h, Nat.shiftRight_zero]
  cases we <;> simp <;> omega

/-- A transaction word is its three fields (R70). -/
theorem packTx_fields (tw : TxWord) : packTx (txWe tw) (txIdx tw) (txData tw) = tw := by
  apply BitVec.eq_of_toNat_eq
  have h := tw.isLt
  rw [packTx_toNat, txWe, ← BitVec.testBit_toNat, Nat.testBit_eq_decide_div_mod_eq, txIdx, txData]
  simp only [BitVec.extractLsb'_toNat, Nat.shiftRight_eq_div_pow, pow_zero, Nat.div_one]
  by_cases hb : tw.toNat / 2 ^ 70 % 2 = 1 <;> simp only [hb, decide_true, decide_false, Bool.toNat_true, Bool.toNat_false] <;> omega

/-- A transaction word of a command decodes to the command (R72, R166). -/
theorem decode_packCommand {cw : Word} {i : Instr} (h : decodeCommand cw = .ok i) : decode (packCommand cw) = i := by
  simp [decode, packCommand, h]

end Sys2Proof
end

