-- ==== Sys2Proof/Laws/State.lean ====
section
/-! SUPPORT. What the shared updates do to each field: one lemma per field per update. -/

namespace Sys2Proof.Machine

/-! ## setFlag: STATUS alone -/

@[simp] theorem setFlag_a (s : State) (f : Flag) (b : Bool) : (s.setFlag f b).a = s.a := rfl
@[simp] theorem setFlag_c (s : State) (f : Flag) (b : Bool) : (s.setFlag f b).c = s.c := rfl
@[simp] theorem setFlag_p (s : State) (f : Flag) (b : Bool) : (s.setFlag f b).p = s.p := rfl
@[simp] theorem setFlag_r (s : State) (f : Flag) (b : Bool) : (s.setFlag f b).r = s.r := rfl
@[simp] theorem setFlag_result (s : State) (f : Flag) (b : Bool) : (s.setFlag f b).result = s.result := rfl
@[simp] theorem setFlag_ma (s : State) (f : Flag) (b : Bool) : (s.setFlag f b).ma = s.ma := rfl
@[simp] theorem setFlag_mb (s : State) (f : Flag) (b : Bool) : (s.setFlag f b).mb = s.mb := rfl
@[simp] theorem setFlag_mh (s : State) (f : Flag) (b : Bool) : (s.setFlag f b).mh = s.mh := rfl
@[simp] theorem setFlag_ml (s : State) (f : Flag) (b : Bool) : (s.setFlag f b).ml = s.ml := rfl
@[simp] theorem setFlag_nh (s : State) (f : Flag) (b : Bool) : (s.setFlag f b).nh = s.nh := rfl
@[simp] theorem setFlag_nl (s : State) (f : Flag) (b : Bool) : (s.setFlag f b).nl = s.nl := rfl
@[simp] theorem setFlag_s (s : State) (f : Flag) (b : Bool) : (s.setFlag f b).s = s.s := rfl
@[simp] theorem setFlag_k (s : State) (f : Flag) (b : Bool) : (s.setFlag f b).k = s.k := rfl
@[simp] theorem setFlag_t2 (s : State) (f : Flag) (b : Bool) : (s.setFlag f b).t2 = s.t2 := rfl
@[simp] theorem setFlag_t1 (s : State) (f : Flag) (b : Bool) : (s.setFlag f b).t1 = s.t1 := rfl
@[simp] theorem setFlag_t0 (s : State) (f : Flag) (b : Bool) : (s.setFlag f b).t0 = s.t0 := rfl
@[simp] theorem setFlag_dh (s : State) (f : Flag) (b : Bool) : (s.setFlag f b).dh = s.dh := rfl
@[simp] theorem setFlag_dl (s : State) (f : Flag) (b : Bool) : (s.setFlag f b).dl = s.dl := rfl
@[simp] theorem setFlag_q (s : State) (f : Flag) (b : Bool) : (s.setFlag f b).q = s.q := rfl
@[simp] theorem setFlag_cause (s : State) (f : Flag) (b : Bool) : (s.setFlag f b).cause = s.cause := rfl
@[simp] theorem setFlag_finfo (s : State) (f : Flag) (b : Bool) : (s.setFlag f b).finfo = s.finfo := rfl
@[simp] theorem setFlag_refres (s : State) (f : Flag) (b : Bool) : (s.setFlag f b).refres = s.refres := rfl
@[simp] theorem setFlag_hcnt (s : State) (f : Flag) (b : Bool) : (s.setFlag f b).hcnt = s.hcnt := rfl
@[simp] theorem setFlag_ha (s : State) (f : Flag) (b : Bool) : (s.setFlag f b).ha = s.ha := rfl
@[simp] theorem setFlag_hc (s : State) (f : Flag) (b : Bool) : (s.setFlag f b).hc = s.hc := rfl
@[simp] theorem setFlag_hp (s : State) (f : Flag) (b : Bool) : (s.setFlag f b).hp = s.hp := rfl
@[simp] theorem setFlag_hr (s : State) (f : Flag) (b : Bool) : (s.setFlag f b).hr = s.hr := rfl
@[simp] theorem setFlag_hdut (s : State) (f : Flag) (b : Bool) : (s.setFlag f b).hdut = s.hdut := rfl
@[simp] theorem setFlag_href (s : State) (f : Flag) (b : Bool) : (s.setFlag f b).href = s.href := rfl
@[simp] theorem setFlag_build (s : State) (f : Flag) (b : Bool) : (s.setFlag f b).build = s.build := rfl
@[simp] theorem setFlag_drawn (s : State) (f : Flag) (b : Bool) : (s.setFlag f b).drawn = s.drawn := rfl
@[simp] theorem setFlag_pending (s : State) (f : Flag) (b : Bool) : (s.setFlag f b).pending = s.pending := rfl
@[simp] theorem setFlag_reply (s : State) (f : Flag) (b : Bool) : (s.setFlag f b).reply = s.reply := rfl

/-! ## raiseFault: STATUS, CAUSE and FINFO alone (60_exceptions.md R175) -/

@[simp] theorem raiseFault_a (e : Cause) (i : Word) (s : State) : (raiseFault e i s).a = s.a := by
  unfold raiseFault; split <;> rfl
@[simp] theorem raiseFault_c (e : Cause) (i : Word) (s : State) : (raiseFault e i s).c = s.c := by
  unfold raiseFault; split <;> rfl
@[simp] theorem raiseFault_p (e : Cause) (i : Word) (s : State) : (raiseFault e i s).p = s.p := by
  unfold raiseFault; split <;> rfl
@[simp] theorem raiseFault_r (e : Cause) (i : Word) (s : State) : (raiseFault e i s).r = s.r := by
  unfold raiseFault; split <;> rfl
@[simp] theorem raiseFault_result (e : Cause) (i : Word) (s : State) : (raiseFault e i s).result = s.result := by
  unfold raiseFault; split <;> rfl
@[simp] theorem raiseFault_ma (e : Cause) (i : Word) (s : State) : (raiseFault e i s).ma = s.ma := by
  unfold raiseFault; split <;> rfl
@[simp] theorem raiseFault_mb (e : Cause) (i : Word) (s : State) : (raiseFault e i s).mb = s.mb := by
  unfold raiseFault; split <;> rfl
@[simp] theorem raiseFault_mh (e : Cause) (i : Word) (s : State) : (raiseFault e i s).mh = s.mh := by
  unfold raiseFault; split <;> rfl
@[simp] theorem raiseFault_ml (e : Cause) (i : Word) (s : State) : (raiseFault e i s).ml = s.ml := by
  unfold raiseFault; split <;> rfl
@[simp] theorem raiseFault_nh (e : Cause) (i : Word) (s : State) : (raiseFault e i s).nh = s.nh := by
  unfold raiseFault; split <;> rfl
@[simp] theorem raiseFault_nl (e : Cause) (i : Word) (s : State) : (raiseFault e i s).nl = s.nl := by
  unfold raiseFault; split <;> rfl
@[simp] theorem raiseFault_s (e : Cause) (i : Word) (s : State) : (raiseFault e i s).s = s.s := by
  unfold raiseFault; split <;> rfl
@[simp] theorem raiseFault_k (e : Cause) (i : Word) (s : State) : (raiseFault e i s).k = s.k := by
  unfold raiseFault; split <;> rfl
@[simp] theorem raiseFault_t2 (e : Cause) (i : Word) (s : State) : (raiseFault e i s).t2 = s.t2 := by
  unfold raiseFault; split <;> rfl
@[simp] theorem raiseFault_t1 (e : Cause) (i : Word) (s : State) : (raiseFault e i s).t1 = s.t1 := by
  unfold raiseFault; split <;> rfl
@[simp] theorem raiseFault_t0 (e : Cause) (i : Word) (s : State) : (raiseFault e i s).t0 = s.t0 := by
  unfold raiseFault; split <;> rfl
@[simp] theorem raiseFault_dh (e : Cause) (i : Word) (s : State) : (raiseFault e i s).dh = s.dh := by
  unfold raiseFault; split <;> rfl
@[simp] theorem raiseFault_dl (e : Cause) (i : Word) (s : State) : (raiseFault e i s).dl = s.dl := by
  unfold raiseFault; split <;> rfl
@[simp] theorem raiseFault_q (e : Cause) (i : Word) (s : State) : (raiseFault e i s).q = s.q := by
  unfold raiseFault; split <;> rfl
@[simp] theorem raiseFault_refres (e : Cause) (i : Word) (s : State) : (raiseFault e i s).refres = s.refres := by
  unfold raiseFault; split <;> rfl
@[simp] theorem raiseFault_hcnt (e : Cause) (i : Word) (s : State) : (raiseFault e i s).hcnt = s.hcnt := by
  unfold raiseFault; split <;> rfl
@[simp] theorem raiseFault_ha (e : Cause) (i : Word) (s : State) : (raiseFault e i s).ha = s.ha := by
  unfold raiseFault; split <;> rfl
@[simp] theorem raiseFault_hc (e : Cause) (i : Word) (s : State) : (raiseFault e i s).hc = s.hc := by
  unfold raiseFault; split <;> rfl
@[simp] theorem raiseFault_hp (e : Cause) (i : Word) (s : State) : (raiseFault e i s).hp = s.hp := by
  unfold raiseFault; split <;> rfl
@[simp] theorem raiseFault_hr (e : Cause) (i : Word) (s : State) : (raiseFault e i s).hr = s.hr := by
  unfold raiseFault; split <;> rfl
@[simp] theorem raiseFault_hdut (e : Cause) (i : Word) (s : State) : (raiseFault e i s).hdut = s.hdut := by
  unfold raiseFault; split <;> rfl
@[simp] theorem raiseFault_href (e : Cause) (i : Word) (s : State) : (raiseFault e i s).href = s.href := by
  unfold raiseFault; split <;> rfl
@[simp] theorem raiseFault_build (e : Cause) (i : Word) (s : State) : (raiseFault e i s).build = s.build := by
  unfold raiseFault; split <;> rfl
@[simp] theorem raiseFault_drawn (e : Cause) (i : Word) (s : State) : (raiseFault e i s).drawn = s.drawn := by
  unfold raiseFault; split <;> rfl
@[simp] theorem raiseFault_pending (e : Cause) (i : Word) (s : State) : (raiseFault e i s).pending = s.pending := by
  unfold raiseFault; split <;> rfl
@[simp] theorem raiseFault_reply (e : Cause) (i : Word) (s : State) : (raiseFault e i s).reply = s.reply := by
  unfold raiseFault; split <;> rfl

/-! ## clearFault: STATUS, CAUSE and FINFO alone (45_host_system.md R163) -/

@[simp] theorem clearFault_a (s : State) : (clearFault s).a = s.a := rfl
@[simp] theorem clearFault_c (s : State) : (clearFault s).c = s.c := rfl
@[simp] theorem clearFault_p (s : State) : (clearFault s).p = s.p := rfl
@[simp] theorem clearFault_r (s : State) : (clearFault s).r = s.r := rfl
@[simp] theorem clearFault_result (s : State) : (clearFault s).result = s.result := rfl
@[simp] theorem clearFault_ma (s : State) : (clearFault s).ma = s.ma := rfl
@[simp] theorem clearFault_mb (s : State) : (clearFault s).mb = s.mb := rfl
@[simp] theorem clearFault_mh (s : State) : (clearFault s).mh = s.mh := rfl
@[simp] theorem clearFault_ml (s : State) : (clearFault s).ml = s.ml := rfl
@[simp] theorem clearFault_nh (s : State) : (clearFault s).nh = s.nh := rfl
@[simp] theorem clearFault_nl (s : State) : (clearFault s).nl = s.nl := rfl
@[simp] theorem clearFault_s (s : State) : (clearFault s).s = s.s := rfl
@[simp] theorem clearFault_k (s : State) : (clearFault s).k = s.k := rfl
@[simp] theorem clearFault_t2 (s : State) : (clearFault s).t2 = s.t2 := rfl
@[simp] theorem clearFault_t1 (s : State) : (clearFault s).t1 = s.t1 := rfl
@[simp] theorem clearFault_t0 (s : State) : (clearFault s).t0 = s.t0 := rfl
@[simp] theorem clearFault_dh (s : State) : (clearFault s).dh = s.dh := rfl
@[simp] theorem clearFault_dl (s : State) : (clearFault s).dl = s.dl := rfl
@[simp] theorem clearFault_q (s : State) : (clearFault s).q = s.q := rfl
@[simp] theorem clearFault_refres (s : State) : (clearFault s).refres = s.refres := rfl
@[simp] theorem clearFault_hcnt (s : State) : (clearFault s).hcnt = s.hcnt := rfl
@[simp] theorem clearFault_ha (s : State) : (clearFault s).ha = s.ha := rfl
@[simp] theorem clearFault_hc (s : State) : (clearFault s).hc = s.hc := rfl
@[simp] theorem clearFault_hp (s : State) : (clearFault s).hp = s.hp := rfl
@[simp] theorem clearFault_hr (s : State) : (clearFault s).hr = s.hr := rfl
@[simp] theorem clearFault_hdut (s : State) : (clearFault s).hdut = s.hdut := rfl
@[simp] theorem clearFault_href (s : State) : (clearFault s).href = s.href := rfl
@[simp] theorem clearFault_build (s : State) : (clearFault s).build = s.build := rfl
@[simp] theorem clearFault_drawn (s : State) : (clearFault s).drawn = s.drawn := rfl
@[simp] theorem clearFault_pending (s : State) : (clearFault s).pending = s.pending := rfl
@[simp] theorem clearFault_reply (s : State) : (clearFault s).reply = s.reply := rfl
@[simp] theorem clearFault_cause (s : State) : (clearFault s).cause = 0#64 := rfl
@[simp] theorem clearFault_finfo (s : State) : (clearFault s).finfo = 0#64 := rfl

/-! ## writeDelta: RESULT and STATUS alone (43_delta.md R126) -/

@[simp] theorem writeDelta_a (o : DeltaOut) (s : State) : (writeDelta o s).a = s.a := rfl
@[simp] theorem writeDelta_c (o : DeltaOut) (s : State) : (writeDelta o s).c = s.c := rfl
@[simp] theorem writeDelta_p (o : DeltaOut) (s : State) : (writeDelta o s).p = s.p := rfl
@[simp] theorem writeDelta_r (o : DeltaOut) (s : State) : (writeDelta o s).r = s.r := rfl
@[simp] theorem writeDelta_ma (o : DeltaOut) (s : State) : (writeDelta o s).ma = s.ma := rfl
@[simp] theorem writeDelta_mb (o : DeltaOut) (s : State) : (writeDelta o s).mb = s.mb := rfl
@[simp] theorem writeDelta_mh (o : DeltaOut) (s : State) : (writeDelta o s).mh = s.mh := rfl
@[simp] theorem writeDelta_ml (o : DeltaOut) (s : State) : (writeDelta o s).ml = s.ml := rfl
@[simp] theorem writeDelta_nh (o : DeltaOut) (s : State) : (writeDelta o s).nh = s.nh := rfl
@[simp] theorem writeDelta_nl (o : DeltaOut) (s : State) : (writeDelta o s).nl = s.nl := rfl
@[simp] theorem writeDelta_s (o : DeltaOut) (s : State) : (writeDelta o s).s = s.s := rfl
@[simp] theorem writeDelta_k (o : DeltaOut) (s : State) : (writeDelta o s).k = s.k := rfl
@[simp] theorem writeDelta_t2 (o : DeltaOut) (s : State) : (writeDelta o s).t2 = s.t2 := rfl
@[simp] theorem writeDelta_t1 (o : DeltaOut) (s : State) : (writeDelta o s).t1 = s.t1 := rfl
@[simp] theorem writeDelta_t0 (o : DeltaOut) (s : State) : (writeDelta o s).t0 = s.t0 := rfl
@[simp] theorem writeDelta_dh (o : DeltaOut) (s : State) : (writeDelta o s).dh = s.dh := rfl
@[simp] theorem writeDelta_dl (o : DeltaOut) (s : State) : (writeDelta o s).dl = s.dl := rfl
@[simp] theorem writeDelta_q (o : DeltaOut) (s : State) : (writeDelta o s).q = s.q := rfl
@[simp] theorem writeDelta_cause (o : DeltaOut) (s : State) : (writeDelta o s).cause = s.cause := rfl
@[simp] theorem writeDelta_finfo (o : DeltaOut) (s : State) : (writeDelta o s).finfo = s.finfo := rfl
@[simp] theorem writeDelta_refres (o : DeltaOut) (s : State) : (writeDelta o s).refres = s.refres := rfl
@[simp] theorem writeDelta_hcnt (o : DeltaOut) (s : State) : (writeDelta o s).hcnt = s.hcnt := rfl
@[simp] theorem writeDelta_ha (o : DeltaOut) (s : State) : (writeDelta o s).ha = s.ha := rfl
@[simp] theorem writeDelta_hc (o : DeltaOut) (s : State) : (writeDelta o s).hc = s.hc := rfl
@[simp] theorem writeDelta_hp (o : DeltaOut) (s : State) : (writeDelta o s).hp = s.hp := rfl
@[simp] theorem writeDelta_hr (o : DeltaOut) (s : State) : (writeDelta o s).hr = s.hr := rfl
@[simp] theorem writeDelta_hdut (o : DeltaOut) (s : State) : (writeDelta o s).hdut = s.hdut := rfl
@[simp] theorem writeDelta_href (o : DeltaOut) (s : State) : (writeDelta o s).href = s.href := rfl
@[simp] theorem writeDelta_build (o : DeltaOut) (s : State) : (writeDelta o s).build = s.build := rfl
@[simp] theorem writeDelta_drawn (o : DeltaOut) (s : State) : (writeDelta o s).drawn = s.drawn := rfl
@[simp] theorem writeDelta_pending (o : DeltaOut) (s : State) : (writeDelta o s).pending = s.pending := rfl
@[simp] theorem writeDelta_reply (o : DeltaOut) (s : State) : (writeDelta o s).reply = s.reply := rfl
@[simp] theorem writeDelta_result (o : DeltaOut) (s : State) : (writeDelta o s).result = o.res := rfl

/-! ## applyVec: A, C, P, R and the draw counter alone (44_oracle_harness.md R147) -/

@[simp] theorem applyVec_a (n : Nat) (v : Vec) (s : State) : (applyVec n v s).a = v.a := rfl
@[simp] theorem applyVec_c (n : Nat) (v : Vec) (s : State) : (applyVec n v s).c = v.c := rfl
@[simp] theorem applyVec_p (n : Nat) (v : Vec) (s : State) : (applyVec n v s).p = v.p := rfl
@[simp] theorem applyVec_r (n : Nat) (v : Vec) (s : State) : (applyVec n v s).r = v.r := rfl
@[simp] theorem applyVec_result (n : Nat) (v : Vec) (s : State) : (applyVec n v s).result = s.result := rfl
@[simp] theorem applyVec_ma (n : Nat) (v : Vec) (s : State) : (applyVec n v s).ma = s.ma := rfl
@[simp] theorem applyVec_mb (n : Nat) (v : Vec) (s : State) : (applyVec n v s).mb = s.mb := rfl
@[simp] theorem applyVec_mh (n : Nat) (v : Vec) (s : State) : (applyVec n v s).mh = s.mh := rfl
@[simp] theorem applyVec_ml (n : Nat) (v : Vec) (s : State) : (applyVec n v s).ml = s.ml := rfl
@[simp] theorem applyVec_nh (n : Nat) (v : Vec) (s : State) : (applyVec n v s).nh = s.nh := rfl
@[simp] theorem applyVec_nl (n : Nat) (v : Vec) (s : State) : (applyVec n v s).nl = s.nl := rfl
@[simp] theorem applyVec_s (n : Nat) (v : Vec) (s : State) : (applyVec n v s).s = s.s := rfl
@[simp] theorem applyVec_k (n : Nat) (v : Vec) (s : State) : (applyVec n v s).k = s.k := rfl
@[simp] theorem applyVec_t2 (n : Nat) (v : Vec) (s : State) : (applyVec n v s).t2 = s.t2 := rfl
@[simp] theorem applyVec_t1 (n : Nat) (v : Vec) (s : State) : (applyVec n v s).t1 = s.t1 := rfl
@[simp] theorem applyVec_t0 (n : Nat) (v : Vec) (s : State) : (applyVec n v s).t0 = s.t0 := rfl
@[simp] theorem applyVec_dh (n : Nat) (v : Vec) (s : State) : (applyVec n v s).dh = s.dh := rfl
@[simp] theorem applyVec_dl (n : Nat) (v : Vec) (s : State) : (applyVec n v s).dl = s.dl := rfl
@[simp] theorem applyVec_q (n : Nat) (v : Vec) (s : State) : (applyVec n v s).q = s.q := rfl
@[simp] theorem applyVec_status (n : Nat) (v : Vec) (s : State) : (applyVec n v s).status = s.status := rfl
@[simp] theorem applyVec_cause (n : Nat) (v : Vec) (s : State) : (applyVec n v s).cause = s.cause := rfl
@[simp] theorem applyVec_finfo (n : Nat) (v : Vec) (s : State) : (applyVec n v s).finfo = s.finfo := rfl
@[simp] theorem applyVec_refres (n : Nat) (v : Vec) (s : State) : (applyVec n v s).refres = s.refres := rfl
@[simp] theorem applyVec_hcnt (n : Nat) (v : Vec) (s : State) : (applyVec n v s).hcnt = s.hcnt := rfl
@[simp] theorem applyVec_ha (n : Nat) (v : Vec) (s : State) : (applyVec n v s).ha = s.ha := rfl
@[simp] theorem applyVec_hc (n : Nat) (v : Vec) (s : State) : (applyVec n v s).hc = s.hc := rfl
@[simp] theorem applyVec_hp (n : Nat) (v : Vec) (s : State) : (applyVec n v s).hp = s.hp := rfl
@[simp] theorem applyVec_hr (n : Nat) (v : Vec) (s : State) : (applyVec n v s).hr = s.hr := rfl
@[simp] theorem applyVec_hdut (n : Nat) (v : Vec) (s : State) : (applyVec n v s).hdut = s.hdut := rfl
@[simp] theorem applyVec_href (n : Nat) (v : Vec) (s : State) : (applyVec n v s).href = s.href := rfl
@[simp] theorem applyVec_build (n : Nat) (v : Vec) (s : State) : (applyVec n v s).build = s.build := rfl
@[simp] theorem applyVec_drawn (n : Nat) (v : Vec) (s : State) : (applyVec n v s).drawn = s.drawn + n := rfl
@[simp] theorem applyVec_pending (n : Nat) (v : Vec) (s : State) : (applyVec n v s).pending = s.pending := rfl
@[simp] theorem applyVec_reply (n : Nat) (v : Vec) (s : State) : (applyVec n v s).reply = s.reply := rfl

/-! ## writeReg: data registers alone (45_host_system.md R161) -/

@[simp] theorem writeReg_status (s : State) (g : Reg) (v : Word) : (s.writeReg g v).status = s.status := by
  cases g <;> rfl
@[simp] theorem writeReg_cause (s : State) (g : Reg) (v : Word) : (s.writeReg g v).cause = s.cause := by
  cases g <;> rfl
@[simp] theorem writeReg_finfo (s : State) (g : Reg) (v : Word) : (s.writeReg g v).finfo = s.finfo := by
  cases g <;> rfl
@[simp] theorem writeReg_refres (s : State) (g : Reg) (v : Word) : (s.writeReg g v).refres = s.refres := by
  cases g <;> rfl
@[simp] theorem writeReg_hcnt (s : State) (g : Reg) (v : Word) : (s.writeReg g v).hcnt = s.hcnt := by
  cases g <;> rfl
@[simp] theorem writeReg_ha (s : State) (g : Reg) (v : Word) : (s.writeReg g v).ha = s.ha := by
  cases g <;> rfl
@[simp] theorem writeReg_hc (s : State) (g : Reg) (v : Word) : (s.writeReg g v).hc = s.hc := by
  cases g <;> rfl
@[simp] theorem writeReg_hp (s : State) (g : Reg) (v : Word) : (s.writeReg g v).hp = s.hp := by
  cases g <;> rfl
@[simp] theorem writeReg_hr (s : State) (g : Reg) (v : Word) : (s.writeReg g v).hr = s.hr := by
  cases g <;> rfl
@[simp] theorem writeReg_hdut (s : State) (g : Reg) (v : Word) : (s.writeReg g v).hdut = s.hdut := by
  cases g <;> rfl
@[simp] theorem writeReg_href (s : State) (g : Reg) (v : Word) : (s.writeReg g v).href = s.href := by
  cases g <;> rfl
@[simp] theorem writeReg_build (s : State) (g : Reg) (v : Word) : (s.writeReg g v).build = s.build := by
  cases g <;> rfl
@[simp] theorem writeReg_drawn (s : State) (g : Reg) (v : Word) : (s.writeReg g v).drawn = s.drawn := by
  cases g <;> rfl
@[simp] theorem writeReg_pending (s : State) (g : Reg) (v : Word) : (s.writeReg g v).pending = s.pending := by
  cases g <;> rfl
@[simp] theorem writeReg_reply (s : State) (g : Reg) (v : Word) : (s.writeReg g v).reply = s.reply := by
  cases g <;> rfl

end Sys2Proof.Machine
end

