-- ==== Sys2Proof/Laws/Flags.lean ====
section
/-! SUPPORT. Reading and writing the fields of STATUS (10_state.md R26). -/

namespace Sys2Proof.Machine

theorem mask_getLsbD (f g : Flag) : f.mask.getLsbD g.bit = decide (f = g) := by
  cases f <;> cases g <;> decide

theorem bit_lt (f : Flag) : f.bit < 64 := by cases f <;> decide

/-- A field reads as it was last written. -/
@[simp] theorem flag_setFlag_same (s : State) (f : Flag) (b : Bool) : (s.setFlag f b).flag f = b := by
  cases b <;> simp [State.flag, State.setFlag, mask_getLsbD, bit_lt]

/-- Writing one field leaves the others. -/
@[simp] theorem flag_setFlag_ne (s : State) {f g : Flag} (b : Bool) (h : f ≠ g) : (s.setFlag f b).flag g = s.flag g := by
  cases b <;>
    simp only [State.flag, State.setFlag, if_true, if_false, Bool.false_eq_true, BitVec.getLsbD_or, BitVec.getLsbD_and,
      BitVec.getLsbD_not, mask_getLsbD, bit_lt, h, decide_true, decide_false, Bool.or_false, Bool.not_false, Bool.and_true]

/-- A field write keeps bits 63:5 clear. -/
theorem setFlag_status_lt (s : State) (f : Flag) (b : Bool) (h : s.status.toNat < 32) :
    (s.setFlag f b).status.toNat < 32 := by
  cases b
  · have : (s.status &&& ~~~f.mask).toNat ≤ s.status.toNat := by
      rw [BitVec.toNat_and]; exact Nat.and_le_left
    simp only [State.setFlag, if_false, Bool.false_eq_true]
    omega
  · simp only [State.setFlag, if_true, BitVec.toNat_or]
    exact Nat.or_lt_two_pow (n := 5) h (by cases f <;> decide)

/-- Writing a field the value it has changes nothing. -/
theorem setFlag_self (s : State) (f : Flag) : s.setFlag f (s.flag f) = s := by
  have h : (s.setFlag f (s.flag f)).status = s.status := by
    apply BitVec.eq_of_getLsbD_eq
    intro i hi
    have hm : f.mask.getLsbD i = decide (i = f.bit) := by
      rw [Flag.mask, BitVec.getLsbD_shiftLeft]
      have := bit_lt f
      by_cases hlt : i < f.bit
      · simp [hlt]; omega
      · simp only [hi, hlt, decide_true, decide_false, Bool.true_and, Bool.not_false, BitVec.getLsbD_one]
        rw [Bool.eq_iff_iff]; simp; omega
    cases hf : s.flag f <;>
      simp only [State.setFlag, if_true, if_false, Bool.false_eq_true, BitVec.getLsbD_or, BitVec.getLsbD_and,
        BitVec.getLsbD_not, hm, hi, decide_true, Bool.true_and] <;>
      rw [State.flag] at hf <;> by_cases he : i = f.bit <;> simp_all
  calc s.setFlag f (s.flag f) = { s with status := (s.setFlag f (s.flag f)).status } := rfl
    _ = s := by rw [h]

end Sys2Proof.Machine
end

