-- ==== Sys2Proof/Laws/Ops.lean ====
section
/-! SUPPORT. Once for each shared operation, everything it can do. -/

namespace Sys2Proof.Machine

/-- Fault entry with nothing recorded (60_exceptions.md R175). -/
theorem raiseFault_fresh {s : State} (h : s.flag .fault = false) (e : Cause) (i : Word) :
    raiseFault e i s = { s.setFlag .fault true with cause := e.code, finfo := i } := by
  rw [raiseFault, h]; rfl

/-- Fault entry under a recorded fault: the first one is kept (R175). -/
theorem raiseFault_recorded {s : State} (h : s.flag .fault = true) (e : Cause) (i : Word) : raiseFault e i s = s := by
  rw [raiseFault, h]; rfl

/-- Fault entry, whole. -/
theorem raiseFault_cases (e : Cause) (i : Word) (s : State) :
    (s.flag .fault = true ∧ raiseFault e i s = s) ∨
      (s.flag .fault = false ∧ raiseFault e i s = { s.setFlag .fault true with cause := e.code, finfo := i }) := by
  cases h : s.flag .fault
  · exact .inr ⟨rfl, raiseFault_fresh h e i⟩
  · exact .inl ⟨rfl, raiseFault_recorded h e i⟩

/-- After fault entry the record is there. -/
@[simp] theorem raiseFault_flag_fault (e : Cause) (i : Word) (s : State) : (raiseFault e i s).flag .fault = true := by
  rcases raiseFault_cases e i s with ⟨h, he⟩ | ⟨_, he⟩
  · rw [he, h]
  · rw [he]; exact flag_setFlag_same s .fault true

/-- After the return from a fault no record is there (R179). -/
@[simp] theorem clearFault_flag_fault (s : State) : (clearFault s).flag .fault = false :=
  flag_setFlag_same s .fault false

/-- Everything a write of a command word other than CLRF can do (30_encoding.md R72, 60_exceptions.md R178). -/
theorem runCommand_cases (cw : Word) (harnessOnly : Bool) (effect : State → State) (s : State) :
    (s.flag .fault = true ∧ runCommand cw harnessOnly effect s = s) ∨
      (s.flag .fault = false ∧ harnessOnly = true ∧ s.build.harness = false ∧
        runCommand cw harnessOnly effect s = raiseFault .illegalCmd cw s) ∨
      (s.flag .fault = false ∧ (harnessOnly = true → s.build.harness = true) ∧
        runCommand cw harnessOnly effect s = effect s) := by
  unfold runCommand
  cases s.flag .fault <;> cases harnessOnly <;> cases s.build.harness <;> simp

/-- A command of every instance executes when no fault is recorded. -/
theorem runCommand_executes {s : State} (h : s.flag .fault = false) (cw : Word) (effect : State → State) :
    runCommand cw false effect s = effect s := by simp [runCommand, h]

/-- A harness command executes when no fault is recorded and the instance has the harness. -/
theorem runCommand_executes_harness {s : State} (h : s.flag .fault = false) (hh : s.build.harness = true) (cw : Word)
    (effect : State → State) : runCommand cw true effect s = effect s := by simp [runCommand, h, hh]

/-- A harness command is an illegal word in an instance without the harness (30_encoding.md R76). -/
theorem runCommand_absent {s : State} (h : s.flag .fault = false) (hh : s.build.harness = false) (cw : Word)
    (effect : State → State) : runCommand cw true effect s = raiseFault .illegalCmd cw s := by simp [runCommand, h, hh]

/-- Under a recorded fault a command is refused (60_exceptions.md R178). -/
theorem runCommand_refused {s : State} (h : s.flag .fault = true) (cw : Word) (harnessOnly : Bool)
    (effect : State → State) : runCommand cw harnessOnly effect s = s := by simp [runCommand, h]

/-- `FINFO` of an ACCESS fault is `we · 64 + idx` (60_exceptions.md R174). -/
theorem accessInfo_toNat (we : Bool) (idx : Index) : (accessInfo we idx).toNat = we.toNat * 64 + idx.toNat := by
  have h := idx.isLt
  have hb := Bool.toNat_le we
  rw [accessInfo, BitVec.toNat_setWidth, BitVec.toNat_append, BitVec.toNat_ofBool,
    ← Nat.shiftLeft_add_eq_or_of_lt h, Nat.shiftLeft_eq]
  omega

/-- A write then a read of a data register (10_state.md R25). -/
theorem reg_writeReg_same (s : State) (g : Reg) (v : Word) (h : g.access = .readWrite) : (s.writeReg g v).reg g = v := by
  cases g <;> first | rfl | cases h

/-- A write leaves every other register. -/
theorem reg_writeReg_ne (s : State) (g f : Reg) (v : Word) (h : g ≠ f) : (s.writeReg g v).reg f = s.reg f := by
  cases g <;> first | rfl | (cases f <;> first | rfl | exact absurd rfl h)

/-- CMD is not writable as a register, and a register that is writable is RW (20_memory.md R59). -/
theorem writableAt_access {h : Bool} {idx : Index} {g : Reg} (hw : Reg.writableAt h idx = some g) :
    g.access = .readWrite := by
  unfold Reg.writableAt at hw
  split at hw
  · split at hw
    · cases hw; assumption
    · cases hw
  · cases hw

end Sys2Proof.Machine
end

