-- ==== Sys2Proof/Laws/PerInstr.lean ====
section
/-! SUPPORT. The family RoundTrip, one lemma per constructor: a well-formed instruction decodes from its own transaction
word. -/

namespace Sys2Proof.Laws.RoundTrip

def Statement (i : Instr) : Prop := i.wf = true → decode (encode i) = i

theorem nop : Statement .nop := fun _ => decode_packCommand (by decide)
theorem wmul : Statement .wmul := fun _ => decode_packCommand (by decide)
theorem snum : Statement .snum := fun _ => decode_packCommand (by decide)
theorem bdiv : Statement .bdiv := fun _ => decode_packCommand (by decide)
theorem delta : Statement .delta := fun _ => decode_packCommand (by decide)
theorem clrf : Statement .clrf := fun _ => decode_packCommand (by decide)
theorem ref : Statement .ref := fun _ => decode_packCommand (by decide)
theorem hchk : Statement .hchk := fun _ => decode_packCommand (by decide)
theorem hrunSmall : Statement .hrunSmall := fun _ => decode_packCommand (by decide)
theorem hrunBoundary : Statement .hrunBoundary := fun _ => decode_packCommand (by decide)
theorem hrunRandom (n : BitVec 32) : Statement (.hrunRandom n) := fun _ => decode_packCommand (decodeCommand_random n)
theorem hrunSatedge : Statement .hrunSatedge := fun _ => decode_packCommand (by decide)
theorem hclr : Statement .hclr := fun _ => decode_packCommand (by decide)

theorem rd (idx : Index) : Statement (.rd idx) := fun _ => by simp [encode, decode]

theorem wr (idx : Index) (v : Word) : Statement (.wr idx v) := by
  intro h
  by_cases hi : idx = cmdIndex
  · subst hi
    have hl : isLegalCommandWord v = false := by simpa [Instr.wf] using h
    simp [encode, decode, decodeCommand_error hl]
  · simp [encode, decode, hi]

end Sys2Proof.Laws.RoundTrip
end

