-- ==== Sys2Proof/Laws/Port.lean ====
section
/-! SUPPORT. What taking an input, the default bus binding and the start of a command can do. -/

namespace Sys2Proof.Machine

/-- Taking an input, whole (20_memory.md R57). -/
theorem takeInput_cases (s : State) :
    (s.pending = [] ∧ takeInput s = none) ∨
      (∃ input rest, s.pending = input :: rest ∧
        takeInput s = some (input, { s with pending := rest, reply := .notDriven })) := by
  unfold takeInput
  cases h : s.pending with
  | nil => exact .inl ⟨rfl, rfl⟩
  | cons input rest => exact .inr ⟨input, rest, rfl, rfl⟩

/-- The default bus binding, whole (20_memory.md R53). -/
theorem bindAccess_cases (access : BusAccess) :
    (∃ offset, access = .read offset 8 ∧ offset % 8 = 0 ∧ offset + 8 ≤ 512 ∧
        bindAccess access = some (packTx false (BitVec.ofNat 6 (offset / 8)) 0#64)) ∨
      (∃ offset bytes, access = .write offset bytes ∧ bytes.length = 8 ∧ offset % 8 = 0 ∧ offset + 8 ≤ 512 ∧
        bindAccess access = some (packTx true (BitVec.ofNat 6 (offset / 8)) (wordOfBytes bytes))) ∨
      bindAccess access = none := by
  cases access with
  | read offset size =>
    by_cases h : busAligned offset size = true
    · simp only [busAligned, Bool.and_eq_true, beq_iff_eq, decide_eq_true_eq] at h
      obtain ⟨⟨rfl, h2⟩, h3⟩ := h
      refine .inl ⟨offset, rfl, h2, h3, ?_⟩
      simp only [bindAccess, busAligned, h2, BEq.rfl, Bool.true_and, ite_eq_left_iff]
      intro hc; exact absurd (decide_eq_true h3) hc
    · exact .inr (.inr (by simp [bindAccess, h]))
  | write offset bytes =>
    by_cases h : busAligned offset bytes.length = true
    · have h' := h
      simp only [busAligned, Bool.and_eq_true, beq_iff_eq, decide_eq_true_eq] at h'
      obtain ⟨⟨h1, h2⟩, h3⟩ := h'
      exact .inr (.inl ⟨offset, bytes, rfl, h1, h2, by omega, by simp [bindAccess, h]⟩)
    · exact .inr (.inr (by simp [bindAccess, h]))

/-- The bytes of a word on the bus are the word's bytes, lowest first (R53). -/
theorem wordOfBytes_getLsbD (bs : List (BitVec 8)) : ∀ i, i < 64 →
    (wordOfBytes bs).getLsbD i = (bs.getD (i / 8) 0#8).getLsbD (i % 8) := by
  induction bs with
  | nil => intro i _; simp [wordOfBytes]
  | cons b bs ih =>
    intro i hi
    rw [wordOfBytes, BitVec.getLsbD_or, BitVec.getLsbD_setWidth, BitVec.getLsbD_shiftLeft]
    by_cases h : i < 8
    · have h0 : i / 8 = 0 := by omega
      have h1 : i % 8 = i := by omega
      rw [h0, h1, List.getD_cons_zero]
      simp only [hi, h, decide_true, Bool.true_and, Bool.not_true, Bool.false_and, Bool.or_false]
    · have h0 : i / 8 = (i - 8) / 8 + 1 := by omega
      have h1 : i % 8 = (i - 8) % 8 := by omega
      rw [h0, h1, List.getD_cons_succ, ← ih (i - 8) (by omega)]
      simp only [hi, h, decide_true, decide_false, Bool.true_and, Bool.not_false]
      rw [BitVec.getLsbD_of_ge b i (by omega), Bool.false_or]

@[simp] theorem bytesOfWord_length (w : Word) : (bytesOfWord w).length = 8 := rfl

/-- The byte of a read at offset `8·idx + j` (R53). -/
theorem bytesOfWord_getElem? (w : Word) {j : Nat} (h : j < 8) : (bytesOfWord w)[j]? = some (byteOfWord w j) := by
  simp [bytesOfWord, h]

/-- Byte order is one for reads and writes: the bytes read from a register, written back, are its value (R53). -/
theorem wordOfBytes_bytesOfWord (w : Word) : wordOfBytes (bytesOfWord w) = w := by
  apply BitVec.eq_of_getLsbD_eq
  intro i hi
  have hj : i / 8 < 8 := by omega
  rw [wordOfBytes_getLsbD _ i hi, List.getD_eq_getElem?_getD, bytesOfWord_getElem? w hj, Option.getD_some, byteOfWord,
    BitVec.getLsbD_extractLsb', Nat.div_add_mod]
  simp [Nat.mod_lt]

/-- What a bus transaction leaves is what the same transaction at the word port leaves, its reply apart (R53). -/
theorem onBus_next {o : Host.Outcome State Fault Refusal} {u : State} (h : onBus o = .next u) :
    ∃ t, o = .next t ∧ u = { t with reply := busReply t.reply } := by
  cases o with
  | next t => cases h; exact ⟨t, rfl, rfl⟩
  | fault e => cases h
  | refused e => cases h

/-- Everything a step can do (20_memory.md R57): nothing, a transaction, a transaction over the bus, a refused bus access,
or reset. -/
theorem step_cases {s t : State} (h : step s = .next t) :
    (s.pending = [] ∧ t = s) ∨
      (∃ tw rest, s.pending = .transaction tw :: rest ∧
        exec (decode tw) { s with pending := rest, reply := .notDriven } = .next t) ∨
      (∃ access tw rest u, s.pending = .bus access :: rest ∧ bindAccess access = some tw ∧
        exec (decode tw) { s with pending := rest, reply := .notDriven } = .next u ∧
          t = { u with reply := busReply u.reply }) ∨
      (∃ access rest, s.pending = .bus access :: rest ∧ bindAccess access = none ∧
        t = { s with pending := rest, reply := .busError }) ∨
      (∃ rest, s.pending = .reset :: rest ∧ t = State.resetWith s.build s.drawn rest) := by
  unfold step at h
  rcases takeInput_cases s with ⟨hp, ht⟩ | ⟨input, rest, hp, ht⟩ <;> rw [ht] at h
  · cases h; exact .inl ⟨hp, rfl⟩
  · cases input with
    | transaction tw => exact .inr (.inl ⟨tw, rest, hp, h⟩)
    | reset => cases h; exact .inr (.inr (.inr (.inr ⟨rest, hp, rfl⟩)))
    | bus access =>
      simp only [deliver] at h
      cases hb : bindAccess access with
      | none => rw [hb] at h; cases h; exact .inr (.inr (.inr (.inl ⟨access, rest, hp, hb, rfl⟩)))
      | some tw =>
        rw [hb] at h
        obtain ⟨u, hu, rfl⟩ := onBus_next h
        exact .inr (.inr (.inl ⟨access, tw, rest, u, hp, hb, hu, rfl⟩))

/-- A word written to CMD that decodes runs the decoded command (45_host_system.md R166). -/
theorem startCommand_ok {cw : Word} {i : Instr} (h : decodeCommand cw = .ok i) (hr : ∀ idx, i ≠ .rd idx)
    (hw : ∀ idx v, i ≠ .wr idx v) (s : State) : startCommand cw s = exec i s := by
  cases i with
  | rd idx => exact absurd rfl (hr idx)
  | wr idx v => exact absurd rfl (hw idx v)
  | _ => simp only [startCommand, h, exec]

theorem startCommand_error {cw : Word} {e : IllegalWord} (h : decodeCommand cw = .error e) (s : State) :
    startCommand cw s = .next (illegalCommand cw s) := by
  simp only [startCommand, h]

end Sys2Proof.Machine
end

