-- ==== Sys2Proof/Laws/Script.lean ====
section
/-! SUPPORT. What each part of a host's script can do: the machine never stops, so every input issued, every read and every
line has a result. -/

namespace Sys2Proof.Machine

/-- Every instruction answers a next state. -/
theorem exec_next (i : Instr) (s : State) : ∃ t, exec i s = .next t := by
  cases i with
  | rd idx => simp only [exec, execRd]; split <;> exact ⟨_, rfl⟩
  | wr idx v =>
    simp only [exec, execWr]
    split
    · simp only [startCommand, execNop, execWmul, execSnum, execBdiv, execDelta, execClrf, execRef, execHchk, execHrunSmall,
        execHrunBoundary, execHrunRandom, execHrunSatedge, execHclr]
      split <;> exact ⟨_, rfl⟩
    · split <;> exact ⟨_, rfl⟩
  | _ => exact ⟨_, rfl⟩

/-- A read always answers a word (20_memory.md R57). -/
theorem exec_rd_reply (idx : Index) (s : State) : ∃ t w, exec (.rd idx) s = .next t ∧ t.reply = .data w := by
  simp only [exec, execRd]
  split <;> exact ⟨_, _, rfl, rfl⟩

/-- A transaction issued is the instruction it decodes to, whole (30_encoding.md R80). -/
theorem issue_transaction {tw : TxWord} {s t : State} :
    issue (.transaction tw) s = some t ↔ exec (decode tw) { s with reply := .notDriven } = .next t := by
  obtain ⟨u, hu⟩ := exec_next (decode tw) { s with reply := .notDriven }
  have h : step { s with pending := .transaction tw :: s.pending } = .next u := hu
  simp [issue, h, hu]

theorem issue_reset (s : State) : issue .reset s = some (State.resetWith s.build s.drawn s.pending) := rfl

/-- A write issued, whole (30_encoding.md R80). -/
theorem issueWr_iff {idx : Index} {v : Word} {s t : State} :
    issueWr idx v s = some t ↔ exec (decode (packTx true idx v)) { s with reply := .notDriven } = .next t :=
  issue_transaction

@[simp] theorem decode_read (idx : Index) : decode (packTx false idx 0#64) = .rd idx := by simp [decode]

/-- A read issued, whole: the state the read leaves and the word it replies (30_encoding.md R80). -/
theorem issueRd_iff {idx : Index} {w : Word} {s t : State} :
    issueRd idx s = some (w, t) ↔ exec (.rd idx) { s with reply := .notDriven } = .next t ∧ t.reply = .data w := by
  obtain ⟨u, x, hu, hx⟩ := exec_rd_reply idx { s with reply := .notDriven }
  have h : issue (.transaction (packTx false idx 0#64)) s = some u :=
    issue_transaction.2 (by rw [decode_read]; exact hu)
  have hr : issueRd idx s = some (x, u) := by simp only [issueRd, h, hx]
  rw [hr, hu]
  constructor
  · intro e; cases e; exact ⟨rfl, hx⟩
  · rintro ⟨e, ht⟩; cases e; rw [hx] at ht; cases ht; rfl

theorem issueRd_some (idx : Index) (s : State) : ∃ x, issueRd idx s = some x :=
  have ⟨t, w, ht, hw⟩ := exec_rd_reply idx { s with reply := .notDriven }
  ⟨(w, t), issueRd_iff.2 ⟨ht, hw⟩⟩

theorem issueWr_some (idx : Index) (v : Word) (s : State) : ∃ t, issueWr idx v s = some t :=
  have ⟨t, ht⟩ := exec_next (decode (packTx true idx v)) { s with reply := .notDriven }
  ⟨t, issueWr_iff.2 ht⟩

/-- Every line has a result (30_encoding.md R80, R81). -/
theorem ScriptLine.run_some (line : ScriptLine) (s : State) : ∃ x, line.run s = some x := by
  cases line with
  | wr idx v => obtain ⟨t, h⟩ := issueWr_some idx v s; exact ⟨_, by simp only [ScriptLine.run, h]; rfl⟩
  | rd idx => obtain ⟨x, h⟩ := issueRd_some idx s; exact ⟨_, by simp only [ScriptLine.run, h]; rfl⟩
  | command i =>
    obtain ⟨t, h⟩ := exec_next (decode (encode i)) { s with reply := .notDriven }
    exact ⟨_, by simp only [ScriptLine.run, issue_transaction.2 h]; rfl⟩
  | ldv a c p r =>
    obtain ⟨t1, h1⟩ := issueWr_some 0x00#6 a s
    obtain ⟨t2, h2⟩ := issueWr_some 0x01#6 c t1
    obtain ⟨t3, h3⟩ := issueWr_some 0x02#6 p t2
    obtain ⟨t4, h4⟩ := issueWr_some 0x03#6 r t3
    exact ⟨_, by simp only [ScriptLine.run, h1, h2, h3, h4, Option.bind_some]; rfl⟩
  | mov dst src =>
    obtain ⟨x, h1⟩ := issueRd_some src s
    obtain ⟨t, h2⟩ := issueWr_some dst x.1 x.2
    exact ⟨_, by simp only [ScriptLine.run, h1, h2, Option.bind_some]; rfl⟩
  | expect idx v => obtain ⟨x, h⟩ := issueRd_some idx s; exact ⟨_, by simp only [ScriptLine.run, h]; rfl⟩
  | reset => exact ⟨_, rfl⟩

end Sys2Proof.Machine
end

