-- ==== Sys2Proof/Laws/Units.lean ====
section
/-! SUPPORT. What `delta`, `ref`, `hcheck` and HRUN's loop do (43_delta.md R128 to R133, 44_oracle_harness.md R140 to R154). -/

namespace Sys2Proof.Machine

open Sys2Proof.Safety

/-- The domain test comes first (R134). -/
theorem delta_domain {a c p r : Word} (h : Config.rateMax < r) : delta a c p r = .error .domain := by
  rw [delta, if_pos h]

/-- The zero short-circuit, whatever `p` is (R132). -/
theorem delta_zero {a c p r : Word} (hr : r ≤ Config.rateMax) (h : a = 0#64 ∨ c = 0#64 ∨ r = 0#64) :
    delta a c p r = .ok { res := 0#64, zsc := true, clamp := false } := by
  rw [delta, if_neg (by rw [BitVec.lt_def, BitVec.le_def] at *; omega), if_pos h]

/-- R130: inside DELTA the early-saturation test never fires; the triple is the exact numerator. -/
theorem delta_snum {a c r : Word} (hr : r ≤ Config.rateMax) (ha : a ≠ 0#64) :
    let sn := snum (wmul a c).hi (wmul a c).lo r a
    sn.sat = false ∧ val3 sn.t.hi2 sn.t.hi1 sn.t.lo = a.toNat * c.toNat * r.toNat := by
  intro sn
  have hrn : r.toNat ≤ 10000 := by simpa [BitVec.le_def, Config.rateMax] using hr
  have hs : r.toNat < 2 ^ 14 := by omega
  obtain ⟨hv, _, hsat⟩ := snum_value (nh := (wmul a c).hi) (nl := (wmul a c).lo) (k := a) hs
  rw [wmul_value] at hv
  refine ⟨?_, hv⟩
  have han : 0 < a.toNat := Nat.pos_of_ne_zero fun h => ha (BitVec.eq_of_toNat_eq h)
  have hcr : c.toNat * r.toNat ≤ (2 ^ 64 - 1) * 10000 := Nat.mul_le_mul (by have := c.isLt; omega) hrn
  have hle : a.toNat * (c.toNat * r.toNat) ≤ a.toNat * ((2 ^ 64 - 1) * 10000) := Nat.mul_le_mul_left _ hcr
  rw [← Nat.mul_assoc, ← hv, val3] at hle
  rw [hsat, decide_eq_false_iff_not, BitVec.le_def]
  omega

/-- `p · 10000` (R125 D4) is the denominator, and is positive when `p` is. -/
theorem delta_den {p : Word} (hp : p ≠ 0#64) :
    val2 (wmul p Config.bpsDenom).hi (wmul p Config.bpsDenom).lo = p.toNat * 10000 ∧ 0 < p.toNat * 10000 := by
  have h : Config.bpsDenom.toNat = 10000 := rfl
  have hp0 : 0 < p.toNat := Nat.pos_of_ne_zero fun h => hp (BitVec.eq_of_toNat_eq h)
  exact ⟨by rw [wmul_value, h], by omega⟩

/-- The division-by-zero defect (R133). -/
theorem delta_div0 {a c r : Word} (hr : r ≤ Config.rateMax) (ha : a ≠ 0#64) (hc : c ≠ 0#64) (hr0 : r ≠ 0#64) :
    delta a c 0#64 r = .error .div0 := by
  rw [delta, if_neg (by rw [BitVec.lt_def, BitVec.le_def] at *; omega), if_neg (by simp [ha, hc, hr0])]
  simp [(delta_snum (c := c) hr ha).1]

/-- R128 and R131 past the short-circuit. -/
theorem delta_quotient {a c p r : Word} (hr : r ≤ Config.rateMax) (ha : a ≠ 0#64) (hc : c ≠ 0#64) (hr0 : r ≠ 0#64)
    (hp : p ≠ 0#64) :
    delta a c p r =
      .ok { res := BitVec.ofNat 64 (exactStake a.toNat c.toNat p.toNat r.toNat), zsc := false,
            clamp := decide (a.toNat ≤ a.toNat * c.toNat * r.toNat / (p.toNat * 10000)) } := by
  rw [delta, if_neg (by rw [BitVec.lt_def, BitVec.le_def] at *; omega), if_neg (by simp [ha, hc, hr0])]
  obtain ⟨hsat, hnum⟩ := delta_snum (c := c) hr ha
  obtain ⟨hden, hpos⟩ := delta_den hp
  simp only [hsat, if_false, Bool.false_eq_true, hp]
  rw [bdiv_value (by rw [hden]; exact hpos), hnum, hden]
  rfl

/-- What `delta` returns inside the compared domain (R128, R131, R132). -/
def deltaValue (a c p r : Word) : DeltaOut :=
  if a = 0#64 ∨ c = 0#64 ∨ r = 0#64 then { res := 0#64, zsc := true, clamp := false }
  else
    { res := BitVec.ofNat 64 (exactStake a.toNat c.toNat p.toNat r.toNat), zsc := false,
      clamp := decide (a.toNat ≤ a.toNat * c.toNat * r.toNat / (p.toNat * 10000)) }

theorem delta_value {a c p r : Word} (hr : r ≤ Config.rateMax) (hp : p ≠ 0#64) :
    delta a c p r = .ok (deltaValue a c p r) := by
  unfold deltaValue
  split
  · rename_i h; exact delta_zero hr h
  · rename_i h
    simp only [not_or] at h
    exact delta_quotient hr h.1 h.2.1 h.2.2 hp

/-- R128: the result is the formula's, the short-circuit included. -/
theorem deltaValue_res (a c p r : Word) :
    (deltaValue a c p r).res = BitVec.ofNat 64 (exactStake a.toNat c.toNat p.toNat r.toNat) := by
  unfold deltaValue
  split
  · rename_i h
    have hz : a.toNat * c.toNat * r.toNat = 0 := by rcases h with h | h | h <;> simp [h]
    rw [exactStake, hz]; simp
  · rfl

/-- The oracle's value (R140). -/
theorem ref_value {a c p r : Word} (hp : p ≠ 0#64) :
    ref a c p r = .ok (BitVec.ofNat 64 (exactStake a.toNat c.toNat p.toNat r.toNat)) := by
  rw [ref, if_neg hp]; rfl

/-- The state after a vector inside the domain has been checked: the assertion passes (R145, R154). -/
def checkedState (s : State) : State :=
  { writeDelta (deltaValue s.a s.c s.p s.r) s with
    refres := BitVec.ofNat 64 (exactStake s.a.toNat s.c.toNat s.p.toNat s.r.toNat), hcnt := countUp s.hcnt }

theorem hcheck_passes {s : State} (hr : s.r ≤ Config.rateMax) (hp : s.p ≠ 0#64) (cw : Word) :
    hcheck cw s = .ok (checkedState s) := by
  rw [hcheck, if_neg (by rw [BitVec.lt_def, BitVec.le_def] at *; omega), if_neg hp, delta_value hr hp]
  simp only [ref_value hp, hcompare, deltaValue_res, if_true]
  rfl

/-- The state after HRUN's loop over a list all of whose vectors are inside the domain. -/
def checkedRun (draws : Nat) : List Vec → State → State
  | [], s => s
  | v :: vs, s => checkedRun draws vs (checkedState (applyVec draws v s))

theorem hrun_passes (cw : Word) (draws : Nat) (vs : List Vec) :
    ∀ s : State, (∀ v ∈ vs, InDomain v) → hrun cw draws vs s = checkedRun draws vs s := by
  induction vs with
  | nil => intro s _; rfl
  | cons v vs ih =>
    intro s h
    have hv := h v List.mem_cons_self
    rw [hrun, hcheck_passes (s := applyVec draws v s) hv.1 hv.2]
    exact ih _ fun x hx => h x (List.mem_cons_of_mem v hx)

end Sys2Proof.Machine
end

