-- ==== Sys2Proof/Laws/Vectors.lean ====
section
/-! SUPPORT. The harness's lists: their members, their lengths, and that every vector is inside the compared domain
(44_oracle_harness.md R147 to R151). -/

namespace Sys2Proof.Machine

open Sys2Proof.Safety

theorem mem_vecGrid {as cs ps rs : List Word} {v : Vec} :
    v ∈ vecGrid as cs ps rs ↔ v.a ∈ as ∧ v.c ∈ cs ∧ v.p ∈ ps ∧ v.r ∈ rs := by
  simp only [vecGrid, List.mem_flatMap, List.mem_map]
  constructor
  · rintro ⟨a, ha, c, hc, p, hp, r, hr, rfl⟩; exact ⟨ha, hc, hp, hr⟩
  · rintro ⟨ha, hc, hp, hr⟩; exact ⟨_, ha, _, hc, _, hp, _, hr, rfl⟩

theorem vecGrid_length (as cs ps rs : List Word) :
    (vecGrid as cs ps rs).length = as.length * (cs.length * (ps.length * rs.length)) := by
  simp [vecGrid, List.length_flatMap]

theorem mem_wordsFrom {lo n : Nat} {w : Word} (h : lo + n ≤ 2 ^ 64) :
    w ∈ wordsFrom lo n ↔ lo ≤ w.toNat ∧ w.toNat < lo + n := by
  simp only [wordsFrom, List.mem_map, List.mem_range]
  constructor
  · rintro ⟨i, hi, rfl⟩
    rw [BitVec.toNat_ofNat, Nat.mod_eq_of_lt (by omega)]
    omega
  · rintro ⟨h1, h2⟩
    refine ⟨w.toNat - lo, by omega, ?_⟩
    rw [Nat.add_sub_cancel' h1]
    exact BitVec.ofNat_toNat _ _ |>.trans (by simp)

@[simp] theorem wordsFrom_length (lo n : Nat) : (wordsFrom lo n).length = n := by simp [wordsFrom]

theorem inDomain_iff (v : Vec) : InDomain v ↔ v.r.toNat ≤ 10000 ∧ 0 < v.p.toNat := by
  have h0 : v.p ≠ 0#64 ↔ v.p.toNat ≠ 0 := by
    rw [not_iff_not]; exact ⟨fun h => by rw [h]; rfl, fun h => BitVec.eq_of_toNat_eq h⟩
  rw [InDomain, h0, BitVec.le_def, Nat.pos_iff_ne_zero]
  rfl

theorem smallVectors_inDomain {n : Nat} (h : n ≤ 4999) : ∀ v ∈ smallVectors n, InDomain v := by
  intro v hv
  rw [smallVectors, mem_vecGrid, mem_wordsFrom (by omega), mem_wordsFrom (by omega), mem_wordsFrom (by omega),
    List.mem_append, mem_wordsFrom (by omega), mem_wordsFrom (by omega)] at hv
  rw [inDomain_iff]
  omega

theorem boundaryVectors_inDomain : ∀ v ∈ boundaryVectors, InDomain v := by
  intro v hv
  obtain ⟨_, _, hp, hr⟩ := mem_vecGrid.1 hv
  have hp' : boundaryWords.all (fun w => decide (0 < w.toNat)) = true := by decide +kernel
  have hr' : [0#64, 1#64, 2#64, 9999#64, 10000#64].all (fun w => decide (w.toNat ≤ 10000)) = true := by decide +kernel
  exact (inDomain_iff v).2 ⟨of_decide_eq_true (List.all_eq_true.1 hr' _ hr), of_decide_eq_true (List.all_eq_true.1 hp' _ hp)⟩

theorem satEdgeVectors_inDomain : ∀ v ∈ satEdgeVectors, InDomain v := by
  intro v hv
  simp only [satEdgeVectors, satEdgeTriple, List.mem_flatMap, List.mem_map] at hv
  obtain ⟨a, _, p, hp, r, hr, c, _, rfl⟩ := hv
  have hp' : ∀ x ∈ [1, 2, 5, 2 * 10 ^ 6, 2 ^ 32, 2 ^ 50], 0 < (BitVec.ofNat 64 x).toNat := by decide +kernel
  have hr' : ∀ x ∈ [1, 3, 500, 9999, 10000], (BitVec.ofNat 64 x).toNat ≤ 10000 := by decide +kernel
  exact (inDomain_iff _).2 ⟨hr' _ hr, hp' _ hp⟩

theorem randomVec_inDomain (d0 d1 d2 d3 : Word) : InDomain (randomVec d0 d1 d2 d3) := by
  rw [inDomain_iff]
  constructor
  · show (BitVec.umod d3 10001#64).toNat ≤ 10000
    have : (BitVec.umod d3 10001#64).toNat = d3.toNat % 10001 := BitVec.toNat_umod
    omega
  · show 0 < (if d2 = 0#64 then 1#64 else d2).toNat
    split
    · decide
    · rename_i h
      exact Nat.pos_of_ne_zero fun hc => h (BitVec.eq_of_toNat_eq hc)

theorem randomVectors_inDomain (stream : Nat → Word) (n : Nat) :
    ∀ start, ∀ v ∈ randomVectors stream start n, InDomain v := by
  induction n with
  | zero => intro start v hv; cases hv
  | succ n ih =>
    intro start v hv
    rcases List.mem_cons.1 hv with rfl | hv
    · exact randomVec_inDomain _ _ _ _
    · exact ih _ v hv

@[simp] theorem randomVectors_length (stream : Nat → Word) (n : Nat) :
    ∀ start, (randomVectors stream start n).length = n := by
  induction n with
  | zero => intro _; rfl
  | succ n ih => intro start; simp [randomVectors, ih]

end Sys2Proof.Machine
end

