-- ==== Sys2Proof/Tests/Slice0.lean ====
section
/-! SUPPORT. Tests. Expected values are those of 95_test_vectors.md, by table and row, or of the rule named. The second half
holds one witness for each statement that has hypotheses. -/

namespace Sys2Proof.Tests

open Sys2Proof Sys2Proof.Machine Sys2Proof.Safety

/-- The state after an instruction. -/
def after (i : Instr) (s : State) : Option State :=
  match exec i s with
  | .next t => some t
  | .fault _ => none
  | .refused _ => none

/-- The state after one step that takes the given transaction word. -/
def afterTx (tw : TxWord) (s : State) : Option State :=
  match step { s with pending := [.transaction tw] } with
  | .next t => some t
  | .fault _ => none
  | .refused _ => none

/-- `FAULT / CAUSE / FINFO`, the column "rec" of table V5. -/
def record (s : State) : Bool × Word × Word := (s.flag .fault, s.cause, s.finfo)

/-- After reset and `LDV`. -/
def ldv (a c p r : Word) : State := { State.reset with a := a, c := c, p := p, r := r, result := 0xDEAD#64 }

/-- After reset, an instance without the harness. -/
def bare : State := State.resetWith { harness := false, smallN := 8 } 0 []

/-- After reset, an instance with `SMALL_N = 1`. -/
def tiny : State := State.resetWith { harness := true, smallN := 1 } 0 []

/-- A recorded DIV0 of DELTA, V5 rows 26 to 31. -/
def bad : State := { State.reset with status := 1#64, cause := 1#64, finfo := 0x04#64 }

/-! ## Well-formedness -/

/-- The one check: a `WR` to CMD with a command's word is refused as a term, any other `WR` is not (R166). -/
theorem test_wf_refuses_command_as_write :
    (Instr.wr 0x1B#6 0x04#64).wf = false ∧ (Instr.wr 0x1B#6 0x10212#64).wf = false ∧
      (Instr.wr 0x1B#6 0x05#64).wf = true ∧ (Instr.wr 0x00#6 0x04#64).wf = true := by decide

/-! ## Encoding -/

/-- V7, the command rows: every command's constructor. -/
theorem test_decode_commands :
    decode 0x5B0000000000000000#71 = .nop ∧ decode 0x5B0000000000000001#71 = .wmul ∧
    decode 0x5B0000000000000002#71 = .snum ∧ decode 0x5B0000000000000003#71 = .bdiv ∧
    decode 0x5B0000000000000004#71 = .delta ∧ decode 0x5B000000000000000F#71 = .clrf ∧
    decode 0x5B0000000000000010#71 = .ref ∧ decode 0x5B0000000000000011#71 = .hchk ∧
    decode 0x5B0000000000000012#71 = .hrunSmall ∧ decode 0x5B0000000000000112#71 = .hrunBoundary ∧
    decode 0x5B0000000000000212#71 = .hrunRandom 0#32 ∧ decode 0x5B0000000000010212#71 = .hrunRandom 1#32 ∧
    decode 0x5B0000FFFFFFFF0212#71 = .hrunRandom 4294967295#32 ∧
    decode 0x5B0000000000000312#71 = .hrunSatedge ∧ decode 0x5B0000000000000013#71 = .hclr := by decide

/-- V7, the transaction rows. -/
theorem test_decode_transactions :
    decode 0x4000000000000F4240#71 = .wr 0x00#6 1000000#64 ∧ decode 0x4300000000000001F4#71 = .wr 0x03#6 500#64 ∧
    decode 0x4FFFFFFFFFFFFFFFFF#71 = .wr 0x0F#6 M64 ∧ decode 0x040000000000000000#71 = .rd 0x04#6 ∧
    decode 0x180000000000000000#71 = .rd 0x18#6 ∧ decode 0x270000000000000000#71 = .rd 0x27#6 := by decide

/-- R70, R71: the fields side by side, most significant first: `we`, `idx`, then `ZERO`, `N`, `CLS`, `OP`. -/
theorem test_decode_fields :
    decode (1#1 ++ 0b011011#6 ++ (0#16 ++ 1000#32 ++ 0x02#8 ++ 0x12#8)) = .hrunRandom 1000#32 ∧
    decode (1#1 ++ 0b011011#6 ++ (0#16 ++ 0#32 ++ 0x03#8 ++ 0x12#8)) = .hrunSatedge ∧
    decode (0#1 ++ 0b011011#6 ++ 0x04#64) = .rd 0x1B#6 := by decide

/-- V7 and R76: what the host asks of the decoder, by command word and by transaction word. -/
theorem test_decode_table_words :
    decodeTableWord 64 0x03E80212 = some (.hrunRandom 1000#32) ∧ decodeTableWord 64 0x0F = some .clrf ∧
    decodeTableWord 64 0x05 = none ∧ decodeTableWord 64 0x10012 = none ∧ decodeTableWord 64 0x0412 = none ∧
    decodeTableWord 72 0x4300000000000001F4 = some (.wr 0x03#6 500#64) ∧
    decodeTableWord 72 0x270000000000000000 = some (.rd 0x27#6) := by decide

/-! ## Commands -/

/-- V1 rows 11 and 12. -/
theorem test_wmul_largest_and_general :
    (after .wmul { State.reset with ma := M64, mb := M64 }).map (fun t => (t.mh, t.ml)) =
      some (0xFFFFFFFFFFFFFFFE#64, 0x0000000000000001#64) ∧
    (after .wmul { State.reset with ma := 0x123456789ABCDEF0#64, mb := 0x0FEDCBA987654321#64 }).map
      (fun t => (t.mh, t.ml)) = some (0x0121FA00AD77D742#64, 0x2236D88FE5618CF0#64) := by decide +kernel

/-- V2 rows 6 and 8: carries through all limbs; saturation at equality. -/
theorem test_snum_carries_and_saturates :
    (after .snum { State.reset with nh := 0x5555555555555555#64, nl := M64, s := 3#64, k := 5#64 }).map
      (fun t => (t.t2, t.t1, t.t0, t.flag .sat)) = some (1#64, 1#64, 0xFFFFFFFFFFFFFFFD#64, false) ∧
    (after .snum { State.reset with nh := M64, nl := M64, s := 16383#64, k := 16382#64 }).map
      (fun t => (t.t2, t.t1, t.t0, t.flag .sat)) = some (0x3FFE#64, M64, 0xFFFFFFFFFFFFC001#64, true) := by decide +kernel

/-- V2 row 15. -/
theorem test_snum_domain :
    (after .snum { State.reset with s := 16384#64, t2 := 7#64 }).map (fun t => (record t, t.t2)) =
      some ((true, 2#64, 0x02#64), 7#64) := by decide +kernel

/-- V3 rows 2, 3 and 20: the cap one above, at, and the guard bit. -/
theorem test_bdiv_caps :
    let s := { State.reset with t0 := 0x0000E35FA931A000#64, dl := 0x00000004A817C800#64 }
    (after .bdiv { s with k := 12501#64 }).map (fun t => (t.q, t.flag .cap)) = some (12500#64, false) ∧
    (after .bdiv { s with k := 12500#64 }).map (fun t => (t.q, t.flag .cap)) = some (12500#64, true) ∧
    (after .bdiv { State.reset with t1 := 0xFFFFFFFFFFFFFFFE#64, t0 := M64, dl := 1#64, k := M64 }).map
      (fun t => (t.q, t.flag .cap)) = some (M64, true) := by decide +kernel

/-- V3 rows 13 and 27: the remainder's carry bit; the zero test comes before `K = 0`. -/
theorem test_bdiv_carry_and_div0 :
    (after .bdiv { State.reset with t2 := M64, t1 := M64, t0 := M64, dh := M64, dl := M64, k := M64 }).map
      (fun t => (t.q, t.flag .cap)) = some (M64, true) ∧
    (after .bdiv { State.reset with q := 77#64 }).map (fun t => (record t, t.q)) =
      some ((true, 1#64, 0x03#64), 77#64) := by decide +kernel

/-- V4 rows 1 and 36. -/
theorem test_delta_exact :
    (after .delta (ldv 1000000#64 500000#64 2000000#64 500#64)).map (fun t => (t.result, t.status)) =
      some (12500#64, 0#64) ∧
    (after .delta (ldv 0xFEDCBA9876543210#64 0x0123456789ABCDEF#64 0x1111111111111111#64 1234#64)).map
      (fun t => (t.result, t.status)) = some (0x0218BF238EE9DB7F#64, 0#64) := by decide +kernel

/-- V4 rows 2, 7, 12 and 15: clamp, zero short-circuit before DIV0, DIV0, DOMAIN before both. -/
theorem test_delta_clamp_and_faults :
    (after .delta (ldv 0x8000000000000000#64 0x8000000000000000#64 1#64 10000#64)).map (fun t => (t.result, t.status)) =
      some (0x8000000000000000#64, 0x10#64) ∧
    (after .delta (ldv 0#64 0#64 0#64 0#64)).map (fun t => (t.result, t.status)) = some (0#64, 0x08#64) ∧
    (after .delta (ldv M64 M64 0#64 10000#64)).map (fun t => (t.result, record t)) =
      some (0xDEAD#64, (true, 1#64, 0x04#64)) ∧
    (after .delta (ldv 5#64 5#64 0#64 10001#64)).map (fun t => (t.result, record t)) =
      some (0xDEAD#64, (true, 2#64, 0x04#64)) := by decide +kernel

/-- V5 rows 30 and 31: under a fault NOP is refused, CLRF clears the record. -/
theorem test_nop_and_clrf : after .nop bad = some bad ∧ after .clrf bad = some State.reset := by decide +kernel

/-- V5 rows 21 and 25, and 95 V4 row 22's value by the oracle (R140). -/
theorem test_ref :
    (after .ref (ldv 0#64 5#64 0#64 5#64)).map record = some (true, 1#64, 0x10#64) ∧
    (after .ref (ldv 5#64 5#64 0#64 10001#64)).map record = some (true, 2#64, 0x10#64) ∧
    (after .ref (ldv 10#64 3#64 2#64 5000#64)).map State.refres = some 7#64 := by decide +kernel

/-- V5 rows 23 and 24; R145 on V4 row 22. -/
theorem test_hchk :
    (after .hchk (ldv 0#64 5#64 0#64 5#64)).map (fun t => (record t, t.hcnt)) = some ((true, 1#64, 0x11#64), 0#64) ∧
    (after .hchk (ldv 5#64 5#64 5#64 10001#64)).map record = some (true, 2#64, 0x11#64) ∧
    (after .hchk (ldv 10#64 3#64 2#64 5000#64)).map (fun t => (t.result, t.refres, t.hcnt, t.status)) =
      some (7#64, 7#64, 1#64, 0#64) := by decide +kernel

/-- V6, the row of SMALL with `SMALL_N = 1`: 16 vectors, the last (1, 1, 1, 10000), clamped. -/
theorem test_hrun_small :
    (after .hrunSmall tiny).map (fun t => (t.hcnt, t.a, t.c, t.p, t.r, t.result, t.status)) =
      some (16#64, 1#64, 1#64, 1#64, 10000#64, 1#64, 0x10#64) := by decide +kernel

/-- V6, the row of BOUNDARY: the first and last vector and the length. -/
theorem test_hrun_boundary_list :
    boundaryVectors.length = 6050 ∧ boundaryVectors.head? = some ⟨0#64, 0#64, 1#64, 0#64⟩ ∧
      boundaryVectors.getLast? = some ⟨M64, M64, M64, 10000#64⟩ := by decide +kernel

/-- V6, the rows of SATEDGE's vectors. -/
theorem test_hrun_satedge_list :
    satEdgeVectors.take 4 = [⟨1#64, 9999#64, 1#64, 1#64⟩, ⟨1#64, 10000#64, 1#64, 1#64⟩, ⟨1#64, 10001#64, 1#64, 1#64⟩,
      ⟨1#64, 3333#64, 1#64, 3#64⟩] ∧
    satEdgeVectors.drop 628 = [⟨M64, 0x4000000000000#64, 0x4000000000000#64, 10000#64⟩,
      ⟨M64, 0x4000000000001#64, 0x4000000000000#64, 10000#64⟩] := by decide +kernel

/-- V6, HRUN.RANDOM on the draws `1, 2, 3, …` and on `(M64, M64, 0, 30001)`. -/
theorem test_hrun_random_vectors :
    randomVectors (fun j => BitVec.ofNat 64 (j + 1)) 0 2 = [⟨1#64, 2#64, 3#64, 4#64⟩, ⟨5#64, 6#64, 7#64, 8#64⟩] ∧
    randomVec M64 M64 0#64 30001#64 = ⟨M64, M64, 1#64, 9999#64⟩ := by decide +kernel

/-- R147: `HRUN.RANDOM 0` writes nothing; V5 row 8 and R72: HRUN.RANDOM without the harness is illegal. -/
theorem test_hrun_random_zero_and_bare :
    after (.hrunRandom 0#32) State.reset = some State.reset ∧
    (after (.hrunRandom 3#32) bare).map record = some (true, 3#64, 0x30212#64) := by decide +kernel

/-- R153: the count and the captures go, REFRES and the flags stay. -/
theorem test_hclr :
    (after .hclr { State.reset with hcnt := 9#64, ha := 1#64, href := 2#64, refres := 3#64, status := 2#64 }).map
      (fun t => (t.hcnt, t.ha, t.href, t.refres, t.status)) = some (0#64, 0#64, 0#64, 3#64, 2#64) := by decide +kernel

/-! ## Transactions, step, reset -/

/-- V5 rows 9, 12 and 29. -/
theorem test_rd_forbidden :
    (after (.rd 0x21#6) bare).map (fun t => (record t, t.reply)) = some ((true, 4#64, 0x21#64), .data 0#64) ∧
    (after (.rd 0x1B#6) State.reset).map (fun t => (record t, t.reply)) = some ((true, 4#64, 0x1B#64), .data 0#64) ∧
    (after (.rd 0x05#6) bad).map (fun t => (record t, t.reply)) = some ((true, 1#64, 0x04#64), .data 0#64) := by
  decide +kernel

/-- V5 rows 13, 16, 17 and 28. -/
theorem test_wr :
    (after (.wr 0x18#6 0#64) State.reset).map record = some (true, 4#64, 0x58#64) ∧
    (after (.wr 0x16#6 1#64) State.reset).map record = some (true, 4#64, 0x56#64) ∧
    after (.wr 0x04#6 9#64) State.reset = some { State.reset with result := 9#64 } ∧
    after (.wr 0x00#6 9#64) bad = some { bad with a := 9#64 } := by decide +kernel

/-- V5 rows 3, 4, 6 and 26: illegal words, through the word port. -/
theorem test_illegal_words :
    (afterTx (packCommand 0x0000000100000004#64) State.reset).map record = some (true, 3#64, 0x0000000100000004#64) ∧
    (afterTx (packCommand 0x0001000000000000#64) State.reset).map record = some (true, 3#64, 0x0001000000000000#64) ∧
    (afterTx (packCommand 0x10012#64) State.reset).map record = some (true, 3#64, 0x10012#64) ∧
    (afterTx (packCommand 0x05#64) bad).map record = some (true, 1#64, 0x04#64) := by decide +kernel

/-- P1 line 5: DELTA's word at the port, taken from the place the host stores it. -/
theorem test_step_runs_table_word :
    (match step ((ldv 1000000#64 500000#64 2000000#64 500#64).withFetchWord 64 0x04) with
      | .next t => t.result == 12500#64 && t.pending.isEmpty
      | .fault _ => false
      | .refused _ => false) = true := by decide +kernel

/-- R53: byte order and the refusal of a narrow access. -/
theorem test_bus :
    bindAccess (.write 0x18 [0xF4#8, 0x01#8, 0#8, 0#8, 0#8, 0#8, 0#8, 0#8]) = some 0x4300000000000001F4#71 ∧
    bindAccess (.read 0xC0 8) = some 0x180000000000000000#71 ∧ bindAccess (.read 0xC0 4) = none ∧
    bindAccess (.read 0xC4 8) = none ∧ bindAccess (.read 0x200 8) = none := by decide

/-- R53: a bus read of RESULT answers its bytes, bits 7:0 at the lowest offset. -/
theorem test_bus_read :
    (match step { State.reset with result := 0x1122334455667788#64, pending := [.bus (.read 0x20 8)] } with
      | .next t => t.reply == .bytes [0x88#8, 0x77#8, 0x66#8, 0x55#8, 0x44#8, 0x33#8, 0x22#8, 0x11#8]
      | .fault _ => false
      | .refused _ => false) = true := by decide +kernel

/-- The start of P4 on an instance without the harness: its first `EXPECT` fails and the script goes on, to the HCHK that
faults (30 R81). -/
theorem test_failed_expect_goes_on :
    (runScript [.expect 0x1C#6 1#64, .ldv 5#64 5#64 1#64 1#64, .command .hchk] bare).map
      (fun x => (x.passed, record x.block, x.block.a)) = some (false, (true, 3#64, 0x11#64), 5#64) := by decide +kernel

/-- R39: CONFIG reads HARNESS after reset. -/
theorem test_reset_config :
    State.reset.reg .config = 1#64 ∧ bare.reg .config = 0#64 ∧ State.reset.reg .status = 0#64 := by decide

/-! ## Witnesses: a state and operands that meet each statement's hypotheses -/

/-- A well-formed instruction; a write word and a read word. -/
theorem witness_DecodeEncodeAgree :
    (Instr.hrunRandom 4294967295#32).wf = true ∧ txWe (packTx true 0x3F#6 M64) = true ∧
      txWe (packTx false 0x3F#6 M64) = false := by decide

/-- Each clause of R76, at the edge of its field. -/
theorem witness_IllegalWordsFaultAndOthersRun :
    Executing State.reset ∧ IllegalIn true 0x05#64 ∧ IllegalIn true 0x14#64 ∧ IllegalIn true 0x0001000000000000#64 ∧
      IllegalIn true 0x0000000000010004#64 ∧ IllegalIn true 0x0412#64 ∧ IllegalIn true 0x10112#64 ∧
      IllegalIn false 0x13#64 ∧ ¬ IllegalIn true 0x0312#64 ∧ ¬ IllegalIn true 0x0000FFFFFFFF0212#64 ∧
      ¬ IllegalIn false 0x0F#64 := by
  refine ⟨?_, ?_, ?_, ?_, ?_, ?_, ?_, ?_, ?_, ?_, ?_⟩ <;> first | unfold Executing; decide | unfold IllegalIn; decide

theorem witness_StepRunsDecodedTransaction :
    ({ State.reset with pending := [.transaction (packCommand 0x04#64), .reset] }).pending =
      .transaction (packCommand 0x04#64) :: [.reset] ∧ State.reset.pending = [] := by decide

/-- The last register of the window, the bytes of a write, and every way of missing the window. -/
theorem witness_DefaultBusBinding :
    8 * (0x3F#6).toNat = 504 ∧ ([1, 2, 3, 4, 5, 6, 7, 8] : List (BitVec 8)).length = 8 ∧
      ({ State.reset with pending := [.bus (.read (8 * (0x3F#6).toNat) 8)] }).pending =
        .bus (.read (8 * (0x3F#6).toNat) 8) :: [] ∧
      ({ State.reset with pending := [.bus (.write (8 * (0x00#6).toNat) [1, 2, 3, 4, 5, 6, 7, 8])] }).pending =
        .bus (.write (8 * (0x00#6).toNat) [1, 2, 3, 4, 5, 6, 7, 8]) :: [] ∧
      ({ State.reset with pending := [.bus (.read 512 8)] }).pending = .bus (.read 512 8) :: [] ∧ 504 < 512 ∧
      ({ State.reset with pending := [.bus (.write 500 [1, 2])] }).pending = .bus (.write 500 [1, 2]) :: [] ∧
      ([1, 2] : List (BitVec 8)).length ≠ 8 ∧ 500 % 8 ≠ 0 := by decide

/-- A command's word and a reserved one, and a register outside DELTA's list. -/
theorem witness_CommandWriteAlwaysCompletes :
    decodeCommand 0x04#64 = .ok .delta ∧ decodeCommand 0x05#64 = .error .reservedOp ∧ Reg.a ∉ mayWrite .delta ∧
      Reg.a ∉ [Reg.status, .cause, .finfo] := by decide

/-- Commands run after reset and not while a fault is recorded; for NopRule, WmulRule and ClrfRule. -/
theorem witness_WmulRule : Executing State.reset ∧ ¬ Executing bad := by unfold Executing; decide

theorem witness_ClrfRule : Executing State.reset ∧ RecordWhole State.reset ∧ ¬ Executing bad ∧ 0x04#64 ≠ 0x0F#64 := by
  unfold Executing RecordWhole; decide

theorem witness_WmulLaws :
    1 ≤ 1 ∧ 1 ≤ 63 ∧ 63 ≤ 63 ∧ (wmul M64 2#64).hi ≠ 0#64 ∧ (0x3FFF#64).toNat < 2 ^ 14 := by decide

/-- `S` on both sides of R105's limit. -/
theorem witness_SnumRule :
    Executing { State.reset with s := 16383#64 } ∧ ({ State.reset with s := 16383#64 }).s.toNat < 2 ^ 14 ∧
      Executing { State.reset with s := 16384#64 } ∧ 2 ^ 14 ≤ ({ State.reset with s := 16384#64 }).s.toNat ∧
      ¬ Executing bad := by unfold Executing; decide

/-- A state in which SNUM reports saturation, and a non-zero denominator (V2 row 8, V3 row 13). -/
theorem witness_SaturationReportSound :
    let s := { State.reset with nh := M64, nl := M64, s := 16383#64, k := 16382#64 }
    Executing s ∧ s.s.toNat < 2 ^ 14 ∧ (after .snum s).map (fun t => t.flag .sat) = some true ∧ val2 M64 M64 ≠ 0 := by
  unfold Executing; decide +kernel

theorem witness_SnumCornerCases :
    (16383#64).toNat < 2 ^ 14 ∧ 16383 < (16384#64).toNat ∧ 1#64 ≠ 0#64 ∧ (10000#64).toNat ≤ 10000 := by decide

/-- `K` at the quotient and one above it, both divisor forms (V3 rows 2, 3, 15, 26). -/
theorem witness_BdivRule :
    let s := { State.reset with t0 := 12500#64, dl := 1#64, k := 12500#64 }
    Executing s ∧ val2 s.dh s.dl ≠ 0 ∧ s.k.toNat ≤ val3 s.t2 s.t1 s.t0 / val2 s.dh s.dl ∧
      ¬ ({ s with k := 12501#64 }).k.toNat ≤ val3 s.t2 s.t1 s.t0 / val2 s.dh s.dl ∧
      val2 (0x8000000000000000#64) 0#64 ≠ 0 ∧ Executing State.reset ∧ State.reset.dh = 0#64 ∧ State.reset.dl = 0#64 ∧
      ¬ Executing bad := by unfold Executing; decide

theorem witness_DeltaIntermediatesFit :
    1 ≤ (1#64).toNat ∧ 1 ≤ (10000#64).toNat ∧ (10000#64).toNat ≤ 10000 ∧ 1 ≤ M64.toNat := by decide

/-- One state for each clause: refused, R one too large, each zero operand, P zero, below and at the clamp. -/
theorem witness_DeltaRule :
    ¬ Executing bad ∧ Executing (ldv 5#64 5#64 5#64 10001#64) ∧ 10000 < (ldv 5#64 5#64 5#64 10001#64).r.toNat ∧
      (ldv 0#64 5#64 0#64 10000#64).a = 0#64 ∧ (ldv 5#64 0#64 0#64 5#64).c = 0#64 ∧ (ldv 5#64 5#64 0#64 0#64).r = 0#64 ∧
      (ldv 5#64 5#64 0#64 10000#64).r.toNat ≤ 10000 ∧ (ldv 5#64 5#64 0#64 10000#64).a ≠ 0#64 ∧
      (ldv 5#64 5#64 0#64 10000#64).c ≠ 0#64 ∧ (ldv 5#64 5#64 0#64 10000#64).r ≠ 0#64 ∧
      (ldv 5#64 5#64 0#64 10000#64).p = 0#64 ∧ (ldv 1#64 1#64 1#64 9999#64).p ≠ 0#64 ∧
      ¬ (1 * 1 * 10000 ≤ 1 * 1 * 9999) ∧ 1 * 1 * 10000 ≤ 1 * 1 * 10000 := by unfold Executing; decide

theorem witness_DeltaMeetsContract :
    let s := ldv M64 M64 M64 10000#64
    Executing s ∧ s.p ≠ 0#64 ∧ s.r.toNat ≤ 10000 := by unfold Executing; decide

/-- V4 rows 17 and 18: CLAMP set at the tie and clear just below; and a zero operand. -/
theorem witness_ClampSaysSaturation :
    let s := ldv 1#64 1#64 1#64 10000#64
    Executing s ∧ s.r.toNat ≤ 10000 ∧ s.a ≠ 0#64 ∧ s.c ≠ 0#64 ∧ s.r ≠ 0#64 ∧ s.p ≠ 0#64 ∧
      (after .delta s).map (fun t => t.flag .clamp) = some true ∧
      (after .delta { s with r := 9999#64 }).map (fun t => t.flag .clamp) = some false ∧ ({ s with a := 0#64 }).a = 0#64 := by
  unfold Executing; decide +kernel

/-- Two states ordered in `C` and `R`; two equal in the four inputs and different elsewhere; one on which DELTA faults. -/
theorem witness_DeltaBoundedMonotoneDetermined :
    let s := ldv 10#64 3#64 2#64 6666#64
    let s' := { ldv 10#64 4#64 2#64 10000#64 with status := 0x1E#64 }
    Executing s ∧ Executing s' ∧ s.p ≠ 0#64 ∧ s'.a = s.a ∧ s'.p = s.p ∧ s'.r.toNat ≤ 10000 ∧ s.c ≤ s'.c ∧ s.r ≤ s'.r ∧
      Executing { s' with c := 3#64, r := 6666#64 } ∧ ({ s' with c := 3#64, r := 6666#64 }).c = s.c ∧
      (after .delta s).map (fun t => t.flag .fault) = some false ∧
      (after .delta { s with p := 0#64 }).map (fun t => t.flag .fault) = some true := by
  unfold Executing; decide +kernel

/-- Every clause of REF, HCHK and the oracle's: refused, no harness, R one too large, P zero, R at the limit. -/
theorem witness_RefRule :
    ¬ Executing bad ∧ Executing bare ∧ bare.build.harness = false ∧ Executing (ldv 5#64 5#64 5#64 10001#64) ∧
      (ldv 5#64 5#64 5#64 10001#64).build.harness = true ∧ 10000 < (ldv 5#64 5#64 5#64 10001#64).r.toNat ∧
      (ldv 5#64 5#64 0#64 10000#64).r.toNat ≤ 10000 ∧ (ldv 5#64 5#64 0#64 10000#64).p = 0#64 ∧
      (ldv 5#64 5#64 1#64 10000#64).p ≠ 0#64 := by unfold Executing; decide

theorem witness_HchkRule :
    Executing (ldv 5#64 5#64 1#64 10000#64) ∧ (ldv 5#64 5#64 1#64 10000#64).build.harness = true ∧
      (ldv 5#64 5#64 1#64 10000#64).r.toNat ≤ 10000 ∧ (ldv 5#64 5#64 1#64 10000#64).p ≠ 0#64 ∧
      (ldv 5#64 5#64 0#64 10000#64).p = 0#64 ∧ 10000 < (ldv 5#64 5#64 1#64 10001#64).r.toNat ∧
      Executing bare ∧ bare.build.harness = false ∧ ¬ Executing bad := by unfold Executing; decide

/-- `P ≠ 0`; `P = 0` with DELTA faulting and with DELTA answering 0 (V5 rows 19 and 22). -/
theorem witness_OracleAgreesOffZeroDivisor :
    Executing (ldv 5#64 5#64 1#64 10000#64) ∧ (ldv 5#64 5#64 1#64 10000#64).build.harness = true ∧
      (ldv 5#64 5#64 1#64 10000#64).r.toNat ≤ 10000 ∧ (ldv 5#64 5#64 0#64 5#64).p = 0#64 ∧
      (after .delta (ldv 0#64 5#64 0#64 5#64)).map (fun t => t.flag .fault) = some false ∧
      (after .delta (ldv 5#64 5#64 0#64 5#64)).map (fun t => t.flag .fault) = some true := by
  unfold Executing; decide +kernel

theorem witness_MismatchIsCaptured :
    Executing State.reset ∧ (⟨5#64, false, true⟩ : DeltaOut).res ≠ 6#64 ∧ (⟨5#64, false, true⟩ : DeltaOut).res = 5#64 ∧
      ¬ M64.toNat + 1 ≤ 2 ^ 64 - 1 := by unfold Executing; decide

theorem witness_FirstMismatchIsKept :
    Executing State.reset ∧ (⟨5#64, false, true⟩ : DeltaOut).res ≠ 6#64 ∧ (⟨0#64, true, false⟩ : DeltaOut).res ≠ M64 := by
  unfold Executing; decide

/-- Instances at both ends of R8's range. -/
theorem witness_HrunSmallRule :
    Executing tiny ∧ tiny.build.harness = true ∧ tiny.build.wf ∧
      Executing (State.resetWith ⟨true, 4999⟩ 0 []) ∧ (State.resetWith ⟨true, 4999⟩ 0 []).build.wf := by
  unfold Executing; decide

theorem witness_HrunBoundaryRule : Executing State.reset ∧ State.reset.build.harness = true := by unfold Executing; decide

theorem witness_HrunSatedgeRule : Executing { State.reset with hcnt := M64 } ∧ State.reset.build.harness = true := by
  unfold Executing; decide

theorem witness_HrunRandomRule :
    Executing State.reset ∧ State.reset.build.harness = true ∧ 0#32 = 0#32 ∧ 4294967295#32 ≠ 0#32 := by
  unfold Executing; decide

theorem witness_HrunGate :
    ((Instr.hrunRandom 7#32, BitVec.ofNat 64 (0x212 + (7#32).toNat * 2 ^ 16)) : Instr × Word) ∈
      [(Instr.hrunSmall, 0x12#64), (Instr.hrunBoundary, 0x112#64), (Instr.hrunSatedge, 0x312#64),
        (Instr.hrunRandom 7#32, BitVec.ofNat 64 (0x212 + (7#32).toNat * 2 ^ 16))] ∧
      ¬ Executing bad ∧ Executing bare ∧ bare.build.harness = false := by unfold Executing; decide

theorem witness_HarnessIsComplete :
    Executing State.reset ∧ State.reset.build.harness = true ∧ State.reset.build.smallN = 8 ∧
      [Instr.hrunSatedge, .hrunSmall, .hrunBoundary, .hrunRandom 1000#32].Perm
        [.hrunSmall, .hrunBoundary, .hrunRandom 1000#32, .hrunSatedge] := by unfold Executing; decide

theorem witness_SmallClassIsExhaustive : 1 ≤ 1 ∧ 1 ≤ 4999 ∧ 4999 ≤ 4999 := by decide

/-- Members below, at and above the edge; and one whose edge is a tie. -/
theorem witness_SatedgeClassIsTheBoundary :
    (satEdgeVectors.contains ⟨1#64, 3333#64, 1#64, 3#64⟩ && satEdgeVectors.contains ⟨1#64, 3334#64, 1#64, 3#64⟩ &&
      satEdgeVectors.contains ⟨1#64, 3335#64, 1#64, 3#64⟩ && satEdgeVectors.contains ⟨1#64, 0#64, 1#64, 10000#64⟩ &&
      decide (satEdgeC 1 3 = 3334) && decide (satEdgeC 1 10000 = 1)) = true := by decide +kernel

theorem witness_HclrRule :
    Executing State.reset ∧ State.reset.build.harness = true ∧ Executing bare ∧ bare.build.harness = false ∧
      ¬ Executing bad := by unfold Executing; decide

theorem witness_AddressMap : Reg.ofIndex false 0x1C#6 = some .config := by decide

/-- A readable index, the ends of the unmapped ranges, CMD, and a harness index without the harness. -/
theorem witness_RdRule :
    Reg.ofIndex true 0x27#6 = some .href ∧ Reg.href ≠ .cmd ∧ accessAt true 0x05#6 = none ∧ accessAt true 0x3F#6 = none ∧
      accessAt true 0x28#6 = none ∧ accessAt false 0x20#6 = none ∧ Executing State.reset ∧ ¬ Executing bad := by
  unfold Executing; decide

theorem witness_WrRule :
    Reg.ofIndex true 0x15#6 = some .q ∧ Reg.q.access = .readWrite ∧ accessAt true 0x16#6 = none ∧
      accessAt true 0x18#6 = some .readOnly ∧ decodeCommand 0x13#64 = .ok .hclr ∧
      decodeCommand 0x14#64 = .error .reservedOp ∧ Executing State.reset ∧ ¬ Executing bad := by
  unfold Executing; decide

theorem witness_ReadReturnsLatestWrite : Reg.result.access = .readWrite ∧ Reg.a ≠ Reg.result := by decide

theorem witness_PseudoInstructionsExpand :
    Reg.ofIndex true 0x0C#6 = some .nh ∧ Reg.nh.access = .readWrite ∧ Reg.ofIndex true 0x0A#6 = some .mh ∧
      Reg.mh ≠ .cmd := by decide

/-- A fault expected and none expected, of each cause a well-formed instruction can raise (R171 to R174). -/
theorem witness_FaultsAreExpectedAndPrecise :
    State.reset.build.wf ∧ Executing State.reset ∧ Instr.wf (.wr 0x1B#6 0x05#64) = true ∧
      expectedFault .bdiv State.reset = some (1#64, 0x03#64) ∧
      expectedFault .hchk (ldv 5#64 5#64 5#64 10001#64) = some (2#64, 0x11#64) ∧
      expectedFault (.wr 0x1B#6 0x05#64) State.reset = some (3#64, 0x05#64) ∧
      expectedFault (.rd 0x1B#6) State.reset = some (4#64, 0x1B#64) ∧ expectedFault .hrunSatedge State.reset = none := by
  unfold Executing; decide

theorem witness_RecordedFaultGatesCommands :
    bad.flag .fault = true ∧ 0x04#64 ≠ 0x0F#64 ∧ Reg.ofIndex bad.build.harness Reg.cause.index = some .cause ∧
      Reg.cause ≠ .cmd ∧ Reg.a.access = .readWrite ∧ Instr.wf .delta = true ∧ Instr.delta ≠ .clrf ∧
      accessAt true 0x3F#6 = none ∧ accessAt true 0x1C#6 = some .readOnly ∧
      ({ bad with pending := [.reset] }).flag .fault = true ∧ ({ bad with pending := [.reset] }).pending = .reset :: [] := by
  decide

/-- A script of every kind of line but `RESET`, a `WR` to CMD and a failed `EXPECT` among them, that ends with no fault. -/
theorem witness_CleanScriptRanEveryLine :
    let lines := [ScriptLine.ldv 5#64 4#64 2#64 1#64, .command .delta, .expect 0x04#6 7#64, .mov 0x08#6 0x04#6, .rd 0x18#6,
      .wr 0x1B#6 0x01#64]
    endsWithoutFault lines State.reset = true ∧
      (∀ x ∈ issuedIn lines State.reset, x.1.clearsRecord x.2 = false) ∧ Instr.wf .delta = true ∧
      ScriptLine.clearsRecord (.wr 0x1B#6 0x0F#64) State.reset = true := by decide +kernel

/-- A well-formed instruction of each frame; for FrameOfEveryInstruction and NoHiddenInputs too. -/
theorem witness_FlagWritersAreListed :
    (Instr.hrunRandom 2#32).wf = true ∧ mayWriteFlag .sat (.hrunRandom 2#32) = false ∧ Flag.sat ≠ .fault ∧
      bad.flag .fault = true ∧ bad.status.toNat < 32 ∧ Instr.delta ≠ .clrf := by decide

theorem witness_FrameOfEveryInstruction :
    (Instr.wr 0x15#6 5#64).wf = true ∧ Reg.q ∈ mayWrite (.wr 0x15#6 5#64) ∧ Reg.k ∉ mayWrite (.wr 0x15#6 5#64) ∧
      Reg.k ∉ [Reg.status, .cause, .finfo] := by decide

theorem witness_NoHiddenInputs : (Instr.rd 0x3F#6).wf = true ∧ (Instr.hrunRandom 2#32).wf = true := by decide

theorem witness_CommandsMayBeReissued :
    Instr.hclr ∈ [Instr.wmul, .snum, .bdiv, .delta, .ref, .hclr, .clrf, .nop] ∧
      Executing { State.reset with s := 16383#64, dl := 1#64 } ∧
      ({ State.reset with s := 16383#64, dl := 1#64 }).s.toNat < 2 ^ 14 ∧ val2 0#64 1#64 ≠ 0 := by
  unfold Executing; decide

/-- A state with a recorded fault in the right form, about to take CLRF. -/
theorem witness_StepKeepsRecordForm :
    RecordForm { bad with pending := [.transaction (packCommand 0x0F#64)] } ∧
      (afterTx (packCommand 0x0F#64) bad).map record = some (false, 0#64, 0#64) := by
  unfold RecordForm ReservedReadZero RecordWhole InfoFits HarnessAbsent; decide +kernel

/-- The harness counts an agreeing vector and captures nothing (R145). -/
theorem witness_StepNeverMismatches :
    (ldv 10#64 3#64 2#64 5000#64).build.wf ∧ NoMismatch (ldv 10#64 3#64 2#64 5000#64) ∧
      (afterTx (packCommand 0x11#64) (ldv 10#64 3#64 2#64 5000#64)).map State.hcnt = some 1#64 := by
  unfold NoMismatch; decide +kernel

theorem witness_ResetStartsInvariants : Config.testbench.wf ∧ ({ harness := false, smallN := 4999 } : Config.Build).wf := by
  decide

theorem witness_ResetSetsEveryRegister :
    ({ bad with a := 7#64, pending := [.reset, .reset] }).pending = .reset :: [.reset] ∧ Reg.a ≠ .config := by decide

theorem witness_CommandsAfterReset : ({ harness := true, smallN := 8 } : Config.Build).harness = true := by decide

theorem witness_SequencerRunsBdiv : Executing { State.reset with dl := 1#64, k := 5#64, t0 := 5#64 } := by
  unfold Executing; decide

theorem witness_SequencerRunsDelta : Executing (ldv 1000000#64 500000#64 2000000#64 500#64) := by unfold Executing; decide

/-- V3 row 10 after its first and after its last bit-step. -/
theorem witness_DivisionLoopInvariant :
    let s := { State.reset with t0 := 7#64, dl := 7#64, k := 2#64 }
    val2 s.dh s.dl ≠ 0 ∧ s.k ≠ 0#64 ∧ (seqRun 2 (seqStart .bdiv s)).phase = .b1 ∧
      (seqRun 193 (seqStart .bdiv s)).st.flag .cap = false ∧ (seqRun 193 (seqStart .bdiv s)).phase = .idle := by
  decide +kernel

end Sys2Proof.Tests
end

section
/-! The family 00_scope.md: DELTA against the public contract (R3). -/

namespace Sys2Proof.Machine

open Sys2Proof.Safety

/-- DELTA's report writes ZSC and CLAMP and no other field of STATUS (43_delta.md R126). -/
theorem writeDelta_flag (out : DeltaOut) (s : State) {f : Flag} (hz : f ≠ .zsc) (hc : f ≠ .clamp) :
    (writeDelta out s).flag f = s.flag f := by
  rw [writeDelta, flag_setFlag_ne _ _ hc.symm, flag_setFlag_ne _ _ hz.symm]
  rfl

/-- The formula's value is at most `a`, so RESULT holds it whole (00_scope.md R3). -/
theorem ofNat_exactStake_toNat (a : Word) (c p r : Nat) :
    (BitVec.ofNat 64 (exactStake a.toNat c p r)).toNat = exactStake a.toNat c p r :=
  (BitVec.toNat_ofNat _ _).trans (Nat.mod_eq_of_lt ((Nat.min_le_left _ _).trans_lt a.isLt))

/-- DELTA inside the compared domain with no fault recorded, the short-circuit included (43_delta.md R126, R128). -/
theorem exec_delta_inDomain {s : State} (he : Executing s) (hr : s.r ≤ Config.rateMax) (hp : s.p ≠ 0#64) :
    exec .delta s = .next (writeDelta (deltaValue s.a s.c s.p s.r) s) :=
  calc exec .delta s
    _ = .next (runCommand cwDelta false deltaEffect s) := rfl
    _ = .next (deltaEffect s) := by rw [runCommand_executes he]
    _ = .next (writeDelta (deltaValue s.a s.c s.p s.r) s) := by rw [deltaEffect, delta_value hr hp]

/-- Settles O18: inside the domain DELTA writes the value of R128, which fits in RESULT, and leaves FAULT as it was. -/
theorem deltaMeetsContract : Obligations.DeltaMeetsContract := by
  intro s he hp hr
  refine ⟨_, exec_delta_inDomain he (BitVec.le_def.mpr hr) hp, ?_, ?_⟩
  · exact (writeDelta_flag _ s (by decide) (by decide)).trans he
  · rw [writeDelta_result, deltaValue_res, ofNat_exactStake_toNat]
    rfl

end Sys2Proof.Machine
end

section
/-! The family 10_state.md, its layer: the state every well-formed instruction leaves, named once. -/

namespace Sys2Proof.Machine

open Sys2Proof.Safety

/-- A register of the map stands at its own index (20_memory.md R59). -/
theorem index_of_ofIndex {h : Bool} {idx : Index} {g : Reg} (hg : Reg.ofIndex h idx = some g) : g.index = idx := by
  have hall : ∀ (b : Bool) (x : Index), ∀ f ∈ Reg.ofIndex b x, f.index = x := by decide
  exact hall h idx g hg

theorem index_of_writableAt {h : Bool} {idx : Index} {g : Reg} (hw : Reg.writableAt h idx = some g) :
    g.index = idx := by
  unfold Reg.writableAt at hw
  split at hw
  · next f hf =>
    split at hw
    · cases hw; exact index_of_ofIndex hf
    · cases hw
  · cases hw

/-- A data register is readable and writable at its index, with or without the harness, and is not CMD (R59). -/
theorem dataReg_at_index (h : Bool) {g : Reg} (hg : g.access = .readWrite) :
    Reg.readableAt h g.index = some g ∧ Reg.writableAt h g.index = some g ∧ g.index ≠ cmdIndex := by
  cases g <;> cases hg <;> exact ⟨rfl, rfl, by decide⟩

/-- Every transaction decodes to a well-formed instruction (30_encoding.md R70, R72). -/
theorem decode_wf (tw : TxWord) : (decode tw).wf = true := by
  unfold decode
  split
  · split
    · split
      · next i hi => exact (decodeCommand_encode hi).2
      · next e he =>
        have hl : isLegalCommandWord (txData tw) = false := by
          rw [← Bool.not_eq_true, ← decodeCommand_ok_iff]
          rintro ⟨i, hi⟩
          rw [hi] at he
          cases he
        simp [Instr.wf, hl]
    · next hne => simp [Instr.wf, hne]
  · rfl

/-- The reply is no register (30_encoding.md R70). -/
@[simp] theorem reg_withReply (s : State) (rp : Reply) (g : Reg) : { s with reply := rp }.reg g = s.reg g := by
  cases g <;> rfl

/-- The state RD leaves (45_host_system.md R160). -/
def readEffect (idx : Index) (s : State) : State :=
  match Reg.readableAt s.build.harness idx with
  | some g => { s with reply := .data (s.reg g) }
  | none => { raiseFault .access (accessInfo false idx) s with reply := .data 0#64 }

/-- The state WR leaves when its data is no command's word (45_host_system.md R161, R166). -/
def writeEffect (idx : Index) (v : Word) (s : State) : State :=
  if idx = cmdIndex then illegalCommand v s
  else
    match Reg.writableAt s.build.harness idx with
    | some g => s.writeReg g v
    | none => raiseFault .access (accessInfo true idx) s

/-- Everything RD can do. -/
theorem readEffect_cases (idx : Index) (s : State) :
    (∃ g, Reg.readableAt s.build.harness idx = some g ∧ readEffect idx s = { s with reply := .data (s.reg g) }) ∨
      (Reg.readableAt s.build.harness idx = none ∧
        readEffect idx s = { raiseFault .access (accessInfo false idx) s with reply := .data 0#64 }) := by
  cases h : Reg.readableAt s.build.harness idx with
  | some g => exact .inl ⟨g, rfl, by simp only [readEffect, h]⟩
  | none => exact .inr ⟨rfl, by simp only [readEffect, h]⟩

/-- Everything a WR that starts no command can do. -/
theorem writeEffect_cases (idx : Index) (v : Word) (s : State) :
    (idx = cmdIndex ∧ writeEffect idx v s = illegalCommand v s) ∨
      (∃ g, idx ≠ cmdIndex ∧ Reg.writableAt s.build.harness idx = some g ∧ writeEffect idx v s = s.writeReg g v) ∨
      (idx ≠ cmdIndex ∧ Reg.writableAt s.build.harness idx = none ∧
        writeEffect idx v s = raiseFault .access (accessInfo true idx) s) := by
  by_cases hi : idx = cmdIndex
  · exact .inl ⟨hi, by rw [writeEffect, if_pos hi]⟩
  · cases h : Reg.writableAt s.build.harness idx with
    | some g => exact .inr (.inl ⟨g, hi, rfl, by simp only [writeEffect, if_neg hi, h]⟩)
    | none => exact .inr (.inr ⟨hi, rfl, by simp only [writeEffect, if_neg hi, h]⟩)

/-- The state a well-formed instruction leaves. -/
def effectOf : Instr → State → State
  | .nop => runCommand cwNop false id
  | .wmul => runCommand cwWmul false wmulEffect
  | .snum => runCommand cwSnum false snumEffect
  | .bdiv => runCommand cwBdiv false bdivEffect
  | .delta => runCommand cwDelta false deltaEffect
  | .clrf => clearFault
  | .ref => runCommand cwRef true refEffect
  | .hchk => runCommand cwHchk true hchkEffect
  | .hrunSmall => runCommand cwHrunSmall true hrunSmallEffect
  | .hrunBoundary => runCommand cwHrunBoundary true hrunBoundaryEffect
  | .hrunRandom n => runCommand (cwHrunRandom n) true (hrunRandomEffect n)
  | .hrunSatedge => runCommand cwHrunSatedge true hrunSatedgeEffect
  | .hclr => runCommand cwHclr true hclrEffect
  | .rd idx => readEffect idx
  | .wr idx v => writeEffect idx v

/-- Every well-formed instruction completes, in the state `effectOf` names. -/
theorem exec_eq_effectOf {i : Instr} (hwf : i.wf = true) (s : State) : exec i s = .next (effectOf i s) := by
  cases i with
  | rd idx =>
    rcases readEffect_cases idx s with ⟨g, hg, he⟩ | ⟨hg, he⟩ <;> simp only [exec, execRd, effectOf, hg, he]
  | wr idx v =>
    rcases writeEffect_cases idx v s with ⟨rfl, he⟩ | ⟨g, hi, hg, he⟩ | ⟨hi, hg, he⟩
    · have hl : isLegalCommandWord v = false := by simpa [Instr.wf] using hwf
      simp only [exec, execWr, effectOf, he, if_true, startCommand_error (decodeCommand_error hl)]
    · simp only [exec, execWr, effectOf, he, if_neg hi, hg]
    · simp only [exec, execWr, effectOf, he, if_neg hi, hg]
  | _ => rfl

/-- The check of one vector faults outside the compared domain, before anything is written (44_oracle_harness.md
R145). -/
theorem hcheck_domain {s : State} (hr : Config.rateMax < s.r) (cw : Word) :
    hcheck cw s = .error (raiseFault .domain cw s) := by
  rw [hcheck, if_pos hr]

theorem hcheck_div0 {s : State} (hr : s.r ≤ Config.rateMax) (hp : s.p = 0#64) (cw : Word) :
    hcheck cw s = .error (raiseFault .div0 cw s) := by
  rw [hcheck, if_neg (BitVec.not_lt.2 hr), if_pos hp]

/-- The compared domain and its complement, in the order of the tests (R142, R145). -/
theorem domain_cases (s : State) :
    Config.rateMax < s.r ∨ (s.r ≤ Config.rateMax ∧ s.p = 0#64) ∨ (s.r ≤ Config.rateMax ∧ s.p ≠ 0#64) := by
  by_cases hr : Config.rateMax < s.r
  · exact .inl hr
  · exact .inr ((Classical.em (s.p = 0#64)).imp (⟨BitVec.not_lt.1 hr, ·⟩) (⟨BitVec.not_lt.1 hr, ·⟩))

/-- BDIV's effect by what the unit returns (42_bdiv.md R118). -/
theorem bdivEffect_error {s : State} {e : Cause} (h : bdiv s.t2 s.t1 s.t0 s.dh s.dl s.k = .error e) :
    bdivEffect s = raiseFault e cwBdiv s := by simp only [bdivEffect, h]

theorem bdivEffect_ok {s : State} {out : BdivOut} (h : bdiv s.t2 s.t1 s.t0 s.dh s.dl s.k = .ok out) :
    bdivEffect s = { s with q := out.q }.setFlag .cap out.cap := by simp only [bdivEffect, h]

/-- DELTA's effect by what the unit returns (43_delta.md R126). -/
theorem deltaEffect_error {s : State} {e : Cause} (h : delta s.a s.c s.p s.r = .error e) :
    deltaEffect s = raiseFault e cwDelta s := by simp only [deltaEffect, h]

theorem deltaEffect_ok {s : State} {out : DeltaOut} (h : delta s.a s.c s.p s.r = .ok out) :
    deltaEffect s = writeDelta out s := by simp only [deltaEffect, h]

/-- REF's effect, test by test (44_oracle_harness.md R142). -/
theorem refEffect_domain {s : State} (hr : Config.rateMax < s.r) : refEffect s = raiseFault .domain cwRef s := by
  rw [refEffect, if_pos hr]

theorem refEffect_div0 {s : State} (hr : s.r ≤ Config.rateMax) (hp : s.p = 0#64) :
    refEffect s = raiseFault .div0 cwRef s := by
  rw [refEffect, if_neg (BitVec.not_lt.2 hr), ref, if_pos hp]

theorem refEffect_value {s : State} (hr : s.r ≤ Config.rateMax) (hp : s.p ≠ 0#64) :
    refEffect s =
      { s with refres := BitVec.ofNat 64 (exactStake s.a.toNat s.c.toNat s.p.toNat s.r.toNat) } := by
  rw [refEffect, if_neg (BitVec.not_lt.2 hr), ref_value hp]

/-- BDIV's one fault is the division by zero (42_bdiv.md R117). -/
theorem bdiv_error {n2 n1 n0 dh dl k : Word} {e : Cause} (h : bdiv n2 n1 n0 dh dl k = .error e) : e = .div0 := by
  unfold bdiv at h
  split at h
  · cases h; rfl
  · split at h
    · cases h
    · split at h <;> cases h

/-- DELTA's two faults (43_delta.md R133, R134). -/
theorem delta_error {a c p r : Word} {e : Cause} (h : delta a c p r = .error e) : e = .domain ∨ e = .div0 := by
  by_cases hr : Config.rateMax < r
  · rw [delta_domain hr] at h; cases h; exact .inl rfl
  · have hle : r ≤ Config.rateMax := BitVec.not_lt.1 hr
    by_cases hp : p = 0#64
    · by_cases hz : a = 0#64 ∨ c = 0#64 ∨ r = 0#64
      · rw [delta_zero hle hz] at h; cases h
      · obtain ⟨ha, hc, hr0⟩ : a ≠ 0#64 ∧ c ≠ 0#64 ∧ r ≠ 0#64 := by simpa only [not_or] using hz
        rw [hp, delta_div0 hle ha hc hr0] at h; cases h; exact .inr rfl
    · rw [delta_value hle hp] at h; cases h

/-- Under a recorded fault only CLRF clears it: a command is refused, a read and a write keep the record
(60_exceptions.md R178). -/
theorem effectOf_keeps_fault {i : Instr} {s : State} (h : s.flag .fault = true) (hi : i ≠ .clrf) :
    (effectOf i s).flag .fault = true := by
  cases i with
  | clrf => exact absurd rfl hi
  | rd idx =>
    rcases readEffect_cases idx s with ⟨g, _, he⟩ | ⟨_, he⟩ <;> rw [effectOf, he]
    · exact h
    · exact raiseFault_flag_fault _ _ s
  | wr idx v =>
    rcases writeEffect_cases idx v s with ⟨_, he⟩ | ⟨g, _, _, he⟩ | ⟨_, _, he⟩ <;> rw [effectOf, he]
    · rw [illegalCommand, runCommand_refused h, h]
    · rw [State.flag, writeReg_status]; exact h
    · exact raiseFault_flag_fault _ _ s
  | _ => rw [effectOf, runCommand_refused h, h]

end Sys2Proof.Machine
end

section
/-! The family 10_state.md: the form of STATUS, CAUSE and FINFO, kept by every step (R26 to R28, R31). -/

namespace Sys2Proof.Machine

open Sys2Proof.Safety

/-- FINFO as 60_exceptions.md R170 asks it for one cause. -/
def CauseFits (build : Config.Build) (info : Word) : Cause → Prop
  | .div0 => info ∈ [cwBdiv, cwDelta, cwRef, cwHchk]
  | .domain => info ∈ [cwSnum, cwDelta, cwRef, cwHchk]
  | .illegalCmd => isLegalCommandWord info = false ∨ (isHarnessOp (cwOp info) = true ∧ build.harness = false)
  | .access => info.toNat < 128
  | .mismatch => cwOp info = 0x11#8 ∨ cwOp info = 0x12#8

theorem infoFits_iff (s : State) : InfoFits s ↔ ∀ e : Cause, s.cause = e.code → CauseFits s.build s.finfo e := by
  constructor
  · rintro ⟨hdiv0, hdomain, hillegal, haccess, hmismatch⟩ e he
    cases e with
    | div0 => exact hdiv0 he
    | domain => exact hdomain he
    | illegalCmd => exact hillegal he
    | access => exact haccess he
    | mismatch => exact hmismatch he
  · intro h
    exact ⟨h .div0, h .domain, h .illegalCmd, h .access, h .mismatch⟩

theorem code_inj {e f : Cause} (h : e.code = f.code) : e = f := by
  cases e <;> cases f <;> first | rfl | exact absurd h (by decide)

/-- The cause codes are 1 to 5 (60_exceptions.md R170). -/
theorem code_bounds (e : Cause) : e.code ≠ 0#64 ∧ e.code.toNat ≤ 5 := by cases e <;> decide

/-- A fault's cause is none of the codes when CAUSE is 0. -/
theorem infoFits_of_cause_zero {s : State} (h : s.cause = 0#64) : InfoFits s :=
  (infoFits_iff s).2 fun e he => absurd (he.symm.trans h) (code_bounds e).1

theorem status_lt_of_recordForm {s : State} (h : RecordForm s) : s.status.toNat < 32 := by
  obtain ⟨_, ⟨hlt, _⟩, _⟩ := h
  exact hlt

theorem build_wf_of_recordForm {s : State} (h : RecordForm s) : s.build.wf := by
  obtain ⟨hwf, _⟩ := h
  exact hwf

/-- The form is kept by whatever keeps the build, the record and the harness's absence, and writes no reserved bit. -/
theorem recordForm_of_record_eq {s t : State} (h : RecordForm s) (hbuild : t.build = s.build)
    (hstatus : t.status.toNat < 32) (hflag : t.flag .fault = s.flag .fault) (hcause : t.cause = s.cause)
    (hfinfo : t.finfo = s.finfo) (habsent : HarnessAbsent s → HarnessAbsent t) : RecordForm t := by
  obtain ⟨hwf, ⟨_, hle⟩, hwhole, hinfo, hs⟩ := h
  refine ⟨hbuild ▸ hwf, ⟨hstatus, hcause ▸ hle⟩, ?_, ?_, habsent hs⟩
  · rwa [RecordWhole, hflag, hcause, hfinfo]
  · rw [infoFits_iff] at hinfo ⊢
    rwa [hcause, hfinfo, hbuild]

/-- Registers that no rule of the form speaks of may change at will. -/
theorem recordForm_of_status_eq {s t : State} (h : RecordForm s) (hbuild : t.build = s.build)
    (hstatus : t.status = s.status) (hcause : t.cause = s.cause) (hfinfo : t.finfo = s.finfo)
    (habsent : HarnessAbsent s → HarnessAbsent t) : RecordForm t :=
  have hflag : t.flag .fault = s.flag .fault := by rw [State.flag, hstatus, State.flag]
  recordForm_of_record_eq h hbuild (hstatus ▸ status_lt_of_recordForm h) hflag hcause hfinfo habsent

/-- With the harness present there is nothing to say of its absence (10_state.md R31). -/
theorem harnessAbsent_of_present {s : State} (h : s.build.harness = true) : HarnessAbsent s := fun hf =>
  absurd (h.symm.trans hf) (by decide)

theorem recordForm_setFlag {s : State} (h : RecordForm s) {f : Flag} (hf : f ≠ .fault) (b : Bool) :
    RecordForm (s.setFlag f b) :=
  recordForm_of_record_eq h rfl (setFlag_status_lt s f b (status_lt_of_recordForm h)) (flag_setFlag_ne s b hf) rfl rfl
    id

/-- Fault entry keeps the form when FINFO fits the cause (60_exceptions.md R170, R175). -/
theorem recordForm_raiseFault {s : State} (h : RecordForm s) {e : Cause} {info : Word}
    (hfits : CauseFits s.build info e) : RecordForm (raiseFault e info s) := by
  rcases raiseFault_cases e info s with ⟨_, he⟩ | ⟨_, he⟩ <;> rw [he]
  · exact h
  · obtain ⟨hwf, ⟨hlt, _⟩, _, _, habsent⟩ := h
    have hflag : (s.setFlag .fault true).flag .fault = true := flag_setFlag_same s .fault true
    refine ⟨hwf, ⟨setFlag_status_lt s .fault true hlt, (code_bounds e).2⟩, ⟨fun hf => ?_, fun _ => (code_bounds e).1⟩,
      (infoFits_iff _).2 fun f hf => ?_, habsent⟩
    · exact absurd (hflag.symm.trans hf) (by decide)
    · exact code_inj hf ▸ hfits

theorem recordForm_div0 {s : State} (h : RecordForm s) {cw : Word} (hcw : cw ∈ [cwBdiv, cwDelta, cwRef, cwHchk]) :
    RecordForm (raiseFault .div0 cw s) := recordForm_raiseFault h hcw

theorem recordForm_domain {s : State} (h : RecordForm s) {cw : Word} (hcw : cw ∈ [cwSnum, cwDelta, cwRef, cwHchk]) :
    RecordForm (raiseFault .domain cw s) := recordForm_raiseFault h hcw

/-- The return from a fault leaves no record (60_exceptions.md R179). -/
theorem recordForm_clearFault {s : State} (h : RecordForm s) : RecordForm (clearFault s) := by
  obtain ⟨hwf, ⟨hlt, _⟩, _, _, habsent⟩ := h
  have hflag : (clearFault s).flag .fault = false := clearFault_flag_fault s
  refine ⟨hwf, ⟨setFlag_status_lt s .fault false hlt, Nat.zero_le 5⟩, ⟨fun _ => ⟨rfl, rfl⟩, fun hf => ?_⟩,
    infoFits_of_cause_zero rfl, habsent⟩
  exact absurd (hflag.symm.trans hf) (by decide)

theorem recordForm_writeDelta {s : State} (h : RecordForm s) (out : DeltaOut) : RecordForm (writeDelta out s) :=
  have hres : RecordForm { s with result := out.res } := recordForm_of_status_eq h rfl rfl rfl rfl id
  recordForm_setFlag (recordForm_setFlag hres (by decide) _) (by decide) _

theorem recordForm_writeReg {s : State} (h : RecordForm s) (g : Reg) (v : Word) : RecordForm (s.writeReg g v) :=
  recordForm_of_status_eq h (by simp) (by simp) (by simp) (by simp) (by simp [HarnessAbsent])

/-- A command keeps the form when its effect does; a harness-only row's word is the one an absent harness reports. -/
theorem recordForm_runCommand {s : State} (h : RecordForm s) {cw : Word} {harnessOnly : Bool}
    {effect : State → State} (hop : harnessOnly = true → isHarnessOp (cwOp cw) = true)
    (heffect : (harnessOnly = true → s.build.harness = true) → RecordForm (effect s)) :
    RecordForm (runCommand cw harnessOnly effect s) := by
  rcases runCommand_cases cw harnessOnly effect s with ⟨_, he⟩ | ⟨_, hhost, hno, he⟩ | ⟨_, hhost, he⟩ <;> rw [he]
  · exact h
  · exact recordForm_raiseFault h (e := .illegalCmd) (.inr ⟨hop hhost, hno⟩)
  · exact heffect hhost

/-! ## The commands' effects -/

theorem recordForm_snumEffect {s : State} (h : RecordForm s) : RecordForm (snumEffect s) := by
  unfold snumEffect
  split
  · exact recordForm_domain h (by decide)
  · exact recordForm_setFlag (recordForm_of_status_eq h rfl rfl rfl rfl id) (by decide) _

theorem recordForm_bdivEffect {s : State} (h : RecordForm s) : RecordForm (bdivEffect s) := by
  cases hd : bdiv s.t2 s.t1 s.t0 s.dh s.dl s.k with
  | error e =>
    rw [bdivEffect_error hd, bdiv_error hd]
    exact recordForm_div0 h (by decide)
  | ok out =>
    rw [bdivEffect_ok hd]
    exact recordForm_setFlag (recordForm_of_status_eq h rfl rfl rfl rfl id) (by decide) _

theorem recordForm_deltaEffect {s : State} (h : RecordForm s) : RecordForm (deltaEffect s) := by
  cases hd : delta s.a s.c s.p s.r with
  | error e =>
    rw [deltaEffect_error hd]
    rcases delta_error hd with rfl | rfl
    · exact recordForm_domain h (by decide)
    · exact recordForm_div0 h (by decide)
  | ok out =>
    rw [deltaEffect_ok hd]
    exact recordForm_writeDelta h out

theorem recordForm_refEffect {s : State} (h : RecordForm s) (hh : s.build.harness = true) :
    RecordForm (refEffect s) := by
  rcases domain_cases s with hr | ⟨hr, hp⟩ | ⟨hr, hp⟩
  · rw [refEffect_domain hr]
    exact recordForm_domain h (by decide)
  · rw [refEffect_div0 hr hp]
    exact recordForm_div0 h (by decide)
  · rw [refEffect_value hr hp]
    exact recordForm_of_status_eq h rfl rfl rfl rfl fun _ => harnessAbsent_of_present hh

/-- A vector that passes keeps the form: it raises nothing (44_oracle_harness.md R154). -/
theorem recordForm_checkedState {s : State} (h : RecordForm s) (hh : s.build.harness = true) :
    RecordForm (checkedState s) :=
  recordForm_of_status_eq (recordForm_writeDelta h _) rfl rfl rfl rfl fun _ => harnessAbsent_of_present hh

theorem recordForm_hchkEffect {s : State} (h : RecordForm s) (hh : s.build.harness = true) :
    RecordForm (hchkEffect s) := by
  rcases domain_cases s with hr | ⟨hr, hp⟩ | ⟨hr, hp⟩
  · rw [hchkEffect, hcheck_domain hr]
    exact recordForm_domain h (by decide)
  · rw [hchkEffect, hcheck_div0 hr hp]
    exact recordForm_div0 h (by decide)
  · rw [hchkEffect, hcheck_passes hr hp]
    exact recordForm_checkedState h hh

/-- HRUN over vectors of the compared domain keeps the form (R147, R154). -/
theorem recordForm_hrun {s : State} (h : RecordForm s) (cw : Word) (draws : Nat) {vs : List Vec}
    (hvs : ∀ v ∈ vs, InDomain v) (hh : s.build.harness = true) : RecordForm (hrun cw draws vs s) := by
  rw [hrun_passes cw draws vs s hvs]
  clear hvs
  induction vs generalizing s with
  | nil => exact h
  | cons v vs ih =>
    have happly : RecordForm (applyVec draws v s) :=
      recordForm_of_status_eq h rfl rfl rfl rfl fun _ => harnessAbsent_of_present hh
    exact ih (recordForm_checkedState happly hh) hh

theorem recordForm_hclrEffect {s : State} (h : RecordForm s) (hh : s.build.harness = true) :
    RecordForm (hclrEffect s) :=
  recordForm_of_status_eq h rfl rfl rfl rfl fun _ => harnessAbsent_of_present hh

/-! ## The two transactions -/

/-- `FINFO` of an ACCESS fault has seven bits (60_exceptions.md R174). -/
theorem accessInfo_lt (we : Bool) (idx : Index) : (accessInfo we idx).toNat < 128 := by
  have hb := Bool.toNat_le we
  have hi := idx.isLt
  rw [accessInfo_toNat]
  omega

theorem recordForm_withReply {s : State} (h : RecordForm s) (rp : Reply) : RecordForm { s with reply := rp } :=
  recordForm_of_status_eq h rfl rfl rfl rfl id

theorem recordForm_readEffect {s : State} (h : RecordForm s) (idx : Index) : RecordForm (readEffect idx s) := by
  rcases readEffect_cases idx s with ⟨g, _, he⟩ | ⟨_, he⟩ <;> rw [he]
  · exact recordForm_withReply h _
  · exact recordForm_withReply (recordForm_raiseFault h (e := .access) (accessInfo_lt false idx)) _

/-- A WR that starts no command keeps the form; `hv` is what makes it start none (45_host_system.md R166). -/
theorem recordForm_writeEffect {s : State} (h : RecordForm s) {idx : Index} {v : Word}
    (hv : idx = cmdIndex → isLegalCommandWord v = false) : RecordForm (writeEffect idx v s) := by
  rcases writeEffect_cases idx v s with ⟨hi, he⟩ | ⟨g, _, _, he⟩ | ⟨_, _, he⟩ <;> rw [he]
  · exact recordForm_runCommand h nofun fun _ => recordForm_raiseFault h (e := .illegalCmd) (.inl (hv hi))
  · exact recordForm_writeReg h g v
  · exact recordForm_raiseFault h (e := .access) (accessInfo_lt true idx)

/-- HRUN.RANDOM's word carries HRUN's operation (30_encoding.md R75). -/
theorem cwOp_cwHrunRandom (n : BitVec 32) : cwOp (cwHrunRandom n) = 0x12#8 := by
  apply BitVec.eq_of_toNat_eq
  rw [cwOp_toNat, cwHrunRandom_toNat]
  simp only [BitVec.toNat_ofNat]
  omega

/-- Every well-formed instruction keeps the form. -/
theorem recordForm_effectOf {i : Instr} (hwf : i.wf = true) {s : State} (h : RecordForm s) :
    RecordForm (effectOf i s) := by
  obtain ⟨_, hsmall⟩ := build_wf_of_recordForm h
  cases i with
  | nop => exact recordForm_runCommand h (by decide) fun _ => h
  | wmul => exact recordForm_runCommand h (by decide) fun _ => recordForm_of_status_eq h rfl rfl rfl rfl id
  | snum => exact recordForm_runCommand h (by decide) fun _ => recordForm_snumEffect h
  | bdiv => exact recordForm_runCommand h (by decide) fun _ => recordForm_bdivEffect h
  | delta => exact recordForm_runCommand h (by decide) fun _ => recordForm_deltaEffect h
  | clrf => exact recordForm_clearFault h
  | ref => exact recordForm_runCommand h (by decide) fun hh => recordForm_refEffect h (hh rfl)
  | hchk => exact recordForm_runCommand h (by decide) fun hh => recordForm_hchkEffect h (hh rfl)
  | hrunSmall =>
    exact recordForm_runCommand h (by decide) fun hh =>
      recordForm_hrun h _ _ (smallVectors_inDomain hsmall) (hh rfl)
  | hrunBoundary =>
    exact recordForm_runCommand h (by decide) fun hh => recordForm_hrun h _ _ boundaryVectors_inDomain (hh rfl)
  | hrunRandom n =>
    exact recordForm_runCommand h (fun _ => by rw [cwOp_cwHrunRandom]; rfl)
      fun hh => recordForm_hrun h _ _ (randomVectors_inDomain _ _ _) (hh rfl)
  | hrunSatedge =>
    exact recordForm_runCommand h (by decide) fun hh => recordForm_hrun h _ _ satEdgeVectors_inDomain (hh rfl)
  | hclr => exact recordForm_runCommand h (by decide) fun hh => recordForm_hclrEffect h (hh rfl)
  | rd idx => exact recordForm_readEffect h idx
  | wr idx v => exact recordForm_writeEffect h fun hi => by simpa [Instr.wf, hi] using hwf

theorem flag_resetWith (b : Config.Build) (d : Nat) (l : List Input) : (State.resetWith b d l).flag .fault ≠ true := by
  simp [State.flag, State.resetWith]

/-- The reset state of a build in range has the form (10_state.md R39). -/
theorem recordForm_resetWith {b : Config.Build} (hb : b.wf) (d : Nat) (l : List Input) :
    RecordForm (State.resetWith b d l) :=
  ⟨hb, ⟨Nat.zero_lt_succ 31, Nat.zero_le 5⟩, ⟨fun _ => ⟨rfl, rfl⟩, fun h => absurd h (flag_resetWith b d l)⟩,
    infoFits_of_cause_zero rfl, fun _ => ⟨rfl, rfl, rfl, rfl, rfl, rfl, rfl, rfl⟩⟩

/-- Settles O49: each way a step can go keeps the form; a transaction through `recordForm_effectOf`. -/
theorem stepKeepsRecordForm : Obligations.StepKeepsRecordForm := by
  intro s t h hstep
  have htaken : ∀ rest rp, RecordForm { s with pending := rest, reply := rp } := fun _ _ =>
    recordForm_of_status_eq h rfl rfl rfl rfl id
  have hexec : ∀ tw rest u, exec (decode tw) { s with pending := rest, reply := .notDriven } = .next u →
      RecordForm u := by
    intro tw rest u hu
    rw [exec_eq_effectOf (decode_wf tw)] at hu
    cases hu
    exact recordForm_effectOf (decode_wf tw) (htaken rest .notDriven)
  rcases step_cases hstep with ⟨_, rfl⟩ | ⟨tw, rest, _, hu⟩ | ⟨_, tw, rest, u, _, _, hu, rfl⟩ | ⟨_, rest, _, _, rfl⟩ |
    ⟨rest, _, rfl⟩
  · exact h
  · exact hexec tw rest t hu
  · exact recordForm_withReply (hexec tw rest u hu) _
  · exact htaken rest .busError
  · exact recordForm_resetWith (build_wf_of_recordForm h) s.drawn rest

/-- Settles O51: every register of the record and of the harness is 0 at reset. -/
theorem resetStartsInvariants : Obligations.ResetStartsInvariants := by
  intro b d l hb
  exact ⟨recordForm_resetWith hb d l, (code_bounds .mismatch).1.symm, rfl, rfl, rfl, rfl, rfl, rfl⟩

end Sys2Proof.Machine
end

section
/-! The family 10_state.md: what each instruction may write (R34, R36) and what it may read (R37). -/

namespace Sys2Proof.Machine

open Sys2Proof.Safety

/-! ## The frame -/

/-- Between two states of one build, registers outside a list keep their value, the record apart; flags not named,
FAULT apart, keep theirs; and no reserved bit of STATUS is set (10_state.md R26, R34, R36). -/
structure ChangesOnly (regs : List Reg) (flags : Flag → Bool) (s t : State) : Prop where
  build : t.build = s.build
  reg : ∀ g, g ∉ regs → g ∉ [Reg.status, .cause, .finfo] → t.reg g = s.reg g
  flag : ∀ f, f ≠ .fault → flags f = false → t.flag f = s.flag f
  reserved : s.status.toNat < 32 → t.status.toNat < 32

section Frame

variable {regs regs' : List Reg} {flags flags' : Flag → Bool} {s t u : State}

theorem ChangesOnly.refl (s : State) : ChangesOnly regs flags s s := ⟨rfl, fun _ _ _ => rfl, fun _ _ _ => rfl, id⟩

theorem ChangesOnly.trans (h : ChangesOnly regs flags s t) (h' : ChangesOnly regs flags t u) :
    ChangesOnly regs flags s u where
  build := h'.build.trans h.build
  reg g hg hr := (h'.reg g hg hr).trans (h.reg g hg hr)
  flag f hf hn := (h'.flag f hf hn).trans (h.flag f hf hn)
  reserved := h'.reserved ∘ h.reserved

theorem ChangesOnly.mono (h : ChangesOnly regs flags s t) (hr : ∀ g ∈ regs, g ∈ regs')
    (hf : ∀ f, flags f = true → flags' f = true) : ChangesOnly regs' flags' s t where
  build := h.build
  reg g hg := h.reg g fun hm => hg (hr g hm)
  flag f hne hn := h.flag f hne (Bool.eq_false_iff.2 fun ht => Bool.eq_false_iff.1 hn (hf f ht))
  reserved := h.reserved

/-- An update that leaves STATUS and the build is known by its registers, compared one by one. -/
theorem ChangesOnly.of_status_eq (hb : t.build = s.build := by rfl) (hs : t.status = s.status := by rfl)
    (hr : ∀ g, g ∉ regs → g ∉ [Reg.status, .cause, .finfo] → t.reg g = s.reg g := by
      intro g hg hrec
      cases g <;> first | rfl | exact absurd hg (by decide) | exact absurd hrec (by decide)) :
    ChangesOnly regs flags s t :=
  ⟨hb, hr, fun f _ _ => by rw [State.flag, hs, State.flag], fun h => hs ▸ h⟩

/-- A field write of STATUS changes that field alone. -/
theorem setFlag_changesOnly (f : Flag) (b : Bool) (hf : flags f = true ∨ f = .fault) :
    ChangesOnly regs flags s (s.setFlag f b) where
  build := rfl
  reg g _ hg := by cases g <;> first | rfl | exact absurd hg (by decide)
  flag g hne hn := flag_setFlag_ne s b fun he => hf.elim (fun ht => by simp [he, hn] at ht) fun h => hne (he ▸ h)
  reserved := setFlag_status_lt s f b

/-- CAUSE and FINFO belong to the record. -/
theorem record_changesOnly (cause finfo : Word) :
    ChangesOnly regs flags s { s with cause := cause, finfo := finfo } :=
  .of_status_eq

theorem ChangesOnly.flagged {f : Flag} {b : Bool} (h : ChangesOnly regs flags s t)
    (hf : flags f = true ∨ f = .fault) : ChangesOnly regs flags s (t.setFlag f b) :=
  h.trans (setFlag_changesOnly f b hf)

theorem ChangesOnly.raised (h : ChangesOnly regs flags s t) {e : Cause} {info : Word} :
    ChangesOnly regs flags s (raiseFault e info t) := by
  rcases raiseFault_cases e info t with ⟨_, he⟩ | ⟨_, he⟩ <;> rw [he]
  · exact h
  · exact (h.flagged (.inr rfl)).trans (record_changesOnly e.code info)

theorem clearFault_changesOnly : ChangesOnly regs flags s (clearFault s) :=
  (setFlag_changesOnly .fault false (.inr rfl)).trans (record_changesOnly 0#64 0#64)

theorem runCommand_changesOnly {cw : Word} {harnessOnly : Bool} {effect : State → State}
    (h : ChangesOnly regs flags s (effect s)) : ChangesOnly regs flags s (runCommand cw harnessOnly effect s) := by
  rcases runCommand_cases cw harnessOnly effect s with ⟨_, he⟩ | ⟨_, _, _, he⟩ | ⟨_, _, he⟩ <;> rw [he]
  · exact .refl s
  · exact .raised (.refl s)
  · exact h

/-- Two reports of DELTA, two flags (43_delta.md R126). -/
theorem writeDelta_changesOnly (out : DeltaOut) (hr : Reg.result ∈ regs) (hz : flags .zsc = true)
    (hc : flags .clamp = true) : ChangesOnly regs flags s (writeDelta out s) :=
  have hres : ChangesOnly regs flags s { s with result := out.res } := .of_status_eq rfl rfl fun g hg _ => by
    cases g <;> first | rfl | exact absurd hr hg
  (hres.flagged (.inl hz)).flagged (.inl hc)

theorem wmulEffect_changesOnly : ChangesOnly (mayWrite .wmul) (mayWriteFlag · .wmul) s (wmulEffect s) :=
  .of_status_eq

theorem snumEffect_changesOnly : ChangesOnly (mayWrite .snum) (mayWriteFlag · .snum) s (snumEffect s) := by
  unfold snumEffect
  split
  · exact .raised (.refl s)
  · exact .flagged .of_status_eq (.inl rfl)

theorem bdivEffect_changesOnly : ChangesOnly (mayWrite .bdiv) (mayWriteFlag · .bdiv) s (bdivEffect s) := by
  cases hd : bdiv s.t2 s.t1 s.t0 s.dh s.dl s.k with
  | error e => rw [bdivEffect_error hd]; exact .raised (.refl s)
  | ok out =>
    rw [bdivEffect_ok hd]
    exact .flagged .of_status_eq (.inl rfl)

theorem deltaEffect_changesOnly : ChangesOnly (mayWrite .delta) (mayWriteFlag · .delta) s (deltaEffect s) := by
  cases hd : delta s.a s.c s.p s.r with
  | error e => rw [deltaEffect_error hd]; exact .raised (.refl s)
  | ok out => rw [deltaEffect_ok hd]; exact writeDelta_changesOnly _ (by decide) rfl rfl

theorem refEffect_changesOnly : ChangesOnly (mayWrite .ref) (mayWriteFlag · .ref) s (refEffect s) := by
  rcases domain_cases s with hr | ⟨hr, hp⟩ | ⟨hr, hp⟩
  · rw [refEffect_domain hr]; exact .raised (.refl s)
  · rw [refEffect_div0 hr hp]; exact .raised (.refl s)
  · rw [refEffect_value hr hp]; exact .of_status_eq

theorem hclrEffect_changesOnly : ChangesOnly (mayWrite .hclr) (mayWriteFlag · .hclr) s (hclrEffect s) :=
  .of_status_eq

/-- A vector that passes writes what HCHK's rule lists (44_oracle_harness.md R145). -/
theorem checkedState_changesOnly : ChangesOnly (mayWrite .hchk) (mayWriteFlag · .hchk) s (checkedState s) :=
  (writeDelta_changesOnly _ (by decide) rfl rfl).trans .of_status_eq

/-- So does the check of any vector, faults included. -/
theorem hcheck_changesOnly {cw : Word} (h : hcheck cw s = .ok t ∨ hcheck cw s = .error t) :
    ChangesOnly (mayWrite .hchk) (mayWriteFlag · .hchk) s t := by
  rcases domain_cases s with hr | ⟨hr, hp⟩ | ⟨hr, hp⟩
  · obtain rfl : raiseFault .domain cw s = t := by simpa [hcheck_domain hr] using h
    exact .raised (.refl s)
  · obtain rfl : raiseFault .div0 cw s = t := by simpa [hcheck_div0 hr hp] using h
    exact .raised (.refl s)
  · obtain rfl : checkedState s = t := by simpa [hcheck_passes hr hp] using h
    exact checkedState_changesOnly

theorem hchkEffect_changesOnly : ChangesOnly (mayWrite .hchk) (mayWriteFlag · .hchk) s (hchkEffect s) := by
  unfold hchkEffect
  split
  · next t ht => exact hcheck_changesOnly (.inr ht)
  · next t ht => exact hcheck_changesOnly (.inl ht)

/-- HRUN writes the operands beside what each vector's check writes (R147); its four words have one list. -/
theorem hrun_changesOnly (cw : Word) (draws : Nat) (vs : List Vec) : ∀ s,
    ChangesOnly (mayWrite .hrunSmall) (mayWriteFlag · .hrunSmall) s (hrun cw draws vs s) := by
  induction vs with
  | nil => exact .refl
  | cons v vs ih =>
    intro s
    have happly : ChangesOnly (mayWrite .hrunSmall) (mayWriteFlag · .hrunSmall) s (applyVec draws v s) :=
      .of_status_eq
    have hfirst : ∀ t, hcheck cw (applyVec draws v s) = .ok t ∨ hcheck cw (applyVec draws v s) = .error t →
        ChangesOnly (mayWrite .hrunSmall) (mayWriteFlag · .hrunSmall) s t := fun t ht =>
      happly.trans ((hcheck_changesOnly ht).mono (by decide) fun _ => id)
    unfold hrun
    split
    · next t ht => exact hfirst t (.inr ht)
    · next t ht => exact (hfirst t (.inl ht)).trans (ih t)

/-- RD writes no register (45_host_system.md R160). -/
theorem readEffect_changesOnly (idx : Index) : ChangesOnly regs flags s (readEffect idx s) := by
  have hreply : ∀ (t : State) (rp : Reply), ChangesOnly regs flags t { t with reply := rp } := fun t rp =>
    .of_status_eq rfl rfl fun g _ _ => reg_withReply t rp g
  rcases readEffect_cases idx s with ⟨g, _, he⟩ | ⟨_, he⟩ <;> rw [he]
  · exact hreply s _
  · exact (ChangesOnly.refl s).raised.trans (hreply _ _)

/-- A data register stands in the list of the WR at its index. -/
theorem mem_mayWrite_wr {g : Reg} (hg : g.access = .readWrite) (v : Word) : g ∈ mayWrite (.wr g.index v) := by
  cases g <;> cases hg <;> simp [mayWrite]

/-- WR writes the register at its index alone (R161). -/
theorem writeEffect_changesOnly (idx : Index) (v : Word) :
    ChangesOnly (mayWrite (.wr idx v)) (mayWriteFlag · (.wr idx v)) s (writeEffect idx v s) := by
  rcases writeEffect_cases idx v s with ⟨_, he⟩ | ⟨g, _, hw, he⟩ | ⟨_, _, he⟩ <;> rw [he]
  · exact runCommand_changesOnly (.raised (.refl s))
  · have hmem : g ∈ mayWrite (.wr idx v) := index_of_writableAt hw ▸ mem_mayWrite_wr (writableAt_access hw) v
    exact .of_status_eq (writeReg_build s g v) (writeReg_status s g v) fun f hf _ =>
      reg_writeReg_ne s g f v fun h => hf (h ▸ hmem)
  · exact .raised (.refl s)

/-- The state an instruction leaves differs in no more than its rule lists (R34, R36). -/
theorem effectOf_changesOnly (i : Instr) (s : State) :
    ChangesOnly (mayWrite i) (mayWriteFlag · i) s (effectOf i s) := by
  cases i with
  | nop => exact runCommand_changesOnly (.refl s)
  | wmul => exact runCommand_changesOnly wmulEffect_changesOnly
  | snum => exact runCommand_changesOnly snumEffect_changesOnly
  | bdiv => exact runCommand_changesOnly bdivEffect_changesOnly
  | delta => exact runCommand_changesOnly deltaEffect_changesOnly
  | clrf => exact clearFault_changesOnly
  | ref => exact runCommand_changesOnly refEffect_changesOnly
  | hchk => exact runCommand_changesOnly hchkEffect_changesOnly
  | hrunSmall => exact runCommand_changesOnly (hrun_changesOnly _ _ _ s)
  | hrunBoundary => exact runCommand_changesOnly (hrun_changesOnly _ _ _ s)
  | hrunRandom n => exact runCommand_changesOnly (hrun_changesOnly _ _ _ s)
  | hrunSatedge => exact runCommand_changesOnly (hrun_changesOnly _ _ _ s)
  | hclr => exact runCommand_changesOnly hclrEffect_changesOnly
  | rd idx => exact readEffect_changesOnly idx
  | wr idx v => exact writeEffect_changesOnly idx v

end Frame

/-- Settles O46: the frame names the flags; FAULT is kept by `effectOf_keeps_fault`. -/
theorem flagWritersAreListed : Obligations.FlagWritersAreListed := by
  intro i s f hwf
  have hframe := effectOf_changesOnly i s
  refine ⟨effectOf i s, exec_eq_effectOf hwf s, hframe.flag f, ?_, hframe.reserved⟩
  rintro rfl hs hi
  exact effectOf_keeps_fault hs hi

/-! ## The model's own fields -/

/-- A change of the queue, the reply and the counter of draws, the fields that are no registers (log entries 3 to 5). -/
structure OwnChange where
  drawn : Nat → Nat
  pending : List Input → List Input
  reply : Reply → Reply

/-- The state with its own fields so changed. -/
def OwnChange.on (m : OwnChange) (s : State) : State :=
  { s with drawn := m.drawn s.drawn, pending := m.pending s.pending, reply := m.reply s.reply }

section OwnFields

variable {m : OwnChange} {s : State}

theorem raiseFault_on (e : Cause) (info : Word) (s : State) :
    raiseFault e info (m.on s) = m.on (raiseFault e info s) := by
  cases h : s.flag .fault
  · rw [raiseFault_fresh h, raiseFault_fresh (s := m.on s) h]; rfl
  · rw [raiseFault_recorded h, raiseFault_recorded (s := m.on s) h]

theorem runCommand_on {cw : Word} {harnessOnly : Bool} {effect : State → State}
    (h : effect (m.on s) = m.on (effect s)) :
    runCommand cw harnessOnly effect (m.on s) = m.on (runCommand cw harnessOnly effect s) := by
  cases hf : s.flag .fault
  · cases harnessOnly with
    | false => rw [runCommand_executes hf, runCommand_executes (s := m.on s) hf, h]
    | true =>
      cases hh : s.build.harness
      · rw [runCommand_absent hf hh, runCommand_absent (s := m.on s) hf hh, raiseFault_on]
      · rw [runCommand_executes_harness hf hh, runCommand_executes_harness (s := m.on s) hf hh, h]
  · rw [runCommand_refused hf, runCommand_refused (s := m.on s) hf]

theorem snumEffect_on : snumEffect (m.on s) = m.on (snumEffect s) := by
  by_cases h : Config.scalarLimit ≤ s.s
  · rw [snumEffect, snumEffect, if_pos h, if_pos (show Config.scalarLimit ≤ (m.on s).s from h), raiseFault_on]
  · rw [snumEffect, snumEffect, if_neg h, if_neg (show ¬ Config.scalarLimit ≤ (m.on s).s from h)]; rfl

theorem bdivEffect_on : bdivEffect (m.on s) = m.on (bdivEffect s) := by
  cases h : bdiv s.t2 s.t1 s.t0 s.dh s.dl s.k with
  | error e => rw [bdivEffect_error h, bdivEffect_error (s := m.on s) h, raiseFault_on]
  | ok out => rw [bdivEffect_ok h, bdivEffect_ok (s := m.on s) h]; rfl

theorem deltaEffect_on : deltaEffect (m.on s) = m.on (deltaEffect s) := by
  cases h : delta s.a s.c s.p s.r with
  | error e => rw [deltaEffect_error h, deltaEffect_error (s := m.on s) h, raiseFault_on]
  | ok out => rw [deltaEffect_ok h, deltaEffect_ok (s := m.on s) h]; rfl

theorem refEffect_on : refEffect (m.on s) = m.on (refEffect s) := by
  rcases domain_cases s with hr | ⟨hr, hp⟩ | ⟨hr, hp⟩
  · rw [refEffect_domain hr, refEffect_domain (s := m.on s) hr, raiseFault_on]
  · rw [refEffect_div0 hr hp, refEffect_div0 (s := m.on s) hr hp, raiseFault_on]
  · rw [refEffect_value hr hp, refEffect_value (s := m.on s) hr hp]; rfl

/-- The check of one vector reads operands only (44_oracle_harness.md R145). -/
theorem hcheck_on (cw : Word) (s : State) :
    (∃ t, hcheck cw s = .ok t ∧ hcheck cw (m.on s) = .ok (m.on t)) ∨
      (∃ t, hcheck cw s = .error t ∧ hcheck cw (m.on s) = .error (m.on t)) := by
  rcases domain_cases s with hr | ⟨hr, hp⟩ | ⟨hr, hp⟩
  · exact .inr ⟨_, hcheck_domain hr cw, by rw [hcheck_domain (s := m.on s) hr, raiseFault_on]⟩
  · exact .inr ⟨_, hcheck_div0 hr hp cw, by rw [hcheck_div0 (s := m.on s) hr hp, raiseFault_on]⟩
  · exact .inl ⟨_, hcheck_passes hr hp cw, hcheck_passes (s := m.on s) hr hp cw⟩

theorem hchkEffect_on : hchkEffect (m.on s) = m.on (hchkEffect s) := by
  rcases hcheck_on (m := m) cwHchk s with ⟨t, he, he'⟩ | ⟨t, he, he'⟩ <;> rw [hchkEffect, hchkEffect, he, he']

/-- HRUN's loop takes the draws it takes whatever the count before (R151). -/
theorem hrun_on (cw : Word) (draws : Nat) (hm : ∀ d, m.drawn (d + draws) = m.drawn d + draws) (vs : List Vec) :
    ∀ s, hrun cw draws vs (m.on s) = m.on (hrun cw draws vs s) := by
  induction vs with
  | nil => exact fun _ => rfl
  | cons v vs ih =>
    intro s
    have happly : applyVec draws v (m.on s) = m.on (applyVec draws v s) := by
      simp only [applyVec, OwnChange.on, hm]
    rcases hcheck_on (m := m) cw (applyVec draws v s) with ⟨t, he, he'⟩ | ⟨t, he, he'⟩ <;>
      rw [hrun, hrun, happly, he, he']
    exact ih t

theorem writeEffect_on (idx : Index) (v : Word) : writeEffect idx v (m.on s) = m.on (writeEffect idx v s) := by
  by_cases hi : idx = cmdIndex
  · rw [writeEffect, writeEffect, if_pos hi, if_pos hi, illegalCommand, illegalCommand]
    exact runCommand_on (raiseFault_on _ _ s)
  · rw [writeEffect, writeEffect, if_neg hi, if_neg hi]
    cases hw : Reg.writableAt s.build.harness idx with
    | some g =>
      simp only [show Reg.writableAt (m.on s).build.harness idx = some g from hw]
      cases g <;> rfl
    | none => simp only [show Reg.writableAt (m.on s).build.harness idx = none from hw, raiseFault_on]

/-- No instruction but RD and HRUN.RANDOM reads or writes one of the model's own fields; HRUN.RANDOM takes its words at
the counter (R151). -/
theorem effectOf_on {i : Instr} (hi : ∀ idx, i ≠ .rd idx) (hd : (∀ n, i ≠ .hrunRandom n) ∨ m.drawn = id) (s : State) :
    effectOf i (m.on s) = m.on (effectOf i s) := by
  cases i with
  | nop => exact runCommand_on rfl
  | wmul => exact runCommand_on rfl
  | snum => exact runCommand_on snumEffect_on
  | bdiv => exact runCommand_on bdivEffect_on
  | delta => exact runCommand_on deltaEffect_on
  | clrf => rfl
  | ref => exact runCommand_on refEffect_on
  | hchk => exact runCommand_on hchkEffect_on
  | hrunSmall => exact runCommand_on (hrun_on _ _ (fun _ => rfl) _ s)
  | hrunBoundary => exact runCommand_on (hrun_on _ _ (fun _ => rfl) _ s)
  | hrunRandom n =>
    obtain hd | hd := hd
    · exact absurd rfl (hd n)
    · have hvs : hrunRandomEffect n (m.on s) =
          hrun (cwHrunRandom n) 4 (randomVectors Config.rnd s.drawn n.toNat) (m.on s) := by
        rw [hrunRandomEffect, show (m.on s).drawn = s.drawn from congrFun hd s.drawn]
      exact runCommand_on (hvs.trans (hrun_on _ _ (fun _ => by rw [hd]; rfl) _ s))
  | hrunSatedge => exact runCommand_on (hrun_on _ _ (fun _ => rfl) _ s)
  | hclr => exact runCommand_on rfl
  | rd idx => exact absurd rfl (hi idx)
  | wr idx v => exact writeEffect_on idx v

/-- RD reads none of the own fields, and its reply is its own (45_host_system.md R160). -/
theorem readEffect_on (idx : Index) (s : State) :
    readEffect idx (m.on s) = { m.on (readEffect idx s) with reply := (readEffect idx s).reply } := by
  cases hr : Reg.readableAt s.build.harness idx with
  | some g =>
    simp only [readEffect, hr, show Reg.readableAt (m.on s).build.harness idx = some g from hr]
    cases g <;> rfl
  | none =>
    simp only [readEffect, hr, show Reg.readableAt (m.on s).build.harness idx = none from hr, raiseFault_on]
    rfl

/-- RD included, the reply apart. -/
theorem effectOf_on_but_reply {i : Instr} (hd : (∀ n, i ≠ .hrunRandom n) ∨ m.drawn = id) (s : State) :
    effectOf i (m.on s) = { m.on (effectOf i s) with reply := (effectOf i (m.on s)).reply } := by
  by_cases hi : ∃ idx, i = .rd idx
  · obtain ⟨idx, rfl⟩ := hi
    rw [effectOf, readEffect_on]
  · rw [effectOf_on (not_exists.1 hi) hd]

end OwnFields

/-- The host's further inputs and the last reply, replaced. -/
def OwnChange.host (l : List Input) (rp : Reply) : OwnChange := ⟨id, fun _ => l, fun _ => rp⟩

/-- The counter of draws, replaced. -/
def OwnChange.counter (d : Nat) : OwnChange := ⟨fun _ => d, id, id⟩

/-- Settles O47: the model's own fields go through every instruction as they come. -/
theorem noHiddenInputs : Obligations.NoHiddenInputs := by
  intro i s d l rp hwf
  refine ⟨effectOf i s, exec_eq_effectOf hwf s, ?_, fun hn => ?_⟩
  · refine (exec_eq_effectOf hwf ((OwnChange.host l rp).on s)).trans (congrArg _ ?_)
    cases i with
    | rd idx => exact readEffect_on idx s
    | _ => exact effectOf_on (fun _ => Instr.noConfusion) (.inr rfl) s
  · refine (exec_eq_effectOf hwf ((OwnChange.counter d).on s)).trans (congrArg _ ?_)
    by_cases hi : ∃ idx, i = .rd idx
    · obtain ⟨idx, rfl⟩ := hi
      exact readEffect_on idx s
    · exact effectOf_on (not_exists.1 hi) (.inl hn) s

/-- No instruction takes an input of the host's queue: putting the queue in its own place changes nothing. -/
theorem effectOf_pending (i : Instr) (s : State) : (effectOf i s).pending = s.pending := by
  have h := congrArg State.pending (effectOf_on_but_reply (i := i) (m := .host s.pending s.reply) (.inr rfl) s)
  exact h

/-- RD alone replies (45_host_system.md R160). -/
theorem effectOf_reply {i : Instr} (hi : ∀ idx, i ≠ .rd idx) (s : State) : (effectOf i s).reply = s.reply := by
  have h := congrArg State.reply (effectOf_on (m := .host s.pending s.reply) hi (.inr rfl) s)
  exact h

/-- HRUN.RANDOM alone draws (44_oracle_harness.md R151). -/
theorem effectOf_drawn {i : Instr} (hn : ∀ n, i ≠ .hrunRandom n) (s : State) : (effectOf i s).drawn = s.drawn := by
  have h := congrArg State.drawn (effectOf_on_but_reply (m := .counter s.drawn) (.inl hn) s)
  exact h

/-- Settles O45: the registers by the frame, the model's own fields because no instruction reads or writes them. -/
theorem frameOfEveryInstruction : Obligations.FrameOfEveryInstruction := by
  intro i s hwf
  have hframe := effectOf_changesOnly i s
  exact ⟨effectOf i s, exec_eq_effectOf hwf s, hframe.build, effectOf_pending i s, hframe.reg,
    fun hi => effectOf_reply hi s, fun hn => effectOf_drawn hn s⟩

/-! ## Data registers and reset -/

/-- Settles O40: a data register stands at its index, holds what is written, and a read changes the reply alone. -/
theorem readReturnsLatestWrite : Obligations.ReadReturnsLatestWrite := by
  intro s g v hg
  obtain ⟨_, hw, hne⟩ := dataReg_at_index s.build.harness hg
  obtain ⟨hr, _, _⟩ := dataReg_at_index (s.writeReg g v).build.harness hg
  refine ⟨s.writeReg g v, { s.writeReg g v with reply := .data ((s.writeReg g v).reg g) }, ?_, ?_, ?_,
    reg_withReply _ _, fun f hf => ?_⟩
  · simp only [exec, execWr, if_neg hne, hw]
  · simp only [exec, execRd, hr]
  · rw [reg_writeReg_same s g v hg]
  · exact (reg_withReply _ _ f).trans (reg_writeReg_ne s g f v hf.symm)

/-- Settles O52: the step that takes a reset leaves `State.resetWith`, whatever state it meets. -/
theorem resetSetsEveryRegister : Obligations.ResetSetsEveryRegister := by
  intro s rest hp
  have hstep : step s = .next (State.resetWith s.build s.drawn rest) := by
    simp only [step, takeInput, hp]
    rfl
  refine ⟨_, hstep, fun g hg => ?_, rfl, rfl, rfl, rfl⟩
  cases g <;> first | rfl | exact absurd rfl hg

end Sys2Proof.Machine
end

section
/-! The family 10_state.md: the sequencer of BDIV and DELTA (R33) ends where the commands do. -/

namespace Sys2Proof.Machine

/-- Within `phases` phases and `bits` bit-steps the sequencer is in IDLE over the architectural state `t`. -/
def SeqEnds (phases bits : Nat) (x : Seq) (t : State) : Prop :=
  ∃ n, n ≤ phases ∧ (seqRun n x).phase = .idle ∧ (seqRun n x).bitSteps ≤ x.bitSteps + bits ∧ (seqRun n x).st = t

theorem seqEnds_idle {x : Seq} (h : x.phase = .idle) (phases bits : Nat) : SeqEnds phases bits x x.st :=
  ⟨0, phases.zero_le, h, Nat.le_add_right _ _, rfl⟩

/-- A phase of DELTA or B0 does no bit-step. -/
theorem SeqEnds.of_phase {phases bits : Nat} {x y : Seq} {t : State} (hy : seqStep x = y)
    (hbits : y.bitSteps = x.bitSteps) (h : SeqEnds phases bits y t) : SeqEnds (phases + 1) bits x t := by
  subst hy
  obtain ⟨n, hn, hphase, hle, hst⟩ := h
  exact ⟨n + 1, Nat.succ_le_succ hn, hphase, hbits ▸ hle, hst⟩

/-- A phase of B1 does one bit-step (42_bdiv.md R116). -/
theorem SeqEnds.of_bitStep {phases bits : Nat} {x y : Seq} {t : State} (hy : seqStep x = y)
    (hbits : y.bitSteps = x.bitSteps + 1) (h : SeqEnds phases bits y t) : SeqEnds (phases + 1) (bits + 1) x t := by
  subst hy
  obtain ⟨n, hn, hphase, hle, hst⟩ := h
  refine ⟨n + 1, Nat.succ_le_succ hn, hphase, ?_, hst⟩
  rw [seqRun]
  omega

/-! ## The quotient -/

/-- The state in which `bdiv` has returned: its quotient delivered to its owner (R118, 43_delta.md R125 D5). -/
def delivered (owner : SeqOwner) (q : Word) (cap : Bool) (s : State) : State :=
  match owner with
  | .bdiv => { s with q := q }.setFlag .cap cap
  | .delta => writeDelta { res := q, zsc := false, clamp := cap } s

@[simp] theorem seqQuotient_phase (q : Word) (cap : Bool) (x : Seq) : (seqQuotient q cap x).phase = .idle := by
  unfold seqQuotient; cases x.owner <;> rfl

@[simp] theorem seqQuotient_bitSteps (q : Word) (cap : Bool) (x : Seq) :
    (seqQuotient q cap x).bitSteps = x.bitSteps := by
  unfold seqQuotient; cases x.owner <;> rfl

@[simp] theorem seqQuotient_st (q : Word) (cap : Bool) (x : Seq) :
    (seqQuotient q cap x).st = delivered x.owner q cap x.st := by
  unfold seqQuotient delivered; cases x.owner <;> rfl

/-- The quotient is delivered in IDLE. -/
theorem seqEnds_quotient (q : Word) (cap : Bool) (x : Seq) (phases bits : Nat) :
    SeqEnds phases bits (seqQuotient q cap x) (delivered x.owner q cap x.st) :=
  seqQuotient_st q cap x ▸ seqEnds_idle (seqQuotient_phase q cap x) phases bits

/-- What the division loop delivers: the running quotient, or at the early exit the cap (R110 lines 16, 17). -/
def loopDelivers (owner : SeqOwner) (k : Word) (s : State) : Option DivRegs → State
  | some d => delivered owner d.q false s
  | none => delivered owner k true s

/-! ## Phase B1 -/

/-- The limbs below limb `n` of a numerator, most significant first. -/
def lowerLimbs (num : TripleWord) : Nat → List Word
  | 0 => []
  | 1 => [num.lo]
  | _ => [num.hi1, num.lo]

/-- The limb below the one the loop is at heads the rest. -/
theorem lowerLimbs_succ {x : Seq} {n : Nat} (hn : n + 1 ≤ 2) :
    lowerLimbs x.num3 (n + 1) = seqLimbWord { x with limb := n } :: lowerLimbs x.num3 n := by
  obtain rfl | rfl : n = 0 ∨ n = 1 := by omega
  · rfl
  · rfl

theorem limbLoop_succ (dh dl k w : Word) (n : Nat) (d : DivRegs) :
    limbLoop dh dl k w (n + 1) d = (bitStep dh dl k (w.getLsbD n) d).bind (limbLoop dh dl k w n) := by
  rw [limbLoop]
  cases bitStep dh dl k (w.getLsbD n) d <;> rfl

theorem divLoop_cons (dh dl k w : Word) (ws : List Word) (d : DivRegs) :
    divLoop dh dl k (w :: ws) d = (limbLoop dh dl k w 64 d).bind (divLoop dh dl k ws) := by
  rw [divLoop]
  cases limbLoop dh dl k w 64 d <;> rfl

/-- What the division loop has still to do in phase B1: the low bits of the limb it is at, then the lower limbs. -/
def loopRest (x : Seq) : Option DivRegs :=
  (limbLoop x.den.hi x.den.lo x.k (seqLimbWord x) (x.bit + 1) x.div).bind
    (divLoop x.den.hi x.den.lo x.k (lowerLimbs x.num3 x.limb))

/-- The bit-step phase B1 is at. -/
def seqBitStep (x : Seq) : Option DivRegs :=
  bitStep x.den.hi x.den.lo x.k ((seqLimbWord x).getLsbD x.bit) x.div

/-- The loop of `bdiv` takes the sequencer's bit-step first. -/
theorem loopRest_eq (x : Seq) :
    loopRest x = ((seqBitStep x).bind (limbLoop x.den.hi x.den.lo x.k (seqLimbWord x) x.bit)).bind
      (divLoop x.den.hi x.den.lo x.k (lowerLimbs x.num3 x.limb)) := by
  rw [loopRest, limbLoop_succ, seqBitStep]

/-- The early exit (R110 line 16). -/
theorem seqBit_exit {x : Seq} (h : seqBitStep x = none) :
    loopRest x = none ∧ seqBit x = seqQuotient x.k true { x with bitSteps := x.bitSteps + 1 } := by
  refine ⟨by rw [loopRest_eq, h]; rfl, ?_⟩
  rw [seqBitStep] at h
  simp only [seqBit, h]

/-- The next bit of the same limb. -/
theorem seqBit_sameLimb {x : Seq} {d : DivRegs} {n : Nat} (h : seqBitStep x = some d) (hbit : x.bit = n + 1) :
    seqBit x = { x with div := d, bit := n, bitSteps := x.bitSteps + 1 } ∧ loopRest (seqBit x) = loopRest x := by
  have hstep : seqBit x = { x with div := d, bit := n, bitSteps := x.bitSteps + 1 } := by
    rw [seqBitStep, hbit] at h
    simp only [seqBit, h, hbit]
  refine ⟨hstep, ?_⟩
  rw [hstep, loopRest_eq x, h, hbit]
  rfl

/-- The highest bit of the next limb (R110 lines 4 to 6). -/
theorem seqBit_nextLimb {x : Seq} {d : DivRegs} {n : Nat} (h : seqBitStep x = some d) (hbit : x.bit = 0)
    (hlimb : x.limb = n + 1) (hn : n + 1 ≤ 2) :
    seqBit x = { x with div := d, limb := n, bit := 63, bitSteps := x.bitSteps + 1 } ∧
      loopRest (seqBit x) = loopRest x := by
  have hstep : seqBit x = { x with div := d, limb := n, bit := 63, bitSteps := x.bitSteps + 1 } := by
    rw [seqBitStep, hbit] at h
    simp only [seqBit, h, hbit, hlimb]
  refine ⟨hstep, ?_⟩
  rw [hstep, loopRest_eq x, h, hbit, hlimb, lowerLimbs_succ hn]
  exact (divLoop_cons _ _ _ _ _ _).symm

/-- The last bit of the numerator. -/
theorem seqBit_last {x : Seq} {d : DivRegs} (h : seqBitStep x = some d) (hbit : x.bit = 0) (hlimb : x.limb = 0) :
    loopRest x = some d ∧ seqBit x = seqQuotient d.q false { x with div := d, bitSteps := x.bitSteps + 1 } := by
  refine ⟨by rw [loopRest_eq, h, hbit, hlimb]; rfl, ?_⟩
  rw [seqBitStep, hbit] at h
  simp only [seqBit, h, hbit, hlimb]

theorem seqStep_b1 {x : Seq} (h : x.phase = .b1) : seqStep x = seqBit x := by simp only [seqStep, h]

/-- At the early exit the cap is delivered. -/
theorem seqEnds_exit {x : Seq} (hphase : x.phase = .b1) (h : seqBitStep x = none) (n : Nat) :
    SeqEnds (n + 1) (n + 1) x (loopDelivers x.owner x.k x.st (loopRest x)) := by
  obtain ⟨hrest, hstep⟩ := seqBit_exit h
  rw [hrest]
  exact .of_bitStep ((seqStep_b1 hphase).trans hstep) (seqQuotient_bitSteps _ _ _) (seqEnds_quotient _ _ _ _ _)

/-- From any place in phase B1 the sequencer does the rest of the loop, one bit-step a phase, and delivers what the loop
gives (R110, R116). -/
theorem seqEnds_b1 (n : Nat) : ∀ x : Seq, x.phase = .b1 → x.limb ≤ 2 → x.limb * 64 + x.bit = n →
    SeqEnds (n + 1) (n + 1) x (loopDelivers x.owner x.k x.st (loopRest x)) := by
  induction n with
  | zero =>
    intro x hphase _ hn
    cases h : seqBitStep x with
    | none => exact seqEnds_exit hphase h 0
    | some d =>
      obtain ⟨hrest, hstep⟩ := seqBit_last h (by omega) (by omega)
      rw [hrest]
      exact .of_bitStep ((seqStep_b1 hphase).trans hstep) (seqQuotient_bitSteps _ _ _) (seqEnds_quotient _ _ _ _ _)
  | succ n ih =>
    intro x hphase hle hn
    cases h : seqBitStep x with
    | none => exact seqEnds_exit hphase h (n + 1)
    | some d =>
      cases hbit : x.bit with
      | succ b =>
        obtain ⟨hstep, hrest⟩ := seqBit_sameLimb h hbit
        rw [← hrest, hstep]
        exact .of_bitStep ((seqStep_b1 hphase).trans hstep) rfl (ih _ hphase hle (by show x.limb * 64 + b = n; omega))
      | zero =>
        obtain ⟨l, hlimb⟩ : ∃ l, x.limb = l + 1 := ⟨x.limb - 1, by omega⟩
        obtain ⟨hstep, hrest⟩ := seqBit_nextLimb h hbit hlimb (by omega)
        rw [← hrest, hstep]
        exact .of_bitStep ((seqStep_b1 hphase).trans hstep) rfl
          (ih _ hphase (by show l ≤ 2; omega) (by show l * 64 + 63 = n; omega))

/-! ## Phase B0 -/

/-- What the command leaves when `bdiv` returns on the sequencer's numerator, denominator and cap. -/
def bdivDelivers (x : Seq) : State :=
  match bdiv x.num3.hi2 x.num3.hi1 x.num3.lo x.den.hi x.den.lo x.k with
  | .error cause => raiseFault cause x.owner.word x.st
  | .ok out => delivered x.owner out.q out.cap x.st

theorem bdivDelivers_ok {x : Seq} {out : BdivOut}
    (h : bdiv x.num3.hi2 x.num3.hi1 x.num3.lo x.den.hi x.den.lo x.k = .ok out) :
    bdivDelivers x = delivered x.owner out.q out.cap x.st := by simp only [bdivDelivers, h]

/-- Where phase B0 enters the loop (R110 lines 3 to 6). -/
def loopStart (x : Seq) : Seq := { x with div := ⟨0#64, 0#64, 0#64⟩, limb := 2, bit := 63, phase := .b1 }

/-- The rest of the loop at its start is the whole loop. -/
theorem loopRest_start (x : Seq) : loopRest (loopStart x) =
    divLoop x.den.hi x.den.lo x.k [x.num3.hi2, x.num3.hi1, x.num3.lo] ⟨0#64, 0#64, 0#64⟩ :=
  (divLoop_cons _ _ _ _ _ _).symm

/-- From phase B0 the sequencer runs `bdiv`: two tests, then at most 192 bit-steps (42_bdiv.md R110, R116). -/
theorem seqEnds_b0 {x : Seq} (hphase : x.phase = .b0) : SeqEnds 193 192 x (bdivDelivers x) := by
  by_cases hden : x.den.hi = 0#64 ∧ x.den.lo = 0#64
  · have hstep : seqStep x = seqRaise .div0 x := by simp only [seqStep, hphase, if_pos hden]
    have hres : bdivDelivers x = (seqRaise .div0 x).st := by simp only [bdivDelivers, bdiv, if_pos hden, seqRaise]
    exact hres ▸ .of_phase hstep rfl (seqEnds_idle rfl _ _)
  · by_cases hk : x.k ≤ 0#64
    · have hstep : seqStep x = seqQuotient x.k true x := by simp only [seqStep, hphase, if_neg hden, if_pos hk]
      have hres : bdivDelivers x = delivered x.owner x.k true x.st := by
        simp only [bdivDelivers, bdiv, if_neg hden, if_pos hk]
      exact hres ▸ .of_phase hstep (seqQuotient_bitSteps _ _ _) (seqEnds_quotient _ _ _ _ _)
    · have hstep : seqStep x = loopStart x := by simp only [seqStep, hphase, if_neg hden, if_neg hk, loopStart]
      have hres : bdivDelivers x = loopDelivers x.owner x.k x.st (loopRest (loopStart x)) := by
        rw [loopRest_start]
        simp only [bdivDelivers, bdiv, if_neg hden, if_neg hk]
        cases divLoop x.den.hi x.den.lo x.k [x.num3.hi2, x.num3.hi1, x.num3.lo] ⟨0#64, 0#64, 0#64⟩ <;> rfl
      exact hres ▸ .of_phase hstep rfl (seqEnds_b1 191 (loopStart x) rfl (Nat.le_refl 2) rfl)

/-! ## The two commands -/

/-- Started on BDIV, the sequencer divides the leaf unit's registers for Q and CAP (42_bdiv.md R118). -/
theorem bdivDelivers_start (s : State) : bdivDelivers (seqStart .bdiv s) = bdivEffect s := by
  simp only [bdivDelivers, bdivEffect, seqStart]
  cases bdiv s.t2 s.t1 s.t0 s.dh s.dl s.k <;> rfl

/-- Settles O54: phase B0 stands on the registers BDIV divides, and its owner takes the quotient to Q and CAP. -/
theorem sequencerRunsBdiv : Obligations.SequencerRunsBdiv := by
  intro s hexec
  obtain ⟨n, hn, hphase, hbits, hst⟩ := seqEnds_b0 (x := seqStart .bdiv s) rfl
  refine ⟨n, by omega, hphase, by simpa [seqStart] using hbits, ?_⟩
  rw [hst, bdivDelivers_start, ← runCommand_executes hexec cwBdiv bdivEffect]
  rfl

/-- Where DELTA's phases hand over to B0: the exact numerator over `p · 10000`, capped at `a` (43_delta.md R125). -/
def deltaB0 (s : State) : Seq :=
  { seqStart .delta s with
    phase := .b0, num2 := wmul s.a s.c, num3 := (snum (wmul s.a s.c).hi (wmul s.a s.c).lo s.r s.a).t,
    den := wmul s.p Config.bpsDenom, k := s.a }

/-- Past DELTA's tests that division's quotient is what DELTA writes (R126, R128). -/
theorem bdivDelivers_deltaB0 {s : State} (hr : s.r ≤ Config.rateMax) (ha : s.a ≠ 0#64) (hc : s.c ≠ 0#64)
    (hr0 : s.r ≠ 0#64) (hp : s.p ≠ 0#64) : bdivDelivers (deltaB0 s) = deltaEffect s := by
  obtain ⟨_, hnum⟩ := delta_snum (c := s.c) hr ha
  obtain ⟨hden, hpos⟩ := delta_den hp
  have hquot := bdiv_value (n2 := (deltaB0 s).num3.hi2) (n1 := (deltaB0 s).num3.hi1) (n0 := (deltaB0 s).num3.lo)
    (k := s.a) (hden ▸ hpos)
  rw [show val3 (deltaB0 s).num3.hi2 (deltaB0 s).num3.hi1 (deltaB0 s).num3.lo = _ from hnum, hden] at hquot
  rw [deltaEffect_ok (delta_quotient hr ha hc hr0 hp), bdivDelivers_ok (x := deltaB0 s) hquot]
  rfl

/-- Phases D0 to D5 and then those of BDIV end in what DELTA's rule gives (43_delta.md R125, R137). -/
theorem seqEnds_delta (s : State) : SeqEnds 199 192 (seqStart .delta s) (deltaEffect s) := by
  -- D0, the domain test
  by_cases hr : Config.rateMax < s.r
  · rw [deltaEffect_error (delta_domain hr)]
    exact .of_phase (if_pos hr) rfl (seqEnds_idle rfl _ _)
  have hle := BitVec.not_lt.1 hr
  refine .of_phase (if_neg hr) rfl ?_
  -- D1, the zero short-circuit
  by_cases hz : s.a = 0#64 ∨ s.c = 0#64 ∨ s.r = 0#64
  · rw [deltaEffect_ok (delta_zero hle hz)]
    exact .of_phase (if_pos hz) rfl (seqEnds_idle rfl _ _)
  refine .of_phase (if_neg hz) rfl ?_
  -- D2, the first product, and D3, whose saturation report never fires here (R130)
  refine .of_phase rfl rfl ?_
  obtain ⟨ha, hc, hr0⟩ : s.a ≠ 0#64 ∧ s.c ≠ 0#64 ∧ s.r ≠ 0#64 := by simpa only [not_or] using hz
  obtain ⟨hsat, _⟩ := delta_snum (c := s.c) hle ha
  refine .of_phase (if_neg (Bool.eq_false_iff.1 hsat)) rfl ?_
  -- D4, the denominator, and D5, which hands over to B0
  by_cases hp : s.p = 0#64
  · rw [deltaEffect_error (hp ▸ delta_div0 hle ha hc hr0)]
    exact .of_phase (if_pos hp) rfl (seqEnds_idle rfl _ _)
  refine .of_phase (if_neg hp) rfl ?_
  refine .of_phase rfl rfl ?_
  exact bdivDelivers_deltaB0 hle ha hc hr0 hp ▸ seqEnds_b0 (x := deltaB0 s) rfl

/-- Settles O56: the same phases and bit-steps, started by the write to CMD. -/
theorem sequencerRunsDelta : Obligations.SequencerRunsDelta := by
  intro s hexec
  obtain ⟨n, hn, hphase, hbits, hst⟩ := seqEnds_delta s
  refine ⟨n, by omega, hphase, by simpa [seqStart] using hbits, ?_⟩
  rw [hst, ← runCommand_executes hexec cwDelta deltaEffect]
  rfl

end Sys2Proof.Machine
end

section
/-! The family 20_memory.md: the address map (R59), the step (R57) and the default bus binding (R53). -/

namespace Sys2Proof.Machine

open Sys2Proof.Safety

/-! ## The address map -/

/-- The access of the register at an index is the one R59 gives the index, in every instance. -/
theorem ofIndex_access (harness : Bool) (idx : Index) :
    (Reg.ofIndex harness idx).map Reg.access = accessAt harness idx := by
  have htable : ∀ (b : Bool) (x : Index), (Reg.ofIndex b x).map Reg.access = accessAt b x := by decide
  exact htable harness idx

/-- With the harness every register of the map is there (R59). -/
theorem ofIndex_index (g : Reg) : Reg.ofIndex true g.index = some g := by
  cases g <;> rfl

/-- Settles O37: the access by R59's table; what an index holds without the harness stands at its own index, where the
harness instance has it too. -/
theorem addressMap : Obligations.AddressMap :=
  ⟨ofIndex_access, ofIndex_index, fun _ g hg => index_of_ofIndex hg ▸ ofIndex_index g⟩

/-! ## The step -/

/-- With nothing offered a step keeps the state (60_exceptions.md R191). -/
theorem step_of_idle {s : State} (hp : s.pending = []) : step s = .next s := by
  simp only [step, takeInput, hp, idle]

/-- A step delivers the first input of the queue, to completion (20_memory.md R57). -/
theorem step_of_input {s : State} {input : Input} {rest : List Input} (hp : s.pending = input :: rest) :
    step s = deliver input { s with pending := rest, reply := .notDriven } := by
  simp only [step, takeInput, hp]

/-- Settles O6: a transaction, in the queue or put there by `withFetchWord`, is delivered by running its decoding. -/
theorem stepRunsDecodedTransaction : Obligations.StepRunsDecodedTransaction :=
  ⟨fun _ _ _ hp => step_of_input hp, fun s nbits w => step_of_input (s := s.withFetchWord nbits w) rfl,
    fun _ hp => step_of_idle hp⟩

/-! ## Which accesses the default binding takes, and as what (R53) -/

/-- The accesses the binding takes: eight bytes, on a multiple of 8, at 504 or below. -/
theorem busAligned_iff (offset size : Nat) :
    busAligned offset size = true ↔ size = 8 ∧ offset % 8 = 0 ∧ offset ≤ 504 := by
  simp only [busAligned, Bool.and_eq_true, beq_iff_eq, decide_eq_true_eq]
  omega

/-- The binding refuses every other access. -/
theorem busAligned_eq_false {offset size : Nat} (h : size ≠ 8 ∨ offset % 8 ≠ 0 ∨ 504 < offset) :
    busAligned offset size = false := by
  rw [Bool.eq_false_iff, Ne, busAligned_iff]
  omega

/-- Every index has its place in the window. -/
theorem busAligned_index (idx : Index) : busAligned (8 * idx.toNat) 8 = true := by
  have hlt : idx.toNat < 64 := idx.isLt
  rw [busAligned_iff]
  omega

/-- The index at byte offset `8·idx` is `idx`. -/
theorem index_of_offset (idx : Index) : BitVec.ofNat 6 (8 * idx.toNat / 8) = idx := by
  rw [Nat.mul_div_cancel_left _ (by decide), BitVec.ofNat_toNat, BitVec.setWidth_eq]

theorem bindAccess_read_index (idx : Index) :
    bindAccess (.read (8 * idx.toNat) 8) = some (packTx false idx 0#64) := by
  rw [bindAccess, if_pos (busAligned_index idx), index_of_offset]

theorem bindAccess_write_index (idx : Index) {bytes : List (BitVec 8)} (hlen : bytes.length = 8) :
    bindAccess (.write (8 * idx.toNat) bytes) = some (packTx true idx (wordOfBytes bytes)) := by
  rw [bindAccess, hlen, if_pos (busAligned_index idx), index_of_offset]

theorem bindAccess_read_refused {offset size : Nat} (h : size ≠ 8 ∨ offset % 8 ≠ 0 ∨ 504 < offset) :
    bindAccess (.read offset size) = none := by
  rw [bindAccess, busAligned_eq_false h, if_neg Bool.false_ne_true]

theorem bindAccess_write_refused {offset : Nat} {bytes : List (BitVec 8)}
    (h : bytes.length ≠ 8 ∨ offset % 8 ≠ 0 ∨ 504 < offset) : bindAccess (.write offset bytes) = none := by
  rw [bindAccess, busAligned_eq_false h, if_neg Bool.false_ne_true]

/-- Byte `j` of the word that eight bytes make is the `j`-th of them (R53). -/
theorem getElem?_eq_byteOfWord {bytes : List (BitVec 8)} (hlen : bytes.length = 8) {j : Nat} (hj : j < 8) :
    bytes[j]? = some (byteOfWord (wordOfBytes bytes) j) := by
  have hj' : j < bytes.length := hlen.symm ▸ hj
  rw [List.getElem?_eq_getElem hj']
  congr 1
  apply BitVec.eq_of_getLsbD_eq
  intro i hi
  have hdiv : (8 * j + i) / 8 = j := by omega
  have hmod : (8 * j + i) % 8 = i := by omega
  rw [byteOfWord, BitVec.getLsbD_extractLsb', wordOfBytes_getLsbD _ _ (by omega), hdiv, hmod,
    List.getD_eq_getElem?_getD, List.getElem?_eq_getElem hj', Option.getD_some, decide_eq_true hi, Bool.true_and]

/-! ## What a step does with a bus access (R53) -/

theorem step_of_boundAccess {s : State} {access : BusAccess} {rest : List Input} {tw : TxWord}
    (hp : s.pending = .bus access :: rest) (hb : bindAccess access = some tw) :
    step s = onBus (exec (decode tw) { s with pending := rest, reply := .notDriven }) := by
  rw [step_of_input hp, deliver, hb]

theorem step_of_refusedAccess {s : State} {access : BusAccess} {rest : List Input}
    (hp : s.pending = .bus access :: rest) (hb : bindAccess access = none) :
    step s = .next { s with pending := rest, reply := .busError } := by
  rw [step_of_input hp, deliver, hb]

/-- RD always answers a word (45_host_system.md R160). -/
theorem readEffect_reply (idx : Index) (s : State) : ∃ w, (readEffect idx s).reply = .data w := by
  rcases readEffect_cases idx s with ⟨g, _, he⟩ | ⟨_, he⟩ <;> exact ⟨_, by rw [he]⟩

/-- A read's transaction word decodes to the read (30_encoding.md R70). -/
theorem decode_readWord (idx : Index) (v : Word) : decode (packTx false idx v) = .rd idx := by
  simp only [decode, txWe_packTx, txIdx_packTx, Bool.false_eq_true, if_false]

/-- A write's transaction word decodes to no read, whatever command its data encodes (R70, R166). -/
theorem decode_writeWord_ne_rd (idx : Index) (v : Word) (i : Index) : decode (packTx true idx v) ≠ .rd i := by
  simp only [decode, txWe_packTx, txIdx_packTx, txData_packTx, if_true]
  split
  · split
    · next hi => exact (decodeCommand_not_bus hi).1 i
    · exact Instr.noConfusion
  · exact Instr.noConfusion

/-- The reply stays undriven through a write, so the bus has no bytes to carry. -/
theorem onBus_write (idx : Index) (v : Word) {s : State} (hr : s.reply = .notDriven) :
    onBus (exec (decode (packTx true idx v)) s) = exec (decode (packTx true idx v)) s := by
  have hreply : (effectOf (decode (packTx true idx v)) s).reply = .notDriven :=
    (effectOf_reply (decode_writeWord_ne_rd idx v) s).trans hr
  rw [exec_eq_effectOf (decode_wf _), onBus, hreply, busReply, ← hreply]

/-- Settles O7: an access in the window is bound to its register's transaction, a read's word leaves as its bytes and a
write replies nothing; any other access is refused before it reaches the block. -/
theorem defaultBusBinding : Obligations.DefaultBusBinding := by
  refine ⟨?read, ?write, fun s rest _ _ hp h => step_of_refusedAccess hp (bindAccess_read_refused h),
    fun s rest _ _ hp h => step_of_refusedAccess hp (bindAccess_write_refused h)⟩
  case read =>
    intro s rest idx hp
    have hexec := exec_eq_effectOf (i := .rd idx) rfl { s with pending := rest, reply := .notDriven }
    obtain ⟨w, hw⟩ := readEffect_reply idx { s with pending := rest, reply := .notDriven }
    refine ⟨_, w, bytesOfWord w, hexec, hw, bytesOfWord_length w, fun j hj => bytesOfWord_getElem? w hj, ?_⟩
    rw [step_of_boundAccess hp (bindAccess_read_index idx), decode_readWord, hexec, onBus, effectOf, hw, busReply]
  case write =>
    intro s rest idx bytes hlen hp
    refine ⟨wordOfBytes bytes, fun j hj => getElem?_eq_byteOfWord hlen hj, ?_⟩
    rw [step_of_boundAccess hp (bindAccess_write_index idx hlen), onBus_write idx _ rfl]

end Sys2Proof.Machine
end

section
/-! The family 30_encoding.md: the decoder and the encoder (R70 to R75), and the words of a script's lines (R80). -/

namespace Sys2Proof

/-! ## Decode and encode agree (R70, R72) -/

/-- A read is the `RD` of its index, its data ignored (R70). -/
theorem decode_of_read {tw : TxWord} (h : txWe tw = false) : decode tw = .rd (txIdx tw) := by
  simp only [decode, h, Bool.false_eq_true, if_false]

/-- A `WR` to CMD whose data encodes no command stays a write (R70, R76). -/
theorem decode_packCommand_error {cw : Word} {e : IllegalWord} (h : decodeCommand cw = .error e) :
    decode (packCommand cw) = .wr cmdIndex cw := by
  simp [decode, packCommand, h]

/-- A write to any other index is the `WR` it packs (R70). -/
theorem decode_writeWord_ne_cmd {idx : Index} (hne : idx ≠ cmdIndex) (v : Word) :
    decode (packTx true idx v) = .wr idx v := by
  simp [decode, hne]

/-- A write encodes back to its own word: as a command, as an illegal command word, or as a write of a register. -/
theorem encode_decode_writeWord (idx : Index) (v : Word) :
    encode (decode (packTx true idx v)) = packTx true idx v := by
  by_cases hi : idx = cmdIndex
  · subst hi
    change encode (decode (packCommand v)) = packCommand v
    cases hd : decodeCommand v with
    | ok i => rw [decode_packCommand hd, (decodeCommand_encode hd).1]
    | error e => rw [decode_packCommand_error hd]; rfl
  · rw [decode_writeWord_ne_cmd hi]
    rfl

theorem encode_decode_of_write {tw : TxWord} (h : txWe tw = true) : encode (decode tw) = tw := by
  have hfields := packTx_fields tw
  rw [h] at hfields
  rw [← hfields, encode_decode_writeWord]

/-- Every well-formed instruction decodes from its own word, constructor by constructor. -/
theorem decode_encode {i : Instr} (hwf : i.wf = true) : decode (encode i) = i := by
  cases i with
  | nop => exact Laws.RoundTrip.nop hwf
  | wmul => exact Laws.RoundTrip.wmul hwf
  | snum => exact Laws.RoundTrip.snum hwf
  | bdiv => exact Laws.RoundTrip.bdiv hwf
  | delta => exact Laws.RoundTrip.delta hwf
  | clrf => exact Laws.RoundTrip.clrf hwf
  | ref => exact Laws.RoundTrip.ref hwf
  | hchk => exact Laws.RoundTrip.hchk hwf
  | hrunSmall => exact Laws.RoundTrip.hrunSmall hwf
  | hrunBoundary => exact Laws.RoundTrip.hrunBoundary hwf
  | hrunRandom n => exact Laws.RoundTrip.hrunRandom n hwf
  | hrunSatedge => exact Laws.RoundTrip.hrunSatedge hwf
  | hclr => exact Laws.RoundTrip.hclr hwf
  | rd idx => exact Laws.RoundTrip.rd idx hwf
  | wr idx v => exact Laws.RoundTrip.wr idx v hwf

/-- Settles O1: the round trip of each constructor, and a word rebuilt from its three fields. -/
theorem decodeEncodeAgree : Obligations.DecodeEncodeAgree :=
  ⟨fun _ hwf => decode_encode hwf, fun tw =>
    ⟨Machine.decode_wf tw, encode_decode_of_write, fun h => by rw [decode_of_read h]; rfl⟩⟩

/-! ## The rows of the opcode map (R72, R75) -/

/-- Two rows clash on the bits that both of their masks keep. -/
def OpRow.Apart (r q : OpRow) : Prop := r.pattern &&& q.mask ≠ q.pattern &&& r.mask

/-- No word matches two rows that clash. -/
theorem OpRow.Apart.not_both_match {r q : OpRow} (h : r.Apart q) {cw : Word} (hr : r.matches cw = true)
    (hq : q.matches cw = true) : False := by
  rw [OpRow.matches, beq_iff_eq] at hr hq
  refine h ?_
  calc r.pattern &&& q.mask
    _ = (cw &&& r.mask) &&& q.mask := by rw [hr]
    _ = (cw &&& q.mask) &&& r.mask := by rw [BitVec.and_assoc, BitVec.and_comm r.mask, BitVec.and_assoc]
    _ = q.pattern &&& r.mask := by rw [hq]

/-- Every two rows of the map clash. -/
theorem opRows_pairwise_apart : opRows.Pairwise OpRow.Apart := by
  unfold OpRow.Apart
  decide

/-- Rows that clash two by two and all match one word are one row or none. -/
theorem length_le_one_of_apart {rows : List OpRow} {cw : Word} (hapart : rows.Pairwise OpRow.Apart)
    (hmatches : ∀ row ∈ rows, row.matches cw = true) : rows.length ≤ 1 := by
  match rows with
  | [] => exact Nat.zero_le 1
  | [_] => exact le_rfl
  | r :: q :: rest =>
    have hrq : r.Apart q := (List.pairwise_cons.1 hapart).1 q (by simp)
    exact (hrq.not_both_match (hmatches r (by simp)) (hmatches q (by simp))).elim

/-- Settles O2: the rows that match a word are rows of the map, so they clash two by two. -/
theorem opcodeRowsDisjoint : Obligations.OpcodeRowsDisjoint := fun _ =>
  length_le_one_of_apart (opRows_pairwise_apart.filter _) fun _ hrow => (List.mem_filter.1 hrow).2

/-! ## The words of a script's lines, as numbers (R70, R80) -/

theorem packCommand_toNat (cw : Word) : (packCommand cw).toNat = 2 ^ 70 + 0x1B * 2 ^ 64 + cw.toNat := by
  rw [packCommand, packTx_toNat]
  rfl

/-- A command without an operand is written as its own word (R75, R80). -/
theorem encode_of_fixedCommand {cw : Word} {i : Instr} (h : (cw, i) ∈ fixedCommands) : encode i = packCommand cw := by
  have htable : ∀ x ∈ fixedCommands, encode x.2 = packCommand x.1 := by decide
  exact htable (cw, i) h

/-- Settles O3: each line's word is three fields side by side, and the listed commands are the fixed ones. -/
theorem scriptLineWords : Obligations.ScriptLineWords := by
  refine ⟨fun idx v => ?wr, fun idx => ?rd, fun i cw h => ?fixed, fun n => ?random⟩
  case wr => rw [packTx_toNat, Bool.toNat_true, Nat.one_mul]
  case rd => rw [encode, packTx_toNat, Bool.toNat_false, Nat.zero_mul, Nat.zero_add, BitVec.toNat_zero, Nat.add_zero]
  case fixed =>
    change (i, cw) ∈ fixedCommands.map fun x => (x.2, x.1.toNat) at h
    obtain ⟨⟨w, j⟩, hmem, heq⟩ := List.mem_map.1 h
    obtain ⟨rfl, rfl⟩ := Prod.mk.inj heq
    rw [encode_of_fixedCommand hmem, packCommand_toNat]
  case random =>
    have hn : (cwHrunRandom n).toNat = 0x212 + n.toNat * 2 ^ 16 := (cwHrunRandom_toNat n).trans (Nat.add_comm _ _)
    rw [encode, packCommand_toNat, hn]

/-- Settles O5: seven words, each evaluated by the decoder. -/
theorem listedWordsDecode : Obligations.ListedWordsDecode := by
  unfold Obligations.ListedWordsDecode
  decide

end Sys2Proof
end

section
/-! The family 30_encoding.md: what the illegal command words do (R76). -/

namespace Sys2Proof.Machine

open Sys2Proof.Safety

/-- An operation of the opcode map is of format C0 or is HRUN (R75). -/
theorem mem_listedOps_iff (op : BitVec 8) :
    op ∈ [0x00#8, 0x01#8, 0x02#8, 0x03#8, 0x04#8, 0x0F#8, 0x10#8, 0x11#8, 0x12#8, 0x13#8] ↔
      isC0Op op = true ∨ op = 0x12#8 := by
  revert op
  decide

theorem mem_harnessOps_iff (op : BitVec 8) : op ∈ [0x10#8, 0x11#8, 0x12#8, 0x13#8] ↔ isHarnessOp op = true := by
  simp [isHarnessOp, or_assoc]

/-- The legal words, field by field: every field above OP zero for format C0, and for HRUN a class and, of RANDOM
only, a count (R71, R74). -/
theorem isLegalCommandWord_iff_fields (cw : Word) :
    isLegalCommandWord cw = true ↔ cwZero cw = 0#16 ∧
      ((isC0Op (cwOp cw) = true ∧ cwCls cw = 0#8 ∧ cwN cw = 0#32) ∨
        (cwOp cw = 0x12#8 ∧ (cwCls cw = 2#8 ∨ (cwCls cw ≤ 3#8 ∧ cwN cw = 0#32)))) := by
  simp only [isLegalCommandWord, Bool.and_eq_true, Bool.or_eq_true, beq_iff_eq, BitVec.ule_iff_le, and_assoc]

/-- R76's list is the complement of the legal words, and the harness's words in an instance without it. -/
theorem illegalIn_iff (harness : Bool) (cw : Word) :
    IllegalIn harness cw ↔ isLegalCommandWord cw = false ∨ (harness = false ∧ isHarnessOp (cwOp cw) = true) := by
  rw [IllegalIn, mem_listedOps_iff, mem_harnessOps_iff, ← BitVec.not_le, ← Bool.not_eq_true (isLegalCommandWord cw),
    isLegalCommandWord_iff_fields]
  by_cases hop : cwOp cw = 0x12#8
  · have hc0 : isC0Op (cwOp cw) ≠ true := by rw [hop]; decide
    have hclass : cwCls cw = 2#8 → cwCls cw ≤ 3#8 := fun h => h ▸ by decide
    tauto
  · tauto

/-- A write to CMD starts the command of its data (45_host_system.md R161). -/
theorem exec_wr_cmd (cw : Word) (s : State) : exec (.wr cmdIndex cw) s = startCommand cw s := by
  rw [exec, execWr, if_pos rfl]

/-- A write of a command's word to CMD does what the command does (45_host_system.md R166). -/
theorem exec_wr_cmd_ok {cw : Word} {i : Instr} (h : decodeCommand cw = .ok i) (s : State) :
    exec (.wr cmdIndex cw) s = exec i s := by
  obtain ⟨hrd, hwr⟩ := decodeCommand_not_bus h
  rw [exec_wr_cmd, startCommand_ok h hrd hwr]

/-- ILLEGAL_CMD raised with nothing recorded (60_exceptions.md R173, R175). -/
theorem raiseFault_illegalCmd {s : State} (he : Executing s) (cw : Word) :
    raiseFault .illegalCmd cw s = faulted 3#64 cw s := raiseFault_fresh he .illegalCmd cw

/-- A word that encodes no command faults in every instance. -/
theorem exec_wr_cmd_illegal {s : State} (he : Executing s) {cw : Word} (h : isLegalCommandWord cw = false) :
    exec (.wr cmdIndex cw) s = .next (faulted 3#64 cw s) := by
  rw [exec_wr_cmd, startCommand_error (decodeCommand_error h), illegalCommand, runCommand_executes he,
    raiseFault_illegalCmd he]

/-- The fixed commands that need the harness (R75). -/
theorem fixedCommands_harness : fixedCommands.filter (fun x => isHarnessOp (cwOp x.1)) =
    [(cwRef, .ref), (cwHchk, .hchk), (cwHrunSmall, .hrunSmall), (cwHrunBoundary, .hrunBoundary),
      (cwHrunSatedge, .hrunSatedge), (cwHclr, .hclr)] := by decide

/-- A command whose operation is the harness's passes the harness gate with its own word (R72, R75). -/
theorem exec_of_harnessOp {cw : Word} {i : Instr} (h : decodeCommand cw = .ok i) (hop : isHarnessOp (cwOp cw) = true) :
    ∃ effect : State → State, ∀ s, exec i s = .next (runCommand cw true effect s) := by
  rcases decodeCommand_cases cw with ⟨j, hd, hj⟩ | ⟨hd, _, _⟩ <;> rw [hd] at h <;> cases h
  rcases hj with hfixed | ⟨hm, rfl⟩
  · have hmem : (cw, i) ∈ fixedCommands.filter fun x => isHarnessOp (cwOp x.1) := List.mem_filter.2 ⟨hfixed, hop⟩
    simp only [fixedCommands_harness, List.mem_cons, Prod.mk.injEq, List.not_mem_nil, or_false] at hmem
    rcases hmem with ⟨rfl, rfl⟩ | ⟨rfl, rfl⟩ | ⟨rfl, rfl⟩ | ⟨rfl, rfl⟩ | ⟨rfl, rfl⟩ | ⟨rfl, rfl⟩
    · exact ⟨refEffect, fun _ => rfl⟩
    · exact ⟨hchkEffect, fun _ => rfl⟩
    · exact ⟨hrunSmallEffect, fun _ => rfl⟩
    · exact ⟨hrunBoundaryEffect, fun _ => rfl⟩
    · exact ⟨hrunSatedgeEffect, fun _ => rfl⟩
    · exact ⟨hclrEffect, fun _ => rfl⟩
  · refine ⟨hrunRandomEffect (cwN cw), fun s => ?_⟩
    rw [exec, execHrunRandom, cwHrunRandom_cwN hm]

/-- Without the harness its words fault as every illegal word does (R76). -/
theorem exec_wr_cmd_absent {s : State} (he : Executing s) (hh : s.build.harness = false) {cw : Word}
    (hop : isHarnessOp (cwOp cw) = true) : exec (.wr cmdIndex cw) s = .next (faulted 3#64 cw s) := by
  cases hl : isLegalCommandWord cw with
  | false => exact exec_wr_cmd_illegal he hl
  | true =>
    obtain ⟨i, hi⟩ := (decodeCommand_ok_iff cw).2 hl
    obtain ⟨effect, heffect⟩ := exec_of_harnessOp hi hop
    rw [exec_wr_cmd_ok hi, heffect, runCommand_absent he hh, raiseFault_illegalCmd he]

/-- Settles O4: an illegal word encodes no command or is the absent harness's; any other word decodes to its command. -/
theorem illegalWordsFaultAndOthersRun : Obligations.IllegalWordsFaultAndOthersRun := by
  intro s cw he
  rw [illegalIn_iff]
  constructor
  · rintro (hl | ⟨hh, hop⟩)
    · exact exec_wr_cmd_illegal he hl
    · exact exec_wr_cmd_absent he hh hop
  · intro hlegal
    have hl : isLegalCommandWord cw = true := Bool.of_not_eq_false fun hf => hlegal (.inl hf)
    obtain ⟨i, hi⟩ := (decodeCommand_ok_iff cw).2 hl
    exact ⟨i, hi, exec_wr_cmd_ok hi s⟩

end Sys2Proof.Machine
end

section
/-! The family 30_encoding.md: what the lines of a host's script do to the block (R80, R81). -/

namespace Sys2Proof.Machine

/-! ## One access -/

/-- CMD is the one register that cannot be read (20_memory.md R59). -/
theorem readableAt_of_ofIndex {harness : Bool} {idx : Index} {f : Reg} (h : Reg.ofIndex harness idx = some f)
    (hf : f ≠ .cmd) : Reg.readableAt harness idx = some f := by
  have hread : f.access ≠ .writeOnly := by
    cases f <;> first | exact absurd rfl hf | decide
  rw [Reg.readableAt, h]
  exact if_neg hread

/-- The read of a register: its value, and the block as it was but for the reply (45_host_system.md R160). -/
theorem issueRd_of_ofIndex {s : State} {idx : Index} {f : Reg} (h : Reg.ofIndex s.build.harness idx = some f)
    (hf : f ≠ .cmd) : issueRd idx s = some (s.reg f, { s with reply := .data (s.reg f) }) := by
  refine issueRd_iff.2 ⟨?_, rfl⟩
  simp only [exec, execRd, readableAt_of_ofIndex h hf, reg_withReply]

/-- The write of a data register (45_host_system.md R161). -/
theorem issueWr_dataReg {g : Reg} (hg : g.access = .readWrite) (v : Word) (s : State) :
    issueWr g.index v s = some ({ s with reply := .notDriven }.writeReg g v) := by
  obtain ⟨_, hw, hne⟩ := dataReg_at_index s.build.harness hg
  rw [issueWr_iff, decode_writeWord_ne_cmd hne]
  simp only [exec, execWr, if_neg hne, hw]

/-- A write leaves the reply alone, so driving it and writing commute. -/
theorem writeReg_withReply (s : State) (rp : Reply) (g : Reg) (v : Word) :
    { s with reply := rp }.writeReg g v = { s.writeReg g v with reply := rp } := by
  cases g <;> rfl

/-! ## One line -/

/-- `LDV` is four writes, of A, C, P and R (R81). -/
theorem ldv_run (a c p r : Word) (s : State) : (ScriptLine.ldv a c p r).run s =
    some { block := { s with a := a, c := c, p := p, r := r, reply := .notDriven }, passed := true } := by
  have ha : ∀ t, issueWr 0x00#6 a t = some { t with a := a, reply := .notDriven } := issueWr_dataReg (g := .a) rfl a
  have hc : ∀ t, issueWr 0x01#6 c t = some { t with c := c, reply := .notDriven } := issueWr_dataReg (g := .c) rfl c
  have hp : ∀ t, issueWr 0x02#6 p t = some { t with p := p, reply := .notDriven } := issueWr_dataReg (g := .p) rfl p
  have hr : ∀ t, issueWr 0x03#6 r t = some { t with r := r, reply := .notDriven } := issueWr_dataReg (g := .r) rfl r
  simp only [ScriptLine.run, ha, hc, hp, hr, Option.bind_some, Option.map_some, unchecked]

/-- `MOV` is a read and a write of the word read (R81). -/
theorem mov_run {s : State} {dst src : Index} {g f : Reg} (hdst : Reg.ofIndex s.build.harness dst = some g)
    (hg : g.access = .readWrite) (hsrc : Reg.ofIndex s.build.harness src = some f) (hf : f ≠ .cmd) :
    (ScriptLine.mov dst src).run s =
      some { block := { s.writeReg g (s.reg f) with reply := .notDriven }, passed := true } := by
  obtain rfl : g.index = dst := index_of_ofIndex hdst
  simp only [ScriptLine.run, issueRd_of_ofIndex hsrc hf, issueWr_dataReg hg, writeReg_withReply, Option.bind_some,
    Option.map_some, unchecked]

/-- `EXPECT` of a readable register leaves the block as it was but for the reply (R81). -/
theorem expect_run_readable {s : State} {idx : Index} {f : Reg} (h : Reg.ofIndex s.build.harness idx = some f)
    (hf : f ≠ .cmd) (v : Word) : (ScriptLine.expect idx v).run s =
      some { block := { s with reply := .data (s.reg f) }, passed := decide (s.reg f = v) } := by
  simp only [ScriptLine.run, issueRd_of_ofIndex h hf, Option.map_some]

/-- `EXPECT` at any index leaves what its read leaves and compares the word read (R81). -/
theorem expect_run (idx : Index) (v : Word) (s : State) :
    ∃ t w, exec (.rd idx) { s with reply := .notDriven } = .next t ∧ t.reply = .data w ∧
      (ScriptLine.expect idx v).run s = some { block := t, passed := decide (w = v) } := by
  obtain ⟨t, w, ht, hw⟩ := exec_rd_reply idx { s with reply := .notDriven }
  have hread : issueRd idx s = some (w, t) := issueRd_iff.2 ⟨ht, hw⟩
  exact ⟨t, w, ht, hw, by simp only [ScriptLine.run, hread, Option.map_some]⟩

/-- What a line leaves on the block is the same for an `EXPECT` and for its read (R81). -/
theorem expect_block_eq_rd (idx : Index) (v : Word) (s : State) :
    ((ScriptLine.expect idx v).run s).map ScriptRun.block = ((ScriptLine.rd idx).run s).map ScriptRun.block := by
  simp only [ScriptLine.run, Option.map_map]
  rfl

/-! ## Scripts -/

/-- Every script has a result, as every line has one. -/
theorem runScript_some (lines : List ScriptLine) : ∀ s, ∃ x, runScript lines s = some x := by
  induction lines with
  | nil => exact fun s => ⟨_, rfl⟩
  | cons line lines ih =>
    intro s
    obtain ⟨x, hx⟩ := line.run_some s
    obtain ⟨y, hy⟩ := ih x.block
    exact ⟨_, by rw [runScript, hx, Option.bind_some, hy, Option.map_some]⟩

/-- The block a script leaves is passed from line to line; whether a line's check passed has no part in it. -/
theorem runScript_cons_block (line : ScriptLine) (lines : List ScriptLine) (s : State) :
    (runScript (line :: lines) s).map ScriptRun.block =
      ((line.run s).map ScriptRun.block).bind fun t => (runScript lines t).map ScriptRun.block := by
  obtain ⟨x, hx⟩ := line.run_some s
  rw [runScript, hx, Option.bind_some, Option.map_map, Option.map_some, Option.bind_some]
  rfl

/-- A line may stand for another that leaves the same block, anywhere in a script. -/
theorem runScript_block_congr {line line' : ScriptLine}
    (h : ∀ s, (line.run s).map ScriptRun.block = (line'.run s).map ScriptRun.block) (pre post : List ScriptLine) :
    ∀ s, (runScript (pre ++ line :: post) s).map ScriptRun.block =
      (runScript (pre ++ line' :: post) s).map ScriptRun.block := by
  induction pre with
  | nil => intro s; rw [List.nil_append, List.nil_append, runScript_cons_block, runScript_cons_block, h]
  | cons first pre ih =>
    intro s
    rw [List.cons_append, List.cons_append, runScript_cons_block, runScript_cons_block]
    simp only [ih]

/-- Settles O41: each pseudo-instruction by its own lemma, and scripts line by line. -/
theorem pseudoInstructionsExpand : Obligations.PseudoInstructionsExpand := fun s =>
  ⟨fun a c p r => ldv_run a c p r s, fun _ _ _ _ hdst hg hsrc hf => mov_run hdst hg hsrc hf,
    fun _ _ v h hf => expect_run_readable h hf v, fun idx v => expect_run idx v s,
    congrArg (Option.map unchecked) (issue_reset s), fun lines => runScript_some lines s,
    fun pre post idx v => runScript_block_congr (expect_block_eq_rd idx v) pre post s⟩

end Sys2Proof.Machine
end

section
/-! The family 40_wmul.md: the command WMUL (R93) and the laws of the wide product (R94), from its exactness (R91). -/

namespace Sys2Proof.Machine

open Sys2Proof.Safety

/-! ## The product as a pair of words -/

/-- The high word is the product's quotient by `2^64` (R91). -/
theorem wmul_hi_toNat (a b : Word) : (wmul a b).hi.toNat = a.toNat * b.toNat / 2 ^ 64 := by
  have hlo := (wmul a b).lo.isLt
  rw [← wmul_value a b, val2]
  omega

/-- A pair of words is determined by its value (00_scope.md R11). -/
theorem val2_inj {h l h' l' : Word} (heq : val2 h l = val2 h' l') : h = h' ∧ l = l' := by
  have hl := l.isLt
  have hl' := l'.isLt
  rw [val2, val2] at heq
  constructor <;> apply BitVec.eq_of_toNat_eq <;> omega

/-- Exactness leaves one choice of the pair: the order of the partial products cannot matter (R90). -/
theorem wmul_eq_of_value {a b h l : Word} (hval : val2 h l = a.toNat * b.toNat) : wmul a b = ⟨h, l⟩ := by
  obtain ⟨hhi, hlo⟩ := val2_inj ((wmul_value a b).trans hval.symm)
  rw [← hhi, ← hlo]

/-! ## The laws (R94) -/

theorem wmul_comm (a b : Word) : wmul a b = wmul b a :=
  wmul_eq_of_value ((wmul_value b a).trans (Nat.mul_comm _ _))

theorem wmul_zero (a : Word) : wmul a 0#64 = ⟨0#64, 0#64⟩ := wmul_eq_of_value (by simp [val2])

theorem wmul_one (a : Word) : wmul a 1#64 = ⟨0#64, a⟩ := wmul_eq_of_value (by simp [val2])

/-- The two shifts split a word's product with `2^k` at bit 64. -/
theorem val2_shifts (a : Word) {k : Nat} (hk : k ≤ 64) :
    val2 (a >>> (64 - k)) (a <<< k) = a.toNat * 2 ^ k := by
  have hsplit : 2 ^ 64 = 2 ^ (64 - k) * 2 ^ k := by rw [← pow_add, Nat.sub_add_cancel hk]
  have hshr : (a >>> (64 - k)).toNat = a.toNat * 2 ^ k / 2 ^ 64 := by
    rw [BitVec.toNat_ushiftRight, Nat.shiftRight_eq_div_pow, hsplit, Nat.mul_div_mul_right _ _ (by positivity)]
  have hshl : (a <<< k).toNat = a.toNat * 2 ^ k % 2 ^ 64 := by
    rw [BitVec.toNat_shiftLeft, Nat.shiftLeft_eq]
  rw [val2, hshr, hshl, Nat.div_add_mod']

theorem wmul_two_pow (a : Word) {k : Nat} (hk : k ≤ 63) :
    wmul a (BitVec.ofNat 64 (2 ^ k)) = ⟨a >>> (64 - k), a <<< k⟩ := by
  have hpow : (BitVec.ofNat 64 (2 ^ k)).toNat = 2 ^ k :=
    (BitVec.toNat_ofNat _ _).trans (Nat.mod_eq_of_lt (Nat.pow_lt_pow_right one_lt_two (by omega)))
  exact wmul_eq_of_value ((val2_shifts a (by omega)).trans (by rw [hpow]))

/-- The largest product of two words is `(2^64 - 1)^2`. -/
theorem wmul_hi_le (a b : Word) : (wmul a b).hi.toNat ≤ 2 ^ 64 - 2 := by
  have hmax : a.toNat * b.toNat ≤ (2 ^ 64 - 1) * (2 ^ 64 - 1) :=
    Nat.mul_le_mul (Nat.le_sub_one_of_lt a.isLt) (Nat.le_sub_one_of_lt b.isLt)
  rw [wmul_hi_toNat]
  omega

theorem wmul_hi_eq_zero_iff (a b : Word) : (wmul a b).hi = 0#64 ↔ a.toNat * b.toNat < 2 ^ 64 := by
  rw [← BitVec.toNat_inj, wmul_hi_toNat, BitVec.toNat_zero, Nat.div_eq_zero_iff_lt (by positivity)]

/-- Settles O11: the equations because the pair with the product's value is unique, the bounds by the quotient. -/
theorem wmulLaws : Obligations.WmulLaws :=
  ⟨wmul_comm, wmul_zero, wmul_one, fun a _ _ hk => wmul_two_pow a hk, wmul_hi_le, wmul_hi_eq_zero_iff,
    fun _ _ _ hb => wmul_hi_lt hb⟩

/-! ## The command (R93) -/

theorem exec_wmul_refused {s : State} (hfault : ¬ Executing s) : exec .wmul s = .next s :=
  congrArg Host.Outcome.next (runCommand_refused (Bool.of_not_eq_false hfault) cwWmul false wmulEffect)

theorem exec_wmul_executing {s : State} (he : Executing s) :
    exec .wmul s = .next { s with mh := (wmul s.ma s.mb).hi, ml := (wmul s.ma s.mb).lo } :=
  congrArg Host.Outcome.next (runCommand_executes he cwWmul wmulEffect)

/-- Settles O10: the two words written are those of `wmul`, whose value is the exact product. -/
theorem wmulRule : Obligations.WmulRule :=
  ⟨Laws.RoundTrip.wmul rfl, fun s => ⟨exec_wmul_refused, fun he =>
    ⟨(wmul s.ma s.mb).hi, (wmul s.ma s.mb).lo, wmul_value s.ma s.mb, exec_wmul_executing he⟩⟩⟩

end Sys2Proof.Machine
end

section
/-! The family 41_snum.md: the command SNUM (R104, R105), the soundness of its saturation report (R103), and its corner
cases (R106), from its exactness (R101). -/

namespace Sys2Proof.Machine

open Sys2Proof.Safety

/-! ## The product as a triple of words -/

/-- A triple of words is determined by its value (00_scope.md R11). -/
theorem val3_inj {x y z x' y' z' : Word} (heq : val3 x y z = val3 x' y' z') : x = x' ∧ y = y' ∧ z = z' := by
  have hy := y.isLt
  have hy' := y'.isLt
  have hz := z.isLt
  have hz' := z'.isLt
  rw [val3, val3] at heq
  refine ⟨?_, ?_, ?_⟩ <;> apply BitVec.eq_of_toNat_eq <;> omega

/-- Exactness leaves one choice of the triple, and the report is the comparison of its top word (R101, R102). -/
theorem snum_eq_of_value {nh nl s x y z : Word} (k : Word) (hs : s.toNat < 2 ^ 14)
    (hval : val3 x y z = val2 nh nl * s.toNat) : snum nh nl s k = { t := ⟨x, y, z⟩, sat := decide (k ≤ x) } := by
  obtain ⟨hexact, _, hsat⟩ := snum_value (nh := nh) (nl := nl) (k := k) hs
  obtain ⟨rfl, rfl, rfl⟩ := val3_inj (hexact.trans hval.symm)
  rw [← hsat]

/-! ## The saturation report (R102, R103) -/

theorem snum_sat_iff (nh nl s k : Word) :
    (snum nh nl s k).sat = true ↔ k.toNat ≤ (snum nh nl s k).t.hi2.toNat :=
  decide_eq_true_iff.trans BitVec.le_def

/-- A cap not above the top word is not above the quotient either: the top word weighs `2^128`, more than any
denominator (R103). -/
theorem le_quotient_of_le_top {x y z dh dl : Word} {n : Nat} (hn : n ≤ x.toNat) (hd : val2 dh dl ≠ 0) :
    n ≤ val3 x y z / val2 dh dl := by
  have hden : val2 dh dl ≤ 2 ^ 128 := by
    have hh := dh.isLt
    have hl := dl.isLt
    rw [val2]
    omega
  rw [Nat.le_div_iff_mul_le (Nat.pos_of_ne_zero hd)]
  calc n * val2 dh dl
    _ ≤ x.toNat * 2 ^ 128 := Nat.mul_le_mul hn hden
    _ ≤ val3 x y z := by rw [val3, Nat.add_assoc]; exact Nat.le_add_right _ _

/-! ## The command (R104, R105) -/

theorem exec_snum_refused {s : State} (hfault : ¬ Executing s) : exec .snum s = .next s :=
  congrArg Host.Outcome.next (runCommand_refused (Bool.of_not_eq_false hfault) cwSnum false snumEffect)

theorem exec_snum_executing {s : State} (he : Executing s) : exec .snum s = .next (snumEffect s) :=
  congrArg Host.Outcome.next (runCommand_executes he cwSnum snumEffect)

theorem scalarLimit_le_iff (x : Word) : Config.scalarLimit ≤ x ↔ 2 ^ 14 ≤ x.toNat := BitVec.le_def

/-- The domain test comes first, and its fault is all that is written (R105). -/
theorem snumEffect_domain {s : State} (he : Executing s) (hs : 2 ^ 14 ≤ s.s.toNat) :
    snumEffect s = faulted 2#64 0x02#64 s := by
  rw [snumEffect, if_pos ((scalarLimit_le_iff s.s).2 hs)]
  exact raiseFault_fresh he .domain cwSnum

/-- Inside the domain the triple and the report are those of `snum` (R104). -/
theorem snumEffect_inDomain {s : State} (hs : s.s.toNat < 2 ^ 14) :
    snumEffect s = { s with t2 := (snum s.nh s.nl s.s s.k).t.hi2, t1 := (snum s.nh s.nl s.s s.k).t.hi1,
                            t0 := (snum s.nh s.nl s.s s.k).t.lo }.setFlag .sat (snum s.nh s.nl s.s s.k).sat := by
  have hlimit : ¬ Config.scalarLimit ≤ s.s := by rwa [scalarLimit_le_iff, Nat.not_le]
  rw [snumEffect, if_neg hlimit]

/-- Settles O12: the three words written are those of `snum`, whose value is the exact product. -/
theorem snumRule : Obligations.SnumRule :=
  ⟨Laws.RoundTrip.snum rfl, fun _ => ⟨exec_snum_refused,
    fun he hs => (exec_snum_executing he).trans (congrArg _ (snumEffect_domain he hs)),
    fun he hs => ⟨_, _, _, (snum_value hs).1, (exec_snum_executing he).trans (congrArg _ (snumEffect_inDomain hs))⟩⟩⟩

/-- Settles O13: SAT says that `K` is at most `T2`, so it is at most every quotient of the triple. -/
theorem saturationReportSound : Obligations.SaturationReportSound := by
  intro s he hs
  refine ⟨snumEffect s, exec_snum_executing he, ?_⟩
  rw [snumEffect_inDomain hs, flag_setFlag_same, snum_sat_iff]
  intro hk dh dl hd
  have hle := le_quotient_of_le_top (y := (snum s.nh s.nl s.s s.k).t.hi1) (z := (snum s.nh s.nl s.s s.k).t.lo) hk hd
  exact ⟨hle, Nat.min_eq_left hle⟩

/-! ## The corner cases (R106) -/

theorem snum_zero_scalar (nh nl k : Word) :
    snum nh nl 0#64 k = { t := ⟨0#64, 0#64, 0#64⟩, sat := decide (k = 0#64) } := by
  rw [snum_eq_of_value k (x := 0#64) (y := 0#64) (z := 0#64) (by decide) (by simp [val3])]
  simp only [BitVec.le_zero_iff]

/-- A cap of 0 clamps every quotient, for every scalar. -/
theorem snum_sat_of_zero_cap (nh nl s : Word) : (snum nh nl s 0#64).sat = true :=
  (snum_sat_iff nh nl s 0#64).2 (Nat.zero_le _)

/-- A cap of more than 14 bits is above every top word (R101). -/
theorem snum_not_sat_of_large_cap (nh nl : Word) {s k : Word} (hs : s.toNat < 2 ^ 14) (hk : 16383 < k.toNat) :
    (snum nh nl s k).sat = false := by
  have htop : (snum nh nl s k).t.hi2.toNat < 2 ^ 14 := (snum_value hs).2.1
  rw [Bool.eq_false_iff, Ne, snum_sat_iff]
  omega

theorem snum_largest (k : Word) : snum M64 M64 16383#64 k =
    { t := ⟨0x3FFE#64, 0xFFFFFFFFFFFFFFFF#64, 0xFFFFFFFFFFFFC001#64⟩, sat := decide (k ≤ 0x3FFE#64) } :=
  snum_eq_of_value k (by decide) (by decide)

theorem snum_without_carry (k : Word) : snum 3#64 M64 3#64 k =
    { t := ⟨0#64, 11#64, 0xFFFFFFFFFFFFFFFD#64⟩, sat := decide (k ≤ 0#64) } :=
  snum_eq_of_value k (by decide) (by decide)

theorem snum_with_carry (k : Word) : snum 0x5555555555555555#64 M64 3#64 k =
    { t := ⟨1#64, 1#64, 0xFFFFFFFFFFFFFFFD#64⟩, sat := decide (k ≤ 1#64) } :=
  snum_eq_of_value k (by decide) (by decide)

/-- Settles O14: the bounds from R101, the listed products because the triple with the product's value is unique, and
DELTA's use by R130. -/
theorem snumCornerCases : Obligations.SnumCornerCases :=
  ⟨snum_zero_scalar, snum_sat_of_zero_cap, fun nh nl _ _ hs hk => snum_not_sat_of_large_cap nh nl hs hk,
    fun _ _ _ _ hs => (snum_value hs).2.1, fun k => congrArg SnumOut.t (snum_largest k),
    congrArg SnumOut.sat (snum_largest 16382#64), congrArg SnumOut.sat (snum_largest 16383#64),
    wmul_eq_of_value (by decide), wmul_eq_of_value (by decide), wmul_eq_of_value (by decide),
    fun k => congrArg SnumOut.t (snum_without_carry k), fun k => congrArg SnumOut.t (snum_with_carry k),
    fun _ _ _ ha hr => (delta_snum (BitVec.le_def.2 hr) ha).1⟩

end Sys2Proof.Machine
end

section
/-! The family 42_bdiv.md: the command BDIV (R117, R118) and the invariant of the long division (R111). -/

namespace Sys2Proof.Machine

open Sys2Proof.Safety

/-! ## The command (R117, R118) -/

theorem exec_bdiv_refused {s : State} (hfault : ¬ Executing s) : exec .bdiv s = .next s :=
  congrArg Host.Outcome.next (runCommand_refused (Bool.of_not_eq_false hfault) cwBdiv false bdivEffect)

theorem exec_bdiv_executing {s : State} (he : Executing s) : exec .bdiv s = .next (bdivEffect s) :=
  congrArg Host.Outcome.next (runCommand_executes he cwBdiv bdivEffect)

/-- A zero denominator is reported before the cap is looked at, and its fault is all that is written (R117). -/
theorem bdivEffect_div0 {s : State} (he : Executing s) (hh : s.dh = 0#64) (hl : s.dl = 0#64) :
    bdivEffect s = faulted 1#64 0x03#64 s := by
  have hdiv : bdiv s.t2 s.t1 s.t0 s.dh s.dl s.k = .error .div0 := by rw [hh, hl]; exact bdiv_zero _ _ _ _
  rw [bdivEffect_error hdiv]
  exact raiseFault_fresh he .div0 cwBdiv

/-- Settles O15: the quotient and the report delivered are those of the unit's closed form (R112). -/
theorem bdivRule : Obligations.BdivRule :=
  ⟨Laws.RoundTrip.bdiv rfl, fun _ => ⟨exec_bdiv_refused,
    fun he hh hl => (exec_bdiv_executing he).trans (congrArg _ (bdivEffect_div0 he hh hl)),
    fun he hD => (exec_bdiv_executing he).trans
      (congrArg _ (bdivEffect_ok (bdiv_value (Nat.pos_of_ne_zero hD))))⟩⟩

/-! ## The bits of the numerator -/

/-- The loop's counters `limb` and `bit` stand at bit `limb · 64 + bit` of the numerator (R110 lines 4 to 6). -/
theorem seqLimbWord_bit {x : Seq} (hlimb : x.limb ≤ 2) (hbit : x.bit < 64) :
    (seqLimbWord x).getLsbD x.bit = (val3 x.num3.hi2 x.num3.hi1 x.num3.lo).testBit (x.limb * 64 + x.bit) := by
  have hval : val3 x.num3.hi2 x.num3.hi1 x.num3.lo =
      2 ^ 64 * (2 ^ 64 * x.num3.hi2.toNat + x.num3.hi1.toNat) + x.num3.lo.toNat := by rw [val3]; ring
  rw [hval, Nat.testBit_two_pow_mul_add _ x.num3.lo.isLt, Nat.testBit_two_pow_mul_add _ x.num3.hi1.isLt,
    BitVec.testBit_toNat, BitVec.testBit_toNat, BitVec.testBit_toNat]
  obtain hl | hl | hl : x.limb = 0 ∨ x.limb = 1 ∨ x.limb = 2 := by omega
  · simp [seqLimbWord, hl, hbit]
  · simp [seqLimbWord, hl, hbit]
  · have hpos : 2 * 64 + x.bit - 64 - 64 = x.bit := by omega
    rw [hl, if_neg (by omega), if_neg (by omega), hpos]
    simp only [seqLimbWord, hl]

theorem topBits_zero (t2 t1 t0 : Word) : topBits t2 t1 t0 0 = 0 := by
  have h2 := t2.isLt
  have h1 := t1.isLt
  have h0 := t0.isLt
  rw [topBits, val3]
  omega

/-- `N_(j+1)` is `N_j` with the numerator's next bit below it (R111). -/
theorem topBits_succ (t2 t1 t0 : Word) {j : Nat} (hj : j < 192) :
    topBits t2 t1 t0 (j + 1) = 2 * topBits t2 t1 t0 j + ((val3 t2 t1 t0).testBit (191 - j)).toNat := by
  have hi : 192 - (j + 1) = 191 - j := by omega
  have hi' : 192 - j = 191 - j + 1 := by omega
  rw [topBits, topBits, hi, hi', pow_succ, ← Nat.div_div_eq_div_mul, Nat.toNat_testBit, Nat.div_add_mod]

/-! ## The sequencer in the loop -/

/-- A run of `n + 1` phases ends with one phase. -/
theorem seqRun_succ (n : Nat) : ∀ x : Seq, seqRun (n + 1) x = seqStep (seqRun n x) := by
  induction n with
  | zero => exact fun _ => rfl
  | succ n ih => exact fun x => ih (seqStep x)

/-- The sequencer of BDIV in phase B1 with `j` bit-steps behind it: at bit `191 - j` of the numerator. -/
def loopAt (s : State) (d : DivRegs) (j : Nat) : Seq :=
  { loopStart (seqStart .bdiv s) with div := d, limb := (191 - j) / 64, bit := (191 - j) % 64, bitSteps := j }

/-- Past the two tests of B0 the loop begins with every temporary 0 (R110 lines 1 to 6). -/
theorem seqRun_one_start {s : State} (hD : val2 s.dh s.dl ≠ 0) (hk : s.k ≠ 0#64) :
    seqRun 1 (seqStart .bdiv s) = loopAt s ⟨0#64, 0#64, 0#64⟩ 0 := by
  have hden : ¬ (s.dh = 0#64 ∧ s.dl = 0#64) := fun ⟨hh, hl⟩ => hD (by rw [hh, hl]; rfl)
  have hcap : ¬ s.k ≤ 0#64 := fun h => hk (BitVec.le_zero_iff.1 h)
  exact (if_neg hden).trans (if_neg hcap)

/-- The bit-step at `loopAt s d j` takes in the numerator's bit `191 - j`. -/
theorem seqBitStep_loopAt (s : State) (d : DivRegs) (j : Nat) :
    seqBitStep (loopAt s d j) = bitStep s.dh s.dl s.k ((val3 s.t2 s.t1 s.t0).testBit (191 - j)) d := by
  have hlimb : (loopAt s d j).limb ≤ 2 := by show (191 - j) / 64 ≤ 2; omega
  have hbit : (loopAt s d j).bit < 64 := Nat.mod_lt _ (by decide)
  have hpos : (loopAt s d j).limb * 64 + (loopAt s d j).bit = 191 - j := Nat.div_add_mod' _ _
  rw [seqBitStep, seqLimbWord_bit hlimb hbit, hpos]
  rfl

/-- Before the last bit of the numerator a bit-step that does not exit leads to the next one. -/
theorem seqBit_loopAt {s : State} {d d' : DivRegs} {j : Nat} (h : seqBitStep (loopAt s d j) = some d')
    (hj : j + 1 < 192) : seqBit (loopAt s d j) = loopAt s d' (j + 1) := by
  cases hbit : (191 - j) % 64 with
  | succ n =>
    have hlimb' : (191 - (j + 1)) / 64 = (191 - j) / 64 := by omega
    have hbit' : (191 - (j + 1)) % 64 = n := by omega
    rw [(seqBit_sameLimb h hbit).1, loopAt, loopAt, hlimb', hbit']
  | zero =>
    obtain ⟨n, hlimb⟩ : ∃ n, (191 - j) / 64 = n + 1 := ⟨(191 - j) / 64 - 1, by omega⟩
    have hlimb' : (191 - (j + 1)) / 64 = n := by omega
    have hbit' : (191 - (j + 1)) % 64 = 63 := by omega
    rw [(seqBit_nextLimb h hbit hlimb (by omega)).1, loopAt, loopAt, hlimb', hbit']

@[simp] theorem seqQuotient_div (q : Word) (cap : Bool) (x : Seq) : (seqQuotient q cap x).div = x.div := by
  unfold seqQuotient
  cases x.owner <;> rfl

/-- A bit-step that does not exit leaves its result in the temporaries, the last one too. -/
theorem seqBit_loopAt_div {s : State} {d d' : DivRegs} {j : Nat} (h : seqBitStep (loopAt s d j) = some d')
    (hj : j < 192) : (seqBit (loopAt s d j)).div = d' := by
  obtain hlt | rfl : j + 1 < 192 ∨ j = 191 := by omega
  · rw [seqBit_loopAt h hlt]
    rfl
  · rw [(seqBit_last h rfl rfl).2, seqQuotient_div]

/-! ## The invariant (R111) -/

/-- The early exit was taken: BDIV is done and has reported its cap (R110 line 16). -/
def LeftLoop (x : Seq) : Prop := x.phase = .idle ∧ x.st.flag .cap = true

/-- What holds after `j` bit-steps none of which exited: R111 of the temporaries, and before the last bit the sequencer
is still in the loop. -/
def LoopInv (s : State) (j : Nat) (x : Seq) : Prop :=
  DivInv s.dh s.dl s.k (topBits s.t2 s.t1 s.t0 j) x.div ∧ (j < 192 → x = loopAt s x.div j)

theorem LeftLoop.step {x : Seq} (h : LeftLoop x) : LeftLoop (seqStep x) := by
  have hidle : seqStep x = x := by simp only [seqStep, h.1]
  exact hidle.symm ▸ h

/-- Before the first bit-step the temporaries are 0, and so is the number of no bits (R111 at `j = 0`). -/
theorem divInv_zero (dh dl : Word) {k : Word} (hk : k ≠ 0#64) : DivInv dh dl k 0 ⟨0#64, 0#64, 0#64⟩ :=
  ⟨by simp [val2], by simp, Nat.pos_of_ne_zero fun h => hk (BitVec.eq_of_toNat_eq h)⟩

theorem loopInv_start {s : State} (hD : val2 s.dh s.dl ≠ 0) (hk : s.k ≠ 0#64) :
    LoopInv s 0 (seqRun 1 (seqStart .bdiv s)) := by
  rw [seqRun_one_start hD hk, LoopInv, topBits_zero]
  exact ⟨divInv_zero s.dh s.dl hk, fun _ => rfl⟩

/-- One phase of B1 exits, or keeps the invariant with the numerator's next bit. -/
theorem LoopInv.step {s : State} {j : Nat} {x : Seq} (hD : val2 s.dh s.dl ≠ 0) (hj : j < 192) (h : LoopInv s j x) :
    LeftLoop (seqStep x) ∨ LoopInv s (j + 1) (seqStep x) := by
  obtain ⟨hinv, hx⟩ := h
  generalize x.div = d at hinv hx
  obtain rfl := hx hj
  rw [seqStep_b1 rfl]
  rcases bitStep_spec (Nat.pos_of_ne_zero hD) hinv ((val3 s.t2 s.t1 s.t0).testBit (191 - j)) with
    ⟨hexit, _⟩ | ⟨d', hnext, hinv'⟩
  · left
    rw [(seqBit_exit ((seqBitStep_loopAt s d j).trans hexit)).2]
    refine ⟨seqQuotient_phase _ _ _, ?_⟩
    rw [seqQuotient_st]
    exact flag_setFlag_same _ _ _
  · right
    have hstep := (seqBitStep_loopAt s d j).trans hnext
    have hdiv := seqBit_loopAt_div hstep hj
    rw [LoopInv, hdiv, topBits_succ _ _ _ hj]
    exact ⟨hinv', seqBit_loopAt hstep⟩

/-- At `j` bit-steps BDIV has left its loop early or the invariant holds. -/
theorem leftLoop_or_loopInv {s : State} (hD : val2 s.dh s.dl ≠ 0) (hk : s.k ≠ 0#64) (j : Nat) (hj : j ≤ 192) :
    LeftLoop (seqRun (j + 1) (seqStart .bdiv s)) ∨ LoopInv s j (seqRun (j + 1) (seqStart .bdiv s)) := by
  induction j with
  | zero => exact .inr (loopInv_start hD hk)
  | succ j ih =>
    rw [seqRun_succ]
    rcases ih (by omega) with hleft | hinv
    · exact .inl hleft.step
    · exact hinv.step hD (by omega)

/-- Settles O55: a run still in B1, or done with CAP at 0, took no early exit, so the invariant holds of it. -/
theorem divisionLoopInvariant : Obligations.DivisionLoopInvariant := by
  intro s j hD hk hj x hstay
  rcases leftLoop_or_loopInv hD hk j hj with ⟨hidle, hcap⟩ | ⟨hinv, _⟩
  · rcases hstay with hb1 | ⟨_, hcap'⟩
    · exact absurd (hidle.symm.trans hb1) (by decide)
    · exact absurd (hcap.symm.trans hcap') (by decide)
  · exact hinv

end Sys2Proof.Machine
end

section
/-! The family 43_delta.md: the sizes of DELTA's intermediates (R129, R130), the command on every path (R126, R132 to
R134), what CLAMP says (R131), and DELTA's bound, monotonicity and determination (R135). -/

namespace Sys2Proof.Machine

open Sys2Proof.Safety

/-! ## The intermediates (R129, R130) -/

/-- The denominator is exact for every `p`, zero included (R125 D4). -/
theorem denominator_value (p : Word) :
    val2 (wmul p Config.bpsDenom).hi (wmul p Config.bpsDenom).lo = p.toNat * 10000 :=
  wmul_value p Config.bpsDenom

theorem denominator_eq_zero_iff (p : Word) :
    val2 (wmul p Config.bpsDenom).hi (wmul p Config.bpsDenom).lo = 0 ↔ p = 0#64 := by
  rw [denominator_value, ← BitVec.toNat_inj, BitVec.toNat_zero]
  omega

/-- A top word of `n` bits makes a number of `128 + n` bits. -/
theorem val3_lt {x : Word} {n : Nat} (y z : Word) (hx : x.toNat < 2 ^ n) : val3 x y z < 2 ^ n * 2 ^ 128 := by
  have hy := y.isLt
  have hz := z.isLt
  rw [val3]
  omega

/-- DELTA's numerator is exact for every `a`, zero included, and its top word has 14 bits (R125 D3, R129). -/
theorem numerator_value (a c : Word) {r : Word} (hr : r ≤ Config.rateMax) :
    let t := (snum (wmul a c).hi (wmul a c).lo r a).t
    val3 t.hi2 t.hi1 t.lo = a.toNat * c.toNat * r.toNat ∧ t.hi2.toNat < 2 ^ 14 := by
  have hs : r.toNat < 2 ^ 14 := (BitVec.le_def.1 hr).trans_lt (by decide)
  obtain ⟨hexact, htop, _⟩ := snum_value (nh := (wmul a c).hi) (nl := (wmul a c).lo) (k := a) hs
  exact ⟨by rw [hexact, wmul_value], htop⟩

/-- Settles O16: the values by exactness, the numerator's size from its top word, and the report by R130. -/
theorem deltaIntermediatesFit : Obligations.DeltaIntermediatesFit := by
  refine ⟨denominator_eq_zero_iff, fun a c p r _ hr hp => ?_⟩
  have hp0 : p ≠ 0#64 := by rintro rfl; exact absurd hp (by decide)
  obtain ⟨hnum, htop⟩ := numerator_value a c (BitVec.le_def.2 hr)
  have hsize : a.toNat * c.toNat * r.toNat < 2 ^ 142 := hnum ▸ val3_lt _ _ htop
  refine ⟨wmul_value a c, hnum, hsize, htop, denominator_value p, wmul_hi_lt (by decide),
    mt (denominator_eq_zero_iff p).1 hp0, fun ha => ?_⟩
  have ha0 : a ≠ 0#64 := by rintro rfl; exact absurd ha (by decide)
  obtain ⟨hsat, _⟩ := delta_snum (c := c) (BitVec.le_def.2 hr) ha0
  exact ⟨hsat, Nat.not_le.1 fun hle => Bool.eq_false_iff.1 hsat ((snum_sat_iff _ _ _ _).2 hle)⟩

/-! ## CLAMP's comparison (R131) -/

/-- The quotient reaches `a` when the numerator reaches `a·p·10000`. -/
theorem le_quotient_iff {p : Word} (hp : p ≠ 0#64) (a n : Nat) :
    a ≤ n / (p.toNat * 10000) ↔ a * p.toNat * 10000 ≤ n := by
  rw [Nat.le_div_iff_mul_le (delta_den hp).2, Nat.mul_assoc]

/-- A non-zero `a` cancels from both sides. -/
theorem saturates_iff {a : Word} (ha : a ≠ 0#64) (c p r : Nat) :
    a.toNat * p * 10000 ≤ a.toNat * c * r ↔ p * 10000 ≤ c * r := by
  rw [Nat.mul_assoc, Nat.mul_assoc, Nat.mul_le_mul_left_iff (BitVec.toNat_pos_of_ne_zero ha)]

/-! ## The command on every path (R126) -/

theorem exec_delta_refused {s : State} (hfault : ¬ Executing s) : exec .delta s = .next s :=
  congrArg Host.Outcome.next (runCommand_refused (Bool.of_not_eq_false hfault) cwDelta false deltaEffect)

theorem exec_delta_executing {s : State} (he : Executing s) : exec .delta s = .next (deltaEffect s) :=
  congrArg Host.Outcome.next (runCommand_executes he cwDelta deltaEffect)

/-- What DELTA does when its unit raises a fault: the record alone is written. -/
theorem exec_delta_error {s : State} (he : Executing s) {e : Cause} (h : delta s.a s.c s.p s.r = .error e) :
    exec .delta s = .next (faulted e.code cwDelta s) := by
  rw [exec_delta_executing he, deltaEffect_error h, raiseFault_fresh he, faulted]

/-- What DELTA does when its unit answers: RESULT, ZSC and CLAMP alone are written. -/
theorem exec_delta_ok {s : State} (he : Executing s) {out : DeltaOut} (h : delta s.a s.c s.p s.r = .ok out) :
    exec .delta s = .next (writeDelta out s) := by
  rw [exec_delta_executing he, deltaEffect_ok h]

theorem exec_delta_quotient {s : State} (he : Executing s) (hr : s.r ≤ Config.rateMax) (ha : s.a ≠ 0#64)
    (hc : s.c ≠ 0#64) (hr0 : s.r ≠ 0#64) (hp : s.p ≠ 0#64) :
    exec .delta s = .next (writeDelta
      { res := BitVec.ofNat 64 (exactStake s.a.toNat s.c.toNat s.p.toNat s.r.toNat), zsc := false,
        clamp := decide (s.a.toNat * s.p.toNat * 10000 ≤ s.a.toNat * s.c.toNat * s.r.toNat) } s) := by
  rw [exec_delta_ok he (delta_quotient hr ha hc hr0 hp), decide_eq_decide.2 (le_quotient_iff hp _ _)]

/-- Settles O17: path by path in the order of the unit's tests. -/
theorem deltaRule : Obligations.DeltaRule :=
  ⟨Laws.RoundTrip.delta rfl, fun _ => ⟨exec_delta_refused,
    fun he hr => exec_delta_error he (delta_domain (BitVec.lt_def.2 hr)),
    fun he hr hz => exec_delta_ok he (delta_zero (BitVec.le_def.2 hr) hz),
    fun he hr ha hc hr0 hp => exec_delta_error (e := .div0) he (hp ▸ delta_div0 (BitVec.le_def.2 hr) ha hc hr0),
    fun he hr ha hc hr0 hp => exec_delta_quotient he (BitVec.le_def.2 hr) ha hc hr0 hp⟩⟩

/-! ## What CLAMP says (R131) -/

theorem writeDelta_flag_clamp (out : DeltaOut) (s : State) : (writeDelta out s).flag .clamp = out.clamp :=
  flag_setFlag_same _ _ _

theorem writeDelta_flag_zsc (out : DeltaOut) (s : State) : (writeDelta out s).flag .zsc = out.zsc :=
  (flag_setFlag_ne _ _ (by decide)).trans (flag_setFlag_same _ _ _)

/-- Settles O19: CLAMP holds the comparison of R131, and RESULT the smaller of `A` and the quotient compared. -/
theorem clampSaysSaturation : Obligations.ClampSaysSaturation := by
  intro s he hr
  refine ⟨fun ha hc hr0 hp => ⟨_, exec_delta_quotient he (BitVec.le_def.2 hr) ha hc hr0 hp, ?_⟩,
    fun hz => ⟨_, exec_delta_ok he (delta_zero (BitVec.le_def.2 hr) hz), writeDelta_flag_clamp _ s⟩⟩
  have hquot := le_quotient_iff hp s.a.toNat (s.a.toNat * s.c.toNat * s.r.toNat)
  rw [writeDelta_flag_clamp, writeDelta_result, decide_eq_true_iff, decide_eq_false_iff_not, ← BitVec.toNat_inj,
    BitVec.lt_def, ofNat_exactStake_toNat, exactStake]
  exact ⟨.rfl, saturates_iff ha _ _ _, hquot.symm, fun hsat => Nat.min_eq_left (hquot.2 hsat),
    fun hbelow => (Nat.min_le_right _ _).trans_lt (Nat.not_le.1 (mt hquot.1 hbelow))⟩

/-! ## Bounded, monotone, determined (R135, R37) -/

/-- An answer of the unit is the one inside the compared domain, whatever `p` is (R128, R132). -/
theorem eq_deltaValue_of_ok {a c p r : Word} {out : DeltaOut} (h : delta a c p r = .ok out) :
    out = deltaValue a c p r := by
  by_cases hr : Config.rateMax < r
  · rw [delta_domain hr] at h; cases h
  have hle := BitVec.not_lt.1 hr
  by_cases hp : p = 0#64
  · by_cases hz : a = 0#64 ∨ c = 0#64 ∨ r = 0#64
    · rw [delta_zero hle hz] at h; cases h
      rw [deltaValue, if_pos hz]
    · obtain ⟨ha, hc, hr0⟩ : a ≠ 0#64 ∧ c ≠ 0#64 ∧ r ≠ 0#64 := by simpa only [not_or] using hz
      rw [hp, delta_div0 hle ha hc hr0] at h; cases h
  · rw [delta_value hle hp] at h; cases h
    rfl

theorem deltaValue_res_toNat (a c p r : Word) :
    (deltaValue a c p r).res.toNat = exactStake a.toNat c.toNat p.toNat r.toNat := by
  rw [deltaValue_res, ofNat_exactStake_toNat]

theorem delta_res_le {a c p r : Word} {out : DeltaOut} (h : delta a c p r = .ok out) : out.res ≤ a := by
  rw [eq_deltaValue_of_ok h, BitVec.le_def, deltaValue_res_toNat]
  exact Nat.min_le_left _ _

theorem exactStake_mono {c c' r r' : Nat} (a p : Nat) (hc : c ≤ c') (hr : r ≤ r') :
    exactStake a c p r ≤ exactStake a c' p r' :=
  min_le_min_left a (Nat.div_le_div_right (Nat.mul_le_mul (Nat.mul_le_mul_left a hc) hr))

theorem deltaValue_res_mono {c c' r r' : Word} (a p : Word) (hc : c ≤ c') (hr : r ≤ r') :
    (deltaValue a c p r).res ≤ (deltaValue a c' p r').res := by
  rw [BitVec.le_def, deltaValue_res_toNat, deltaValue_res_toNat]
  exact exactStake_mono _ _ hc hr

theorem not_executing_faulted (code info : Word) (s : State) : ¬ Executing (faulted code info s) := fun h =>
  absurd ((flag_setFlag_same s .fault true).symm.trans h) (by decide)

theorem executing_writeDelta {s : State} (he : Executing s) (out : DeltaOut) : Executing (writeDelta out s) :=
  (writeDelta_flag out s (by decide) (by decide)).trans he

theorem exec_delta_bounded {s : State} (he : Executing s) :
    ∃ t, exec .delta s = .next t ∧ (Executing t → t.result ≤ s.a) := by
  cases h : delta s.a s.c s.p s.r with
  | error e => exact ⟨_, exec_delta_error he h, fun ht => absurd ht (not_executing_faulted _ _ s)⟩
  | ok out => exact ⟨_, exec_delta_ok he h, fun _ => delta_res_le h⟩

theorem exec_delta_mono {s s' : State} (he : Executing s) (he' : Executing s') (hp : s.p ≠ 0#64) (ha' : s'.a = s.a)
    (hp' : s'.p = s.p) (hmax : s'.r ≤ Config.rateMax) (hc : s.c ≤ s'.c) (hr : s.r ≤ s'.r) :
    ∃ t t', exec .delta s = .next t ∧ exec .delta s' = .next t' ∧ Executing t ∧ Executing t' ∧
      t.result ≤ t'.result := by
  refine ⟨_, _, exec_delta_inDomain he (BitVec.le_trans hr hmax) hp, exec_delta_inDomain he' hmax (hp' ▸ hp),
    executing_writeDelta he _, executing_writeDelta he' _, ?_⟩
  rw [ha', hp']
  exact deltaValue_res_mono _ _ hc hr

/-- Equal operands give the unit's one answer, written to either state. -/
theorem exec_delta_determined {s s' : State} (he : Executing s) (he' : Executing s')
    (h' : delta s'.a s'.c s'.p s'.r = delta s.a s.c s.p s.r) :
    ∃ t t', exec .delta s = .next t ∧ exec .delta s' = .next t' ∧ t'.flag .fault = t.flag .fault ∧
      (Executing t → t'.result = t.result ∧ t'.flag .zsc = t.flag .zsc ∧ t'.flag .clamp = t.flag .clamp) ∧
      (¬ Executing t → t'.cause = t.cause ∧ t'.finfo = t.finfo) := by
  cases h : delta s.a s.c s.p s.r with
  | error e =>
    refine ⟨_, _, exec_delta_error he h, exec_delta_error he' (h'.trans h), ?_,
      fun ht => absurd ht (not_executing_faulted _ _ s), fun _ => ⟨rfl, rfl⟩⟩
    exact (flag_setFlag_same s' .fault true).trans (flag_setFlag_same s .fault true).symm
  | ok out =>
    have ht := executing_writeDelta he out
    refine ⟨_, _, exec_delta_ok he h, exec_delta_ok he' (h'.trans h), (executing_writeDelta he' out).trans ht.symm,
      fun _ => ⟨rfl, ?_, ?_⟩, fun hf => absurd ht hf⟩
    · rw [writeDelta_flag_zsc, writeDelta_flag_zsc]
    · rw [writeDelta_flag_clamp, writeDelta_flag_clamp]

/-- Settles O20: bounded by the minimum, monotone as the formula is, determined because the unit sees no other input. -/
theorem deltaBoundedMonotoneDetermined : Obligations.DeltaBoundedMonotoneDetermined :=
  ⟨fun _ he => exec_delta_bounded he,
    fun _ _ he he' hp ha' hp' hmax hc hr => exec_delta_mono he he' hp ha' hp' (BitVec.le_def.2 hmax) hc hr,
    fun _ _ he he' ha hc hp hr => exec_delta_determined he he' (by rw [ha, hc, hp, hr])⟩

end Sys2Proof.Machine
end

section
/-! The family 44_oracle_harness.md, its layer: what a harness command does at the gate (R147, 60_exceptions.md R178),
and how a property that every instruction keeps is kept by every step. -/

namespace Sys2Proof.Machine

open Sys2Proof.Safety

/-! ## The gate -/

/-- Fault entry with nothing recorded, named as the statements name it (60_exceptions.md R175). -/
theorem raiseFault_eq_faulted {s : State} (he : Executing s) (e : Cause) (info : Word) :
    raiseFault e info s = faulted e.code info s := raiseFault_fresh he e info

/-- A harness command under a recorded fault (60_exceptions.md R178). -/
theorem harnessCommand_refused (cw : Word) (effect : State → State) {s : State} (hfault : ¬ Executing s) :
    Host.Outcome.next (φ := Fault) (ρ := Refusal) (runCommand cw true effect s) = .next s :=
  congrArg _ (runCommand_refused (Bool.of_not_eq_false hfault) cw true effect)

/-- A harness command in an instance without the harness (30_encoding.md R76). -/
theorem harnessCommand_absent (cw : Word) (effect : State → State) {s : State} (he : Executing s)
    (hh : s.build.harness = false) :
    Host.Outcome.next (φ := Fault) (ρ := Refusal) (runCommand cw true effect s) = .next (faulted 3#64 cw s) :=
  congrArg _ ((runCommand_absent he hh cw effect).trans (raiseFault_illegalCmd he cw))

/-- A harness command past the gate. -/
theorem harnessCommand_executes (cw : Word) (effect : State → State) {s : State} (he : Executing s)
    (hh : s.build.harness = true) :
    Host.Outcome.next (φ := Fault) (ρ := Refusal) (runCommand cw true effect s) = .next (effect s) :=
  congrArg _ (runCommand_executes_harness he hh cw effect)

/-! ## Invariants -/

/-- What every well-formed instruction, reset, and every change of the host's queue and the reply keep, every step
keeps. -/
theorem step_keeps {P : State → Prop} (heffect : ∀ i s, i.wf = true → P s → P (effectOf i s))
    (hport : ∀ s l rp, P s → P { s with pending := l, reply := rp })
    (hreset : ∀ s l, P s → P (State.resetWith s.build s.drawn l)) {s t : State} (h : P s)
    (hstep : step s = .next t) : P t := by
  have hexec : ∀ tw rest u, exec (decode tw) { s with pending := rest, reply := .notDriven } = .next u → P u := by
    intro tw rest u hu
    rw [exec_eq_effectOf (decode_wf tw)] at hu
    cases hu
    exact heffect _ _ (decode_wf tw) (hport s rest .notDriven h)
  rcases step_cases hstep with ⟨_, rfl⟩ | ⟨tw, rest, _, hu⟩ | ⟨_, tw, rest, u, _, _, hu, rfl⟩ | ⟨_, rest, _, _, rfl⟩ |
    ⟨rest, _, rfl⟩
  · exact h
  · exact hexec tw rest t hu
  · exact hport u u.pending _ (hexec tw rest u hu)
  · exact hport s rest .busError h
  · exact hreset s rest h

end Sys2Proof.Machine
end

section
/-! The family 44_oracle_harness.md: no step of an instance built to the spec records or captures a mismatch (R154). -/

namespace Sys2Proof.Machine

open Sys2Proof.Safety

/-- Registers other than CAUSE and the captures may change at will. -/
theorem noMismatch_of_eq {s t : State} (h : NoMismatch s) (hcause : t.cause = s.cause := by rfl)
    (hvec : (t.ha, t.hc, t.hp, t.hr) = (s.ha, s.hc, s.hp, s.hr) := by rfl)
    (hresults : (t.hdut, t.href) = (s.hdut, s.href) := by rfl) : NoMismatch t := by
  simp only [Prod.mk.injEq] at hvec hresults
  obtain ⟨ha, hc, hp, hr⟩ := hvec
  obtain ⟨hdut, href⟩ := hresults
  rwa [NoMismatch, hcause, ha, hc, hp, hr, hdut, href]

/-- Only the cause MISMATCH records one (60_exceptions.md R182). -/
theorem noMismatch_raiseFault {s : State} (h : NoMismatch s) {e : Cause} (hne : e ≠ .mismatch) (info : Word) :
    NoMismatch (raiseFault e info s) := by
  rcases raiseFault_cases e info s with ⟨_, he⟩ | ⟨_, he⟩ <;> rw [he]
  · exact h
  · obtain ⟨_, hcaptures⟩ := h
    exact ⟨fun hcode => hne (code_inj hcode), hcaptures⟩

/-- CLRF clears CAUSE and keeps the captures (44_oracle_harness.md R146). -/
theorem noMismatch_clearFault {s : State} (h : NoMismatch s) : NoMismatch (clearFault s) := by
  obtain ⟨_, hcaptures⟩ := h
  exact ⟨(code_bounds .mismatch).1.symm, hcaptures⟩

theorem noMismatch_runCommand {s : State} (h : NoMismatch s) {cw : Word} {harnessOnly : Bool}
    {effect : State → State} (heffect : NoMismatch (effect s)) : NoMismatch (runCommand cw harnessOnly effect s) := by
  rcases runCommand_cases cw harnessOnly effect s with ⟨_, he⟩ | ⟨_, _, _, he⟩ | ⟨_, _, he⟩ <;> rw [he]
  · exact h
  · exact noMismatch_raiseFault h (by decide) _
  · exact heffect

theorem noMismatch_snumEffect {s : State} (h : NoMismatch s) : NoMismatch (snumEffect s) := by
  unfold snumEffect
  split
  · exact noMismatch_raiseFault h (by decide) _
  · exact noMismatch_of_eq h

theorem noMismatch_bdivEffect {s : State} (h : NoMismatch s) : NoMismatch (bdivEffect s) := by
  cases hd : bdiv s.t2 s.t1 s.t0 s.dh s.dl s.k with
  | error e =>
    rw [bdivEffect_error hd, bdiv_error hd]
    exact noMismatch_raiseFault h (by decide) _
  | ok out =>
    rw [bdivEffect_ok hd]
    exact noMismatch_of_eq h

theorem noMismatch_deltaEffect {s : State} (h : NoMismatch s) : NoMismatch (deltaEffect s) := by
  cases hd : delta s.a s.c s.p s.r with
  | error e =>
    have hne : e ≠ .mismatch := by rcases delta_error hd with rfl | rfl <;> decide
    rw [deltaEffect_error hd]
    exact noMismatch_raiseFault h hne _
  | ok out =>
    rw [deltaEffect_ok hd]
    exact noMismatch_of_eq h

theorem noMismatch_refEffect {s : State} (h : NoMismatch s) : NoMismatch (refEffect s) := by
  rcases domain_cases s with hr | ⟨hr, hp⟩ | ⟨hr, hp⟩
  · rw [refEffect_domain hr]
    exact noMismatch_raiseFault h (by decide) _
  · rw [refEffect_div0 hr hp]
    exact noMismatch_raiseFault h (by decide) _
  · rw [refEffect_value hr hp]
    exact noMismatch_of_eq h

/-- The check of one vector faults outside the compared domain and passes inside it (44_oracle_harness.md R145, R154).
-/
theorem noMismatch_hchkEffect {s : State} (h : NoMismatch s) : NoMismatch (hchkEffect s) := by
  rcases domain_cases s with hr | ⟨hr, hp⟩ | ⟨hr, hp⟩
  · rw [hchkEffect, hcheck_domain hr]
    exact noMismatch_raiseFault h (by decide) _
  · rw [hchkEffect, hcheck_div0 hr hp]
    exact noMismatch_raiseFault h (by decide) _
  · rw [hchkEffect, hcheck_passes hr hp]
    exact noMismatch_of_eq h

/-- HRUN over vectors of the compared domain (R147, R154). -/
theorem noMismatch_hrun (cw : Word) (draws : Nat) {vs : List Vec} (hvs : ∀ v ∈ vs, InDomain v) {s : State}
    (h : NoMismatch s) : NoMismatch (hrun cw draws vs s) := by
  rw [hrun_passes cw draws vs s hvs]
  clear hvs
  induction vs generalizing s with
  | nil => exact h
  | cons v vs ih => exact ih (noMismatch_of_eq h)

theorem noMismatch_hclrEffect {s : State} (h : NoMismatch s) : NoMismatch (hclrEffect s) := by
  obtain ⟨hcause, _⟩ := h
  exact ⟨hcause, rfl, rfl, rfl, rfl, rfl, rfl⟩

theorem noMismatch_readEffect {s : State} (h : NoMismatch s) (idx : Index) : NoMismatch (readEffect idx s) := by
  rcases readEffect_cases idx s with ⟨g, _, he⟩ | ⟨_, he⟩ <;> rw [he]
  · exact noMismatch_of_eq h
  · exact noMismatch_of_eq (noMismatch_raiseFault h (e := .access) (by decide) _)

/-- The host cannot write CAUSE or a capture (20_memory.md R59). -/
theorem noMismatch_writeEffect {s : State} (h : NoMismatch s) (idx : Index) (v : Word) :
    NoMismatch (writeEffect idx v s) := by
  rcases writeEffect_cases idx v s with ⟨_, he⟩ | ⟨g, _, _, he⟩ | ⟨_, _, he⟩ <;> rw [he]
  · exact noMismatch_runCommand h (noMismatch_raiseFault h (by decide) _)
  · exact noMismatch_of_eq h (by simp) (by simp) (by simp)
  · exact noMismatch_raiseFault h (by decide) _

/-- Every instruction of an instance with SMALL_N in range keeps the absence of a mismatch. -/
theorem noMismatch_effectOf (i : Instr) {s : State} (hb : s.build.wf) (h : NoMismatch s) :
    NoMismatch (effectOf i s) := by
  obtain ⟨_, hsmall⟩ := hb
  cases i with
  | nop => exact noMismatch_runCommand h h
  | wmul => exact noMismatch_runCommand h (noMismatch_of_eq h)
  | snum => exact noMismatch_runCommand h (noMismatch_snumEffect h)
  | bdiv => exact noMismatch_runCommand h (noMismatch_bdivEffect h)
  | delta => exact noMismatch_runCommand h (noMismatch_deltaEffect h)
  | clrf => exact noMismatch_clearFault h
  | ref => exact noMismatch_runCommand h (noMismatch_refEffect h)
  | hchk => exact noMismatch_runCommand h (noMismatch_hchkEffect h)
  | hrunSmall => exact noMismatch_runCommand h (noMismatch_hrun _ _ (smallVectors_inDomain hsmall) h)
  | hrunBoundary => exact noMismatch_runCommand h (noMismatch_hrun _ _ boundaryVectors_inDomain h)
  | hrunRandom n => exact noMismatch_runCommand h (noMismatch_hrun _ _ (randomVectors_inDomain _ _ _) h)
  | hrunSatedge => exact noMismatch_runCommand h (noMismatch_hrun _ _ satEdgeVectors_inDomain h)
  | hclr => exact noMismatch_runCommand h (noMismatch_hclrEffect h)
  | rd idx => exact noMismatch_readEffect h idx
  | wr idx v => exact noMismatch_writeEffect h idx v

/-- Settles O50: no instruction raises MISMATCH or writes a capture but HCLR, which clears them, and reset clears all.
-/
theorem stepNeverMismatches : Obligations.StepNeverMismatches := by
  intro s t hb hs hstep
  refine step_keeps (P := fun s => s.build.wf ∧ NoMismatch s) ?_ ?_ ?_ ⟨hb, hs⟩ hstep
  · intro i s _ ⟨hb, h⟩
    have hbuild : (effectOf i s).build = s.build := (effectOf_changesOnly i s).build
    exact ⟨hbuild ▸ hb, noMismatch_effectOf i hb h⟩
  · exact fun s l rp ⟨hb, h⟩ => ⟨hb, noMismatch_of_eq h⟩
  · exact fun s l ⟨hb, _⟩ => ⟨hb, (code_bounds .mismatch).1.symm, rfl, rfl, rfl, rfl, rfl, rfl⟩

end Sys2Proof.Machine
end

section
/-! The family 44_oracle_harness.md: the state a checked vector and a run of checked vectors leave (R145, R147), from
which the rules of HCHK and of the four HRUN commands follow. -/

namespace Sys2Proof.Machine

open Sys2Proof.Safety

/-! ## Writing the flags again -/

/-- A flag's mask has the flag's bit alone (10_state.md R26). -/
theorem mask_getLsbD_eq (f : Flag) {i : Nat} (hi : i < 64) : f.mask.getLsbD i = decide (i = f.bit) := by
  have hall : ∀ i < 64, f.mask.getLsbD i = decide (i = f.bit) := by cases f <;> decide
  exact hall i hi

/-- A write of a flag, bit by bit. -/
theorem setFlag_status_getLsbD (s : State) (f : Flag) (b : Bool) {i : Nat} (hi : i < 64) :
    (s.setFlag f b).status.getLsbD i = if i = f.bit then b else s.status.getLsbD i := by
  cases b <;>
    simp only [State.setFlag, if_true, if_false, Bool.false_eq_true, BitVec.getLsbD_or, BitVec.getLsbD_and,
      BitVec.getLsbD_not, mask_getLsbD_eq f hi, hi] <;>
    by_cases hbit : i = f.bit <;> simp [hbit]

/-- Two reports of ZSC and CLAMP leave the later one. -/
theorem status_reported_again (s : State) (z z' c c' : Bool) :
    ((((s.setFlag .zsc z).setFlag .clamp c).setFlag .zsc z').setFlag .clamp c').status =
      ((s.setFlag .zsc z').setFlag .clamp c').status := by
  refine BitVec.eq_of_getLsbD_eq fun i hi => ?_
  simp only [setFlag_status_getLsbD _ _ _ hi]
  split_ifs <;> rfl

/-! ## The count -/

theorem satAdd_toNat (n : Word) (m : Nat) : (satAdd n m).toNat = min (n.toNat + m) (2 ^ 64 - 1) := by
  rw [satAdd, BitVec.toNat_ofNat]
  omega

@[simp] theorem satAdd_zero (n : Word) : satAdd n 0 = n := by
  have hn := n.isLt
  apply BitVec.eq_of_toNat_eq
  rw [satAdd_toNat]
  omega

/-- A saturated count stays saturated. -/
theorem satAdd_satAdd (n : Word) (m k : Nat) : satAdd (satAdd n m) k = satAdd n (m + k) := by
  apply BitVec.eq_of_toNat_eq
  rw [satAdd_toNat, satAdd_toNat, satAdd_toNat]
  omega

/-- Line 8 of `hcheck` adds one (R145). -/
theorem countUp_eq_satAdd (n : Word) : countUp n = satAdd n 1 := by
  have hmax : M64.toNat = 2 ^ 64 - 1 := rfl
  have hn := n.isLt
  apply BitVec.eq_of_toNat_eq
  rw [satAdd_toNat, countUp]
  split
  · next hlt =>
    rw [BitVec.lt_def] at hlt
    rw [BitVec.toNat_add, BitVec.toNat_ofNat]
    omega
  · next hge =>
    rw [BitVec.lt_def] at hge
    omega

/-! ## One vector -/

/-- DELTA's answer on a vector of the compared domain is the formula's (43_delta.md R128, R131, R132). -/
theorem deltaValue_eq_vec {v : Vec} (hp : v.p ≠ 0#64) :
    deltaValue v.a v.c v.p v.r = { res := vecResult v, zsc := vecZsc v, clamp := vecClamp v } := by
  have hres := deltaValue_res v.a v.c v.p v.r
  by_cases hz : v.a = 0#64 ∨ v.c = 0#64 ∨ v.r = 0#64
  · rw [deltaValue, if_pos hz] at hres ⊢
    simp only [vecResult, ← hres, vecClamp, vecZsc, decide_eq_true hz, Bool.not_true, Bool.false_and]
  · rw [deltaValue, if_neg hz]
    simp only [vecResult, vecClamp, vecZsc, decide_eq_false hz, Bool.not_false, Bool.true_and,
      decide_eq_decide.2 (le_quotient_iff hp _ _)]

/-- `afterRun` with the status word written once. -/
theorem afterRun_eq (v : Vec) (count draws : Nat) (s : State) : afterRun v count draws s =
    { s with a := v.a, c := v.c, p := v.p, r := v.r, result := vecResult v, refres := vecResult v,
             hcnt := satAdd s.hcnt count, drawn := s.drawn + draws,
             status := ((s.setFlag .zsc (vecZsc v)).setFlag .clamp (vecClamp v)).status } := rfl

/-- Of two runs one after the other the later one's last vector shows, and the counts add up (R152). -/
theorem afterRun_afterRun (u v : Vec) (m n d e : Nat) (s : State) :
    afterRun v n e (afterRun u m d s) = afterRun v (m + n) (d + e) s := by
  have hstatus : (((afterRun u m d s).setFlag .zsc (vecZsc v)).setFlag .clamp (vecClamp v)).status =
      ((s.setFlag .zsc (vecZsc v)).setFlag .clamp (vecClamp v)).status :=
    status_reported_again s (vecZsc u) (vecZsc v) (vecClamp u) (vecClamp v)
  rw [afterRun_eq v n, hstatus, afterRun_eq u m, afterRun_eq v (m + n)]
  simp only [satAdd_satAdd, Nat.add_assoc]

/-- A run neither raises nor clears a fault. -/
theorem executing_afterRun {s : State} (he : Executing s) (v : Vec) (count draws : Nat) :
    Executing (afterRun v count draws s) := by
  rw [Executing, afterRun, flag_setFlag_ne _ _ (by decide), flag_setFlag_ne _ _ (by decide)]
  exact he

/-- What the check of a vector of the compared domain leaves, its operands being the block's (R145). -/
theorem checkedState_applyVec {v : Vec} (hv : InDomain v) (draws : Nat) (s : State) :
    checkedState (applyVec draws v s) = afterRun v 1 draws s := by
  obtain ⟨_, hp⟩ := hv
  have hdelta := deltaValue_eq_vec hp
  unfold checkedState
  simp only [applyVec_a, applyVec_c, applyVec_p, applyVec_r, hdelta, countUp_eq_satAdd]
  rfl

/-- HCHK checks the vector that stands in the operands. -/
theorem checkedState_eq_afterRun {s : State} (hr : s.r ≤ Config.rateMax) (hp : s.p ≠ 0#64) :
    checkedState s = afterRun { a := s.a, c := s.c, p := s.p, r := s.r } 1 0 s :=
  checkedState_applyVec (v := { a := s.a, c := s.c, p := s.p, r := s.r }) ⟨hr, hp⟩ 0 s

/-! ## A list of vectors -/

/-- HRUN's loop over a list of the compared domain: every vector passes, and the last one shows (R147, R154). -/
theorem hrun_eq_afterRun (cw : Word) (draws : Nat) {vs : List Vec} (hvs : ∀ v ∈ vs, InDomain v) {last : Vec}
    (hlast : vs.getLast? = some last) (s : State) :
    hrun cw draws vs s = afterRun last vs.length (draws * vs.length) s := by
  rw [hrun_passes cw draws vs s hvs]
  induction vs generalizing s with
  | nil => cases hlast
  | cons v vs ih =>
    rw [checkedRun, checkedState_applyVec (hvs v List.mem_cons_self)]
    cases vs with
    | nil =>
      cases hlast
      simp [checkedRun]
    | cons w ws =>
      rw [List.getLast?_cons_cons] at hlast
      rw [ih (fun x hx => hvs x (List.mem_cons_of_mem v hx)) hlast, afterRun_afterRun, List.length_cons (a := v),
        Nat.mul_succ draws, Nat.add_comm, Nat.add_comm draws]

end Sys2Proof.Machine
end

section
/-! The family 44_oracle_harness.md: the oracle and its agreement with DELTA (R142, R143), the comparison and its
captures (R145, R146), HCHK (R145, R154) and HCLR (R153). -/

namespace Sys2Proof.Machine

open Sys2Proof.Safety

/-! ## The oracle (R142, R143) -/

theorem exec_ref_domain {s : State} (he : Executing s) (hh : s.build.harness = true) (hr : 10000 < s.r.toNat) :
    exec .ref s = .next (faulted 2#64 cwRef s) :=
  (harnessCommand_executes cwRef refEffect he hh).trans <| congrArg _ <|
    (refEffect_domain (BitVec.lt_def.2 hr)).trans (raiseFault_eq_faulted he .domain cwRef)

theorem exec_ref_div0 {s : State} (he : Executing s) (hh : s.build.harness = true) (hr : s.r.toNat ≤ 10000)
    (hp : s.p = 0#64) : exec .ref s = .next (faulted 1#64 cwRef s) :=
  (harnessCommand_executes cwRef refEffect he hh).trans <| congrArg _ <|
    (refEffect_div0 (BitVec.le_def.2 hr) hp).trans (raiseFault_eq_faulted he .div0 cwRef)

theorem exec_ref_value {s : State} (he : Executing s) (hh : s.build.harness = true) (hr : s.r.toNat ≤ 10000)
    (hp : s.p ≠ 0#64) : exec .ref s = .next
      { s with refres := BitVec.ofNat 64 (exactStake s.a.toNat s.c.toNat s.p.toNat s.r.toNat) } :=
  (harnessCommand_executes cwRef refEffect he hh).trans (congrArg _ (refEffect_value (BitVec.le_def.2 hr) hp))

/-- Settles O22: path by path in the order of REF's tests. -/
theorem refRule : Obligations.RefRule :=
  ⟨Laws.RoundTrip.ref rfl, fun _ => ⟨harnessCommand_refused cwRef refEffect, harnessCommand_absent cwRef refEffect,
    exec_ref_domain, exec_ref_div0, exec_ref_value⟩⟩

theorem exec_hchk_domain {s : State} (he : Executing s) (hh : s.build.harness = true) (hr : 10000 < s.r.toNat) :
    exec .hchk s = .next (faulted 2#64 cwHchk s) := by
  refine (harnessCommand_executes cwHchk hchkEffect he hh).trans (congrArg _ ?_)
  rw [hchkEffect, hcheck_domain (BitVec.lt_def.2 hr)]
  exact raiseFault_eq_faulted he .domain cwHchk

theorem exec_hchk_div0 {s : State} (he : Executing s) (hh : s.build.harness = true) (hr : s.r.toNat ≤ 10000)
    (hp : s.p = 0#64) : exec .hchk s = .next (faulted 1#64 cwHchk s) := by
  refine (harnessCommand_executes cwHchk hchkEffect he hh).trans (congrArg _ ?_)
  rw [hchkEffect, hcheck_div0 (BitVec.le_def.2 hr) hp]
  exact raiseFault_eq_faulted he .div0 cwHchk

/-- On a vector HCHK compares the assertion passes (R154). -/
theorem exec_hchk_passes {s : State} (he : Executing s) (hh : s.build.harness = true) (hr : s.r.toNat ≤ 10000)
    (hp : s.p ≠ 0#64) :
    exec .hchk s = .next (afterRun { a := s.a, c := s.c, p := s.p, r := s.r } 1 0 s) := by
  have hle : s.r ≤ Config.rateMax := BitVec.le_def.2 hr
  refine (harnessCommand_executes cwHchk hchkEffect he hh).trans (congrArg _ ?_)
  rw [hchkEffect, hcheck_passes hle hp]
  exact checkedState_eq_afterRun hle hp

/-- Settles O24: path by path in the order of the tests of `hcheck`. -/
theorem hchkRule : Obligations.HchkRule :=
  ⟨Laws.RoundTrip.hchk rfl, fun _ => ⟨harnessCommand_refused cwHchk hchkEffect,
    harnessCommand_absent cwHchk hchkEffect, exec_hchk_domain, exec_hchk_div0, exec_hchk_passes⟩⟩

/-- DELTA on a zero divisor completes, with result 0, exactly through the zero short-circuit (43_delta.md R132, R133).
-/
theorem exec_delta_zeroDivisor {s : State} (he : Executing s) (hr : s.r ≤ Config.rateMax) (hp : s.p = 0#64) :
    ∃ t, exec .delta s = .next t ∧ (Executing t ↔ (s.a = 0#64 ∨ s.c = 0#64 ∨ s.r = 0#64)) ∧
      (Executing t → t.result = 0#64) := by
  by_cases hz : s.a = 0#64 ∨ s.c = 0#64 ∨ s.r = 0#64
  · exact ⟨_, exec_delta_ok he (delta_zero hr hz), iff_of_true (executing_writeDelta he _) hz, fun _ => rfl⟩
  · obtain ⟨ha, hc, hr0⟩ : s.a ≠ 0#64 ∧ s.c ≠ 0#64 ∧ s.r ≠ 0#64 := by simpa only [not_or] using hz
    have hdefect : delta s.a s.c s.p s.r = .error .div0 := hp ▸ delta_div0 hr ha hc hr0
    have hstop := not_executing_faulted Cause.div0.code cwDelta s
    exact ⟨_, exec_delta_error he hdefect, iff_of_false hstop hz, fun ht => absurd ht hstop⟩

/-- Settles O23: for `p > 0` both results are the formula's value; for `p = 0` the oracle faults whatever the rest is.
-/
theorem oracleAgreesOffZeroDivisor : Obligations.OracleAgreesOffZeroDivisor := by
  intro s he hh hr
  have hle : s.r ≤ Config.rateMax := BitVec.le_def.2 hr
  by_cases hp : s.p = 0#64
  · obtain ⟨t, ht, hcompletes, hresult⟩ := exec_delta_zeroDivisor he hle hp
    exact ⟨t, _, ht, exec_ref_div0 he hh hr hp, fun hne => absurd hp hne, fun _ =>
      ⟨not_executing_faulted _ _ s, rfl, hcompletes, hresult, exec_hchk_div0 he hh hr hp⟩⟩
  · exact ⟨_, _, exec_delta_inDomain he hle hp, exec_ref_value he hh hr hp, fun _ =>
      ⟨executing_writeDelta he _, he, deltaValue_res s.a s.c s.p s.r⟩, fun h => absurd h hp⟩

/-! ## The comparison (R145 lines 5 to 11, R146) -/

/-- The state in which an unequal comparison raises MISMATCH: both results written, the vector and both results
captured. -/
def capturedState (out : DeltaOut) (v : Word) (s : State) : State :=
  { writeDelta out s with
    refres := v, ha := s.a, hc := s.c, hp := s.p, hr := s.r, hdut := out.res, href := v }

theorem hcompare_unequal {s : State} (he : Executing s) {out : DeltaOut} {v : Word} (hne : out.res ≠ v) (cw : Word) :
    hcompare cw out v s = .error (faulted 5#64 cw (capturedState out v s)) := by
  have hclear : Executing (capturedState out v s) := executing_writeDelta he out
  calc hcompare cw out v s
    _ = .error (raiseFault .mismatch cw (capturedState out v s)) := by rw [hcompare, if_neg hne]; rfl
    _ = .error (faulted 5#64 cw (capturedState out v s)) := by rw [raiseFault_eq_faulted hclear]; rfl

/-- Equal results: both are written and the vector is counted. -/
theorem hcompare_equal {out : DeltaOut} {v : Word} (heq : out.res = v) (cw : Word) (s : State) :
    hcompare cw out v s = .ok { writeDelta out s with refres := v, hcnt := satAdd s.hcnt 1 } := by
  rw [hcompare, if_pos heq, countUp_eq_satAdd]
  rfl

/-- Settles O25: the two outcomes of the comparison, for any two results. -/
theorem mismatchIsCaptured : Obligations.MismatchIsCaptured := fun s cw _ _ he =>
  ⟨fun hne => hcompare_unequal he hne cw, fun heq => hcompare_equal heq cw s⟩

/-- HCHK and every HRUN are refused while a fault is recorded (60_exceptions.md R178). -/
theorem exec_hchk_hrun_refused {s : State} (hfault : ¬ Executing s) {i : Instr} {n : BitVec 32}
    (hi : i ∈ [.hchk, .hrunSmall, .hrunBoundary, .hrunRandom n, .hrunSatedge]) : exec i s = .next s := by
  simp only [List.mem_cons, List.not_mem_nil, or_false] at hi
  rcases hi with rfl | rfl | rfl | rfl | rfl
  · exact harnessCommand_refused _ hchkEffect hfault
  · exact harnessCommand_refused _ hrunSmallEffect hfault
  · exact harnessCommand_refused _ hrunBoundaryEffect hfault
  · exact harnessCommand_refused _ (hrunRandomEffect n) hfault
  · exact harnessCommand_refused _ hrunSatedgeEffect hfault

/-- Settles O26: the record gates the commands that capture, and CLRF opens the gate without touching the captures. -/
theorem firstMismatchIsKept : Obligations.FirstMismatchIsKept := by
  intro s cw v out he hne
  refine ⟨_, hcompare_unequal he hne cw, ⟨rfl, rfl, rfl, rfl, rfl, rfl⟩,
    fun i n hi => exec_hchk_hrun_refused (not_executing_faulted _ _ _) hi,
    _, rfl, clearFault_flag_fault _, fun g hg => ?_, fun cw' v' out' hne' =>
      ⟨_, hcompare_unequal (clearFault_flag_fault _) hne' cw', rfl, rfl, rfl, rfl, rfl, rfl⟩⟩
  simp only [List.mem_cons, List.not_mem_nil, or_false] at hg
  rcases hg with rfl | rfl | rfl | rfl | rfl | rfl <;> rfl

/-! ## HCLR (R153) -/

/-- Settles O36: the gate, and past it the count and the captures alone. -/
theorem hclrRule : Obligations.HclrRule :=
  ⟨Laws.RoundTrip.hclr rfl, fun _ => ⟨harnessCommand_refused cwHclr hclrEffect,
    harnessCommand_absent cwHclr hclrEffect, harnessCommand_executes cwHclr hclrEffect⟩⟩

end Sys2Proof.Machine
end

section
/-! The family 44_oracle_harness.md: the classes SMALL and BOUNDARY (R148, R149), their members, their order, their
length and their last vector. -/

namespace Sys2Proof.Machine

open Sys2Proof.Safety

/-! ## Words as numbers -/

theorem eq_ofNat_iff {w : Word} {n : Nat} (hn : n < 2 ^ 64) : w = BitVec.ofNat 64 n ↔ w.toNat = n := by
  rw [← BitVec.toNat_inj, BitVec.toNat_ofNat, Nat.mod_eq_of_lt hn]

theorem mem_iff_toNat_mem (w : Word) (ws : List Word) : w ∈ ws ↔ w.toNat ∈ ws.map BitVec.toNat :=
  (List.mem_map_of_injective BitVec.toNat_injective).symm

/-! ## Strict lexicographic order (R148) -/

theorem acprLt_iff (u v : Vec) : acprLt u v ↔
    u.a < v.a ∨ (u.a = v.a ∧ (u.c < v.c ∨ (u.c = v.c ∧ (u.p < v.p ∨ (u.p = v.p ∧ u.r < v.r))))) := by
  simp [acprLt, lexLt, BitVec.lt_def, BitVec.toNat_inj]

/-- A grid of ascending lists is in strict lexicographic order: one list after the other, the outermost first. -/
theorem vecGrid_pairwise {as cs ps rs : List Word} (has : as.Pairwise (· < ·)) (hcs : cs.Pairwise (· < ·))
    (hps : ps.Pairwise (· < ·)) (hrs : rs.Pairwise (· < ·)) : (vecGrid as cs ps rs).Pairwise acprLt := by
  refine List.pairwise_flatMap.2 ⟨fun a _ => List.pairwise_flatMap.2 ⟨fun c _ => List.pairwise_flatMap.2 ⟨fun p _ =>
    List.pairwise_map.2 (hrs.imp fun hr => ?_), hps.imp fun hp => ?_⟩, hcs.imp fun hc => ?_⟩, has.imp fun ha => ?_⟩
  · simp [acprLt_iff, hr]
  · simp [acprLt_iff, hp]
  · simp only [List.mem_flatMap, List.mem_map]
    rintro _ ⟨_, _, _, _, rfl⟩ _ ⟨_, _, _, _, rfl⟩
    simp [acprLt_iff, hc]
  · simp only [List.mem_flatMap, List.mem_map]
    rintro _ ⟨_, _, _, _, _, _, rfl⟩ _ ⟨_, _, _, _, _, _, rfl⟩
    simp [acprLt_iff, ha]

/-- Consecutive words ascend as long as none wraps. -/
theorem wordsFrom_pairwise {lo n : Nat} (h : lo + n ≤ 2 ^ 64) : (wordsFrom lo n).Pairwise (· < ·) := by
  rw [wordsFrom, List.pairwise_map]
  refine List.pairwise_lt_range.imp_of_mem fun {i j} _ hj hlt => ?_
  have hjn : j < n := List.mem_range.1 hj
  rw [BitVec.lt_def, BitVec.toNat_ofNat, BitVec.toNat_ofNat, Nat.mod_eq_of_lt (by omega), Nat.mod_eq_of_lt (by omega)]
  omega

/-! ## The last vector -/

/-- The last element of the last part is the last of all. -/
theorem getLast?_flatMap_of_last {α β : Type} {l : List α} {f : α → List β} {x : α} {y : β}
    (hx : l.getLast? = some x) (hy : (f x).getLast? = some y) : (l.flatMap f).getLast? = some y := by
  obtain ⟨init, rfl⟩ := List.getLast?_eq_some_iff.1 hx
  simp [hy]

theorem vecGrid_getLast? {as cs ps rs : List Word} {v : Vec} (ha : as.getLast? = some v.a)
    (hc : cs.getLast? = some v.c) (hp : ps.getLast? = some v.p) (hr : rs.getLast? = some v.r) :
    (vecGrid as cs ps rs).getLast? = some v := by
  refine getLast?_flatMap_of_last ha (getLast?_flatMap_of_last hc (getLast?_flatMap_of_last hp ?_))
  rw [List.getLast?_map, hr]
  rfl

theorem wordsFrom_getLast? (lo n : Nat) : (wordsFrom lo (n + 1)).getLast? = some (BitVec.ofNat 64 (lo + n)) := by
  simp [wordsFrom, List.getLast?_range]

/-! ## SMALL (R148) -/

theorem mem_smallVectors {n : Nat} (h : n ≤ 4999) (v : Vec) : v ∈ smallVectors n ↔
    v.a.toNat ≤ n ∧ v.c.toNat ≤ n ∧ 1 ≤ v.p.toNat ∧ v.p.toNat ≤ n ∧
      (v.r.toNat ≤ n ∨ (10000 - n ≤ v.r.toNat ∧ v.r.toNat ≤ 10000)) := by
  rw [smallVectors, mem_vecGrid, mem_wordsFrom (by omega), mem_wordsFrom (by omega), mem_wordsFrom (by omega),
    List.mem_append, mem_wordsFrom (by omega), mem_wordsFrom (by omega)]
  omega

/-- The two ranges of `r` do not meet while SMALL_N is below 5000 (00_scope.md R8). -/
theorem smallRates_pairwise {n : Nat} (h : n ≤ 4999) :
    (wordsFrom 0 (n + 1) ++ wordsFrom (10000 - n) (n + 1)).Pairwise (· < ·) := by
  refine List.pairwise_append.2 ⟨wordsFrom_pairwise (by omega), wordsFrom_pairwise (by omega), fun x hx y hy => ?_⟩
  rw [mem_wordsFrom (by omega)] at hx hy
  rw [BitVec.lt_def]
  omega

theorem smallVectors_length (n : Nat) : (smallVectors n).length = (n + 1) ^ 2 * n * (2 * (n + 1)) := by
  simp only [smallVectors, vecGrid_length, wordsFrom_length, List.length_append]
  ring

theorem smallVectors_getLast? {n : Nat} (h1 : 1 ≤ n) (h : n ≤ 4999) : (smallVectors n).getLast? = some
    { a := BitVec.ofNat 64 n, c := BitVec.ofNat 64 n, p := BitVec.ofNat 64 n, r := 10000#64 } := by
  have hoperand : (wordsFrom 0 (n + 1)).getLast? = some (BitVec.ofNat 64 n) := by rw [wordsFrom_getLast?, Nat.zero_add]
  have hdivisor : (wordsFrom 1 n).getLast? = some (BitVec.ofNat 64 n) := by
    obtain ⟨m, rfl⟩ := Nat.exists_eq_add_of_le h1
    rw [Nat.add_comm, wordsFrom_getLast?, Nat.add_comm]
  have hrate : (wordsFrom 0 (n + 1) ++ wordsFrom (10000 - n) (n + 1)).getLast? = some 10000#64 := by
    rw [List.getLast?_append, wordsFrom_getLast?, Nat.sub_add_cancel (by omega)]
    rfl
  exact vecGrid_getLast? hoperand hoperand hdivisor hrate

/-- Settles O33: members by the ranges, order because each range ascends, length as the product of the four lengths. -/
theorem smallClassIsExhaustive : Obligations.SmallClassIsExhaustive := fun n _ h =>
  ⟨mem_smallVectors h, vecGrid_pairwise (wordsFrom_pairwise (by omega)) (wordsFrom_pairwise (by omega))
    (wordsFrom_pairwise (by omega)) (smallRates_pairwise h), smallVectors_length n⟩

/-! ## BOUNDARY (R149) -/

theorem boundaryVectors_length : boundaryVectors.length = 6050 := vecGrid_length _ _ _ _

theorem boundaryVectors_getLast? :
    boundaryVectors.getLast? = some { a := M64, c := M64, p := M64, r := 10000#64 } :=
  vecGrid_getLast? rfl rfl rfl rfl

/-- Settles O34: members list by list as numbers, order because each list of words ascends. -/
theorem boundaryClassIsExhaustive : Obligations.BoundaryClassIsExhaustive := by
  have hpairwise : (0#64 :: boundaryWords).Pairwise (· < ·) := by decide
  refine ⟨fun v => ?_, vecGrid_pairwise hpairwise hpairwise hpairwise.of_cons (by decide), boundaryVectors_length⟩
  rw [boundaryVectors, mem_vecGrid, mem_iff_toNat_mem v.a, mem_iff_toNat_mem v.c, mem_iff_toNat_mem v.p,
    mem_iff_toNat_mem v.r]
  rfl

end Sys2Proof.Machine
end

section
/-! The family 44_oracle_harness.md: the class SATEDGE on the exact saturation boundary (R150). -/

namespace Sys2Proof.Machine

open Sys2Proof.Safety

/-! ## The boundary `c*` -/

/-- `c*` is the ceiling of `p·10000 / r`: the values of `c` that saturate are those from `c*` on. -/
theorem satEdgeC_le_iff {r : Nat} (hr : 0 < r) (p c : Nat) : satEdgeC p r ≤ c ↔ p * 10000 ≤ c * r := by
  have hceil : satEdgeC p r = p * 10000 ⌈/⌉ r := by
    rw [satEdgeC, Nat.ceilDiv_eq_add_pred_div, Nat.add_sub_assoc hr]
  rw [hceil, ceilDiv_le_iff_le_mul hr, Nat.mul_comm r]

theorem satEdgeC_isLeast {r : Nat} (hr : 0 < r) (p : Nat) : IsLeast (fun c => p * 10000 ≤ c * r) (satEdgeC p r) :=
  ⟨(satEdgeC_le_iff hr p _).1 le_rfl, fun c hc => (satEdgeC_le_iff hr p c).2 hc⟩

theorem satEdgeC_pos {p r : Nat} (hp : 0 < p) (hr : 0 < r) : 0 < satEdgeC p r := by
  refine Nat.pos_of_ne_zero fun h => ?_
  have hle := (satEdgeC_le_iff hr p 0).1 h.le
  omega

/-- For a `p` of the class `c* + 1` is a word. -/
theorem satEdgeC_lt {p r : Nat} (hp : p ≤ 2 ^ 50) (hr : 0 < r) : satEdgeC p r + 1 < 2 ^ 64 := by
  have hle : satEdgeC p r ≤ p * 10000 := (satEdgeC_le_iff hr p _).2 (Nat.le_mul_of_pos_right _ hr)
  omega

/-- At `c*` the tie is exactly where the division has no rest. -/
theorem satEdgeC_mul_eq_iff {r : Nat} (hr : 0 < r) (p : Nat) : satEdgeC p r * r = p * 10000 ↔ r ∣ p * 10000 := by
  refine ⟨fun h => ⟨satEdgeC p r, by rw [← h, Nat.mul_comm]⟩, ?_⟩
  rintro ⟨q, hq⟩
  have hle : satEdgeC p r ≤ q := (satEdgeC_le_iff hr p q).2 (by rw [hq, Nat.mul_comm])
  have hge : p * 10000 ≤ satEdgeC p r * r := (satEdgeC_le_iff hr p _).1 le_rfl
  have hmul : satEdgeC p r * r ≤ q * r := Nat.mul_le_mul_right r hle
  rw [hq, Nat.mul_comm r q] at hge ⊢
  exact Nat.le_antisymm hmul hge

/-! ## The lists -/

/-- The values of `a`, of `p` and of `r` that the class runs over (R150). -/
def satEdgeAs : List Nat := [1, 2, 7, 10 ^ 6, 2 ^ 32, 2 ^ 63, 2 ^ 64 - 1]
def satEdgePs : List Nat := [1, 2, 5, 2 * 10 ^ 6, 2 ^ 32, 2 ^ 50]
def satEdgeRs : List Nat := [1, 3, 500, 9999, 10000]

theorem satEdgeVectors_eq : satEdgeVectors =
    satEdgeAs.flatMap fun a => satEdgePs.flatMap fun p => satEdgeRs.flatMap fun r => satEdgeTriple a p r := rfl

theorem satEdgeAs_bounds : ∀ a ∈ satEdgeAs, 0 < a ∧ a < 2 ^ 64 := by decide
theorem satEdgePs_bounds : ∀ p ∈ satEdgePs, 0 < p ∧ p ≤ 2 ^ 50 := by decide
theorem satEdgeRs_bounds : ∀ r ∈ satEdgeRs, 0 < r ∧ r ≤ 10000 := by decide

theorem vec_eq_ofNat_iff {a c p r : Nat} (ha : a < 2 ^ 64) (hc : c < 2 ^ 64) (hp : p < 2 ^ 64) (hr : r < 2 ^ 64)
    (v : Vec) : v = ⟨BitVec.ofNat 64 a, BitVec.ofNat 64 c, BitVec.ofNat 64 p, BitVec.ofNat 64 r⟩ ↔
      v.a.toNat = a ∧ v.c.toNat = c ∧ v.p.toNat = p ∧ v.r.toNat = r := by
  rw [Vec.mk.injEq, eq_ofNat_iff ha, eq_ofNat_iff hc, eq_ofNat_iff hp, eq_ofNat_iff hr]

/-- The three vectors of one `a`, `p`, `r`, as numbers: none wraps. -/
theorem mem_satEdgeTriple {a p r : Nat} (ha : a ∈ satEdgeAs) (hp : p ∈ satEdgePs) (hr : r ∈ satEdgeRs) (v : Vec) :
    v ∈ satEdgeTriple a p r ↔ v.a.toNat = a ∧ v.p.toNat = p ∧ v.r.toNat = r ∧
      (v.c.toNat + 1 = satEdgeC p r ∨ v.c.toNat = satEdgeC p r ∨ v.c.toNat = satEdgeC p r + 1) := by
  obtain ⟨_, ha64⟩ := satEdgeAs_bounds a ha
  obtain ⟨hp0, hp50⟩ := satEdgePs_bounds p hp
  obtain ⟨hr0, hrmax⟩ := satEdgeRs_bounds r hr
  have hpos := satEdgeC_pos hp0 hr0
  have hlt := satEdgeC_lt hp50 hr0
  simp only [satEdgeTriple, List.map_cons, List.map_nil, List.mem_cons, List.not_mem_nil, or_false]
  rw [vec_eq_ofNat_iff ha64 (by omega) (by omega) (by omega), vec_eq_ofNat_iff ha64 (by omega) (by omega) (by omega),
    vec_eq_ofNat_iff ha64 (by omega) (by omega) (by omega)]
  omega

theorem mem_satEdgeVectors (v : Vec) : v ∈ satEdgeVectors ↔
    ∃ a ∈ satEdgeAs, ∃ p ∈ satEdgePs, ∃ r ∈ satEdgeRs, v.a.toNat = a ∧ v.p.toNat = p ∧ v.r.toNat = r ∧
      (v.c.toNat + 1 = satEdgeC p r ∨ v.c.toNat = satEdgeC p r ∨ v.c.toNat = satEdgeC p r + 1) := by
  simp only [satEdgeVectors_eq, List.mem_flatMap]
  constructor
  · rintro ⟨a, ha, p, hp, r, hr, hv⟩
    exact ⟨a, ha, p, hp, r, hr, (mem_satEdgeTriple ha hp hr v).1 hv⟩
  · rintro ⟨a, ha, p, hp, r, hr, hv⟩
    exact ⟨a, ha, p, hp, r, hr, (mem_satEdgeTriple ha hp hr v).2 hv⟩

theorem aprcLt_iff (u v : Vec) : aprcLt u v ↔
    u.a.toNat < v.a.toNat ∨ (u.a.toNat = v.a.toNat ∧ (u.p.toNat < v.p.toNat ∨ (u.p.toNat = v.p.toNat ∧
      (u.r.toNat < v.r.toNat ∨ (u.r.toNat = v.r.toNat ∧ u.c.toNat < v.c.toNat))))) := by
  simp [aprcLt, lexLt]

theorem satEdgeTriple_pairwise {a p r : Nat} (hp : p ∈ satEdgePs) (hr : r ∈ satEdgeRs) :
    (satEdgeTriple a p r).Pairwise aprcLt := by
  obtain ⟨hp0, hp50⟩ := satEdgePs_bounds p hp
  obtain ⟨hr0, _⟩ := satEdgeRs_bounds r hr
  have hpos := satEdgeC_pos hp0 hr0
  have hlt := satEdgeC_lt hp50 hr0
  have hcs : [satEdgeC p r - 1, satEdgeC p r, satEdgeC p r + 1].Pairwise (fun c d => c < d ∧ d < 2 ^ 64) := by
    simp only [List.pairwise_cons, List.mem_cons, List.not_mem_nil, or_false, forall_eq_or_imp, forall_eq,
      List.Pairwise.nil, IsEmpty.forall_iff, implies_true, and_true]
    omega
  refine List.pairwise_map.2 (hcs.imp fun {c d} hcd => ?_)
  obtain ⟨hcd, hd⟩ := hcd
  have hc64 : (BitVec.ofNat 64 c).toNat = c := (eq_ofNat_iff (hcd.trans hd)).1 rfl
  have hd64 : (BitVec.ofNat 64 d).toNat = d := (eq_ofNat_iff hd).1 rfl
  rw [aprcLt_iff, hc64, hd64]
  exact .inr ⟨rfl, .inr ⟨rfl, .inr ⟨rfl, hcd⟩⟩⟩

/-- The class ascends: one list after the other, the outermost first. -/
theorem satEdgeVectors_pairwise : satEdgeVectors.Pairwise aprcLt := by
  have has : satEdgeAs.Pairwise (· < ·) := by decide
  have hps : satEdgePs.Pairwise (· < ·) := by decide
  have hrs : satEdgeRs.Pairwise (· < ·) := by decide
  rw [satEdgeVectors_eq]
  refine List.pairwise_flatMap.2 ⟨fun a ha => List.pairwise_flatMap.2 ⟨fun p hp => List.pairwise_flatMap.2
    ⟨fun r hr => satEdgeTriple_pairwise hp hr, hrs.imp_of_mem fun hr hr' hlt u hu v hv => ?_⟩,
    hps.imp_of_mem fun hp hp' hlt u hu v hv => ?_⟩, has.imp_of_mem fun ha ha' hlt u hu v hv => ?_⟩
  · obtain ⟨hua, hup, hur, _⟩ := (mem_satEdgeTriple ha hp hr u).1 hu
    obtain ⟨hva, hvp, hvr, _⟩ := (mem_satEdgeTriple ha hp hr' v).1 hv
    rw [aprcLt_iff]
    omega
  · simp only [List.mem_flatMap] at hu hv
    obtain ⟨r, hr, hu⟩ := hu
    obtain ⟨r', hr', hv⟩ := hv
    obtain ⟨hua, hup, _⟩ := (mem_satEdgeTriple ha hp hr u).1 hu
    obtain ⟨hva, hvp, _⟩ := (mem_satEdgeTriple ha hp' hr' v).1 hv
    rw [aprcLt_iff]
    omega
  · simp only [List.mem_flatMap] at hu hv
    obtain ⟨p, hp, r, hr, hu⟩ := hu
    obtain ⟨p', hp', r', hr', hv⟩ := hv
    obtain ⟨hua, _⟩ := (mem_satEdgeTriple ha hp hr u).1 hu
    obtain ⟨hva, _⟩ := (mem_satEdgeTriple ha' hp' hr' v).1 hv
    rw [aprcLt_iff]
    omega

/-- Seven values of `a`, six of `p`, five of `r` and three of `c`. -/
theorem satEdgeVectors_length : satEdgeVectors.length = 630 := by
  have htriple : ∀ a p r, (satEdgeTriple a p r).length = 3 := fun _ _ _ => rfl
  simp only [satEdgeVectors_eq, List.length_flatMap, htriple]
  rfl

theorem satEdgeVectors_getLast? : satEdgeVectors.getLast? = some
    { a := M64, c := BitVec.ofNat 64 (2 ^ 50 + 1), p := BitVec.ofNat 64 (2 ^ 50), r := 10000#64 } := by
  have htriple : (satEdgeTriple (2 ^ 64 - 1) (2 ^ 50) 10000).getLast? = some
      { a := M64, c := BitVec.ofNat 64 (2 ^ 50 + 1), p := BitVec.ofNat 64 (2 ^ 50), r := 10000#64 } := by decide
  rw [satEdgeVectors_eq]
  exact getLast?_flatMap_of_last (x := 2 ^ 64 - 1) rfl
    (getLast?_flatMap_of_last (x := 2 ^ 50) rfl (getLast?_flatMap_of_last (x := 10000) rfl htriple))

/-! ## Where the quotient stands against `a` -/

/-- A positive `a` cancels: the numerator reaches `a·p·10000` from `c*` on. -/
theorem saturates_iff_satEdgeC_le {a r : Nat} (ha : 0 < a) (hr : 0 < r) (c p : Nat) :
    a * (p * 10000) ≤ a * c * r ↔ satEdgeC p r ≤ c := by
  rw [Nat.mul_assoc a c r, Nat.mul_le_mul_left_iff ha, satEdgeC_le_iff hr]

theorem ties_iff {a : Nat} (ha : 0 < a) (c p r : Nat) : a * c * r = a * (p * 10000) ↔ c * r = p * 10000 := by
  rw [Nat.mul_assoc a c r, Nat.mul_right_inj ha.ne']

/-- CLAMP is set from `c*` on; below it a zero `c` is short-circuited (43_delta.md R131, R132). -/
theorem vecClamp_eq_satEdge {v : Vec} (ha : 0 < v.a.toNat) (hp : 0 < v.p.toNat) (hr : 0 < v.r.toNat) :
    vecClamp v = decide (satEdgeC v.p.toNat v.r.toNat ≤ v.c.toNat) := by
  have hpos := satEdgeC_pos hp hr
  have hzsc : vecZsc v = decide (v.c.toNat = 0) := by
    rw [vecZsc, decide_eq_decide, ← BitVec.toNat_inj, ← BitVec.toNat_inj, ← BitVec.toNat_inj, BitVec.toNat_zero]
    omega
  have hsat := saturates_iff_satEdgeC_le ha hr v.c.toNat v.p.toNat
  rw [← Nat.mul_assoc] at hsat
  rw [vecClamp, hzsc, decide_eq_decide.2 hsat, ← decide_not, ← Bool.decide_and, decide_eq_decide]
  omega

/-- Settles O35: `c*` is a ceiling, and the class's operands are positive, so that `a` cancels from the comparison. -/
theorem satedgeClassIsTheBoundary : Obligations.SatedgeClassIsTheBoundary := by
  refine ⟨fun p r hr => satEdgeC_isLeast hr p, mem_satEdgeVectors, satEdgeVectors_pairwise, satEdgeVectors_length,
    fun v hv => ?_⟩
  obtain ⟨a, ha, p, hp, r, hr, rfl, rfl, rfl, _⟩ := (mem_satEdgeVectors v).1 hv
  obtain ⟨ha0, _⟩ := satEdgeAs_bounds _ ha
  obtain ⟨hp0, _⟩ := satEdgePs_bounds _ hp
  obtain ⟨hr0, _⟩ := satEdgeRs_bounds _ hr
  have hsat := saturates_iff_satEdgeC_le ha0 hr0 v.c.toNat v.p.toNat
  intro edge num sat
  rw [vecClamp_eq_satEdge ha0 hp0 hr0, decide_eq_true_iff, decide_eq_false_iff_not]
  refine ⟨fun hbelow => ⟨?_, ?_, fun hc => ?_⟩, fun hat => ⟨hsat.2 hat.ge, hat.ge, ?_⟩, fun habove => ⟨?_, ?_⟩⟩
  · exact Nat.not_le.1 (mt hsat.1 (by omega))
  · omega
  · exact decide_eq_true (.inr (.inl hc))
  · calc num = sat
      _ ↔ v.c.toNat * v.r.toNat = v.p.toNat * 10000 := ties_iff ha0 _ _ _
      _ ↔ v.r.toNat ∣ v.p.toNat * 10000 := by rw [hat]; exact satEdgeC_mul_eq_iff hr0 _
  · calc sat
      _ ≤ v.a.toNat * edge * v.r.toNat := (saturates_iff_satEdgeC_le ha0 hr0 edge v.p.toNat).2 le_rfl
      _ < num := Nat.mul_lt_mul_of_pos_right (Nat.mul_lt_mul_of_pos_left (by omega) ha0) hr0
  · omega

end Sys2Proof.Machine
end

section
/-! The family 44_oracle_harness.md: the four HRUN commands (R147 to R152). -/

namespace Sys2Proof.Machine

open Sys2Proof.Safety

/-! ## RANDOM's list (R151) -/

/-- HRUN.RANDOM's word as a number (30_encoding.md R75). -/
theorem cwHrunRandom_eq_ofNat (n : BitVec 32) : cwHrunRandom n = BitVec.ofNat 64 (0x212 + n.toNat * 2 ^ 16) := by
  have hn := n.isLt
  rw [eq_ofNat_iff (by omega), cwHrunRandom_toNat]
  omega

/-- The last of `n + 1` vectors is made of the last four words taken. -/
theorem randomVectors_getLast? (stream : Nat → Word) (n : Nat) : ∀ start,
    (randomVectors stream start (n + 1)).getLast? = some (randomVec (stream (start + 4 * n))
      (stream (start + 4 * n + 1)) (stream (start + 4 * n + 2)) (stream (start + 4 * n + 3))) := by
  induction n with
  | zero => exact fun _ => rfl
  | succ n ih =>
    intro start
    have hnext : start + 4 + 4 * n = start + 4 * (n + 1) := by ring
    rw [randomVectors, randomVectors, List.getLast?_cons_cons, ← randomVectors, ih, hnext]

/-! ## The gate -/

/-- Settles O31: the four commands go through the one gate of the harness commands, each with its own word. -/
theorem hrunGate : Obligations.HrunGate := by
  intro s n i cw hi
  rw [← cwHrunRandom_eq_ofNat] at hi
  simp only [List.mem_cons, Prod.mk.injEq, List.not_mem_nil, or_false] at hi
  rcases hi with ⟨rfl, rfl⟩ | ⟨rfl, rfl⟩ | ⟨rfl, rfl⟩ | ⟨rfl, rfl⟩
  · exact ⟨harnessCommand_refused _ hrunSmallEffect, harnessCommand_absent cwHrunSmall hrunSmallEffect⟩
  · exact ⟨harnessCommand_refused _ hrunBoundaryEffect, harnessCommand_absent cwHrunBoundary hrunBoundaryEffect⟩
  · exact ⟨harnessCommand_refused _ hrunSatedgeEffect, harnessCommand_absent cwHrunSatedge hrunSatedgeEffect⟩
  · exact ⟨harnessCommand_refused _ (hrunRandomEffect n), harnessCommand_absent _ (hrunRandomEffect n)⟩

/-! ## The commands -/

/-- A class that draws no word runs to its last vector and counts its length (R147, R154). -/
theorem hrunClass_executes {cw : Word} {effect : State → State} {s : State} {vs : List Vec} {last : Vec}
    (heffect : effect s = hrun cw 0 vs s) (hvs : ∀ v ∈ vs, InDomain v) (hlast : vs.getLast? = some last)
    (he : Executing s) (hh : s.build.harness = true) :
    Host.Outcome.next (φ := Fault) (ρ := Refusal) (runCommand cw true effect s) =
      .next (afterRun last vs.length 0 s) := by
  rw [harnessCommand_executes cw effect he hh, heffect, hrun_eq_afterRun cw 0 hvs hlast, Nat.zero_mul]

/-- Settles O27, by the members, the last vector and the length of SMALL. -/
theorem hrunSmallRule : Obligations.HrunSmallRule := by
  refine ⟨Laws.RoundTrip.hrunSmall rfl, fun s he hh ⟨hmin, hmax⟩ => ?_⟩
  rw [← smallVectors_length]
  exact hrunClass_executes (effect := hrunSmallEffect) rfl (smallVectors_inDomain hmax)
    (smallVectors_getLast? hmin hmax) he hh

/-- Settles O28, by the members, the last vector and the length of BOUNDARY. -/
theorem hrunBoundaryRule : Obligations.HrunBoundaryRule := by
  refine ⟨Laws.RoundTrip.hrunBoundary rfl, fun s he hh => ?_⟩
  rw [← boundaryVectors_length]
  exact hrunClass_executes (effect := hrunBoundaryEffect) rfl boundaryVectors_inDomain boundaryVectors_getLast? he hh

/-- Settles O29, by the members, the last vector and the length of SATEDGE. -/
theorem hrunSatedgeRule : Obligations.HrunSatedgeRule := by
  refine ⟨Laws.RoundTrip.hrunSatedge rfl, fun s he hh => ?_⟩
  rw [← satEdgeVectors_length]
  exact hrunClass_executes (effect := hrunSatedgeEffect) rfl satEdgeVectors_inDomain satEdgeVectors_getLast? he hh

/-- R151's remainder, as a number. -/
theorem randomRate_eq (d : Word) : BitVec.umod d 10001#64 = BitVec.ofNat 64 (d.toNat % 10001) := by
  rw [eq_ofNat_iff (by omega)]
  exact BitVec.toNat_umod

/-- A run of at least one random vector (R151). -/
theorem hrunRandomEffect_succ {n : BitVec 32} {m : Nat} (hm : n.toNat = m + 1) (s : State) :
    hrunRandomEffect n s = afterRun
      (randomVec (Config.rnd (s.drawn + 4 * m)) (Config.rnd (s.drawn + 4 * m + 1)) (Config.rnd (s.drawn + 4 * m + 2))
        (Config.rnd (s.drawn + 4 * m + 3))) (m + 1) (4 * (m + 1)) s := by
  rw [hrunRandomEffect, hm, hrun_eq_afterRun _ 4 (randomVectors_inDomain _ _ _) (randomVectors_getLast? _ m s.drawn),
    randomVectors_length]

/-- Settles O30: without a vector nothing happens; otherwise the last vector is that of the last four draws. -/
theorem hrunRandomRule : Obligations.HrunRandomRule := by
  intro n s
  rw [← cwHrunRandom_eq_ofNat]
  refine ⟨Laws.RoundTrip.hrunRandom n rfl, fun he hh => ?_⟩
  have hexec : exec (.hrunRandom n) s = .next (hrunRandomEffect n s) :=
    harnessCommand_executes (cwHrunRandom n) (hrunRandomEffect n) he hh
  refine ⟨?_, fun hn => ?_⟩
  · rintro rfl
    exact hexec
  · obtain ⟨m, hm⟩ := Nat.exists_eq_succ_of_ne_zero fun h0 => hn (BitVec.eq_of_toNat_eq h0)
    rw [hexec, hrunRandomEffect_succ hm, hm, randomVec, randomRate_eq]
    rfl

/-! ## The harness (R152) -/

/-- How many vectors a command counts in an instance with SMALL_N = 8 (R148 to R151). -/
def vectorCount : Instr → Nat
  | .hrunSmall => 11664
  | .hrunBoundary => 6050
  | .hrunSatedge => 630
  | .hrunRandom n => n.toNat
  | _ => 0

/-- What successive runs need of each other: no fault, the same instance, and the count grown. -/
def Counted (count : Nat) (s t : State) : Prop :=
  Executing t ∧ t.build = s.build ∧ t.hcnt = satAdd s.hcnt count

theorem counted_afterRun {s : State} (he : Executing s) (v : Vec) (count draws : Nat) :
    Counted count s (afterRun v count draws s) := ⟨executing_afterRun he v count draws, rfl, rfl⟩

theorem counted_hrunRandomEffect {s : State} (he : Executing s) (n : BitVec 32) :
    Counted n.toNat s (hrunRandomEffect n s) := by
  cases hn : n.toNat with
  | zero =>
    rw [hrunRandomEffect, hn]
    exact ⟨he, rfl, (satAdd_zero s.hcnt).symm⟩
  | succ m =>
    rw [hrunRandomEffect_succ hn]
    exact counted_afterRun he _ _ _

/-- Each of the four commands counts its class. -/
theorem exec_hrun_counted {s : State} (he : Executing s) (hh : s.build.harness = true) (h8 : s.build.smallN = 8)
    {n : BitVec 32} {i : Instr} (hi : i ∈ [.hrunSmall, .hrunBoundary, .hrunRandom n, .hrunSatedge]) :
    ∃ t, exec i s = .next t ∧ Counted (vectorCount i) s t := by
  simp only [List.mem_cons, List.not_mem_nil, or_false] at hi
  rcases hi with rfl | rfl | rfl | rfl
  · obtain ⟨_, hrule⟩ := hrunSmallRule
    have hcount : (s.build.smallN + 1) ^ 2 * s.build.smallN * (2 * (s.build.smallN + 1)) = 11664 := by rw [h8]; norm_num
    have hexec := hrule s he hh (by rw [Config.Build.wf, h8]; decide)
    rw [hcount] at hexec
    exact ⟨_, hexec, counted_afterRun he _ _ _⟩
  · obtain ⟨_, hrule⟩ := hrunBoundaryRule
    exact ⟨_, hrule s he hh, counted_afterRun he _ _ _⟩
  · exact ⟨_, harnessCommand_executes _ (hrunRandomEffect n) he hh, counted_hrunRandomEffect he n⟩
  · obtain ⟨_, hrule⟩ := hrunSatedgeRule
    exact ⟨_, hrule s he hh, counted_afterRun he _ _ _⟩

/-- Any sequence of the four commands counts the sum of its classes. -/
theorem runInstrs_counted (n : BitVec 32) (l : List Instr) :
    ∀ s : State, Executing s → s.build.harness = true → s.build.smallN = 8 →
      (∀ i ∈ l, i ∈ [.hrunSmall, .hrunBoundary, .hrunRandom n, .hrunSatedge]) →
      ∃ t, runInstrs l s = some t ∧ Counted (l.map vectorCount).sum s t := by
  induction l with
  | nil => exact fun s he _ _ _ => ⟨s, rfl, he, rfl, (satAdd_zero s.hcnt).symm⟩
  | cons i l ih =>
    intro s he hh h8 hl
    obtain ⟨t, ht, hte, htb, htc⟩ := exec_hrun_counted he hh h8 (hl i List.mem_cons_self)
    obtain ⟨u, hu, hue, hub, huc⟩ := ih t hte (htb ▸ hh) (htb ▸ h8) fun j hj => hl j (List.mem_cons_of_mem i hj)
    refine ⟨u, by rw [runInstrs, ht]; exact hu, hue, hub.trans htb, ?_⟩
    rw [huc, htc, satAdd_satAdd, List.map_cons, List.sum_cons]

/-- Settles O32: a permutation of the four commands has their sum of counts. -/
theorem harnessIsComplete : Obligations.HarnessIsComplete := by
  intro s n l he hh h8 hperm
  obtain ⟨t, ht, hte, _, htc⟩ := runInstrs_counted n l s he hh h8 fun i hi => hperm.mem_iff.1 hi
  have hsum : (l.map vectorCount).sum = 11664 + 6050 + 630 + n.toNat := by
    rw [(hperm.map vectorCount).sum_nat]
    simp only [List.map_cons, List.map_nil, List.sum_cons, List.sum_nil, vectorCount]
    omega
  exact ⟨t, ht, hte, hsum ▸ htc⟩

end Sys2Proof.Machine
end

section
/-! The family 45_host_system.md: RD and WR at every index (R160, R161), NOP and CLRF (R162, R163), and the write to CMD
(R166). -/

namespace Sys2Proof.Machine

open Sys2Proof.Safety

/-! ## The write to CMD (R166) -/

/-- A write to CMD is the instruction its transaction word decodes to, whether or not its data encodes a command. -/
theorem exec_wr_cmd_eq_decoded (cw : Word) (s : State) :
    exec (.wr cmdIndex cw) s = exec (decode (packCommand cw)) s := by
  cases hd : decodeCommand cw with
  | ok i => rw [exec_wr_cmd_ok hd, decode_packCommand hd]
  | error e => rw [decode_packCommand_error hd]

/-- CMD is no data register: the `WR` at its index lists no register to write (20_memory.md R59). -/
theorem mayWrite_wr_cmd (cw : Word) : mayWrite (.wr cmdIndex cw) = [] := by
  rw [mayWrite]
  decide

/-- Settles O8: one state, that of the decoded instruction, whose frame is known whatever the instruction is. -/
theorem commandWriteAlwaysCompletes : Obligations.CommandWriteAlwaysCompletes := by
  intro s cw
  have hexec : exec (.wr cmdIndex cw) s = .next (effectOf (decode (packCommand cw)) s) :=
    (exec_wr_cmd_eq_decoded cw s).trans (exec_eq_effectOf (decode_wf _) s)
  have hframe := (effectOf_changesOnly (decode (packCommand cw)) s).reg
  refine ⟨_, hexec, effectOf_reply (decode_writeWord_ne_rd cmdIndex cw) s, effectOf_pending _ s, rfl, ?_, ?_⟩
  · intro i hi
    obtain rfl : decode (packCommand cw) = i := decode_packCommand hi
    exact ⟨(exec_wr_cmd_ok hi s).symm.trans hexec, hframe⟩
  · intro e herr g
    have hnone : mayWrite (decode (packCommand cw)) = [] := by rw [decode_packCommand_error herr, mayWrite_wr_cmd]
    exact hframe g (hnone ▸ List.not_mem_nil)

/-- Data that encodes no command makes no legal word (30_encoding.md R76). -/
theorem isLegalCommandWord_of_error {cw : Word} {e : IllegalWord} (h : decodeCommand cw = .error e) :
    isLegalCommandWord cw = false := by
  rw [← Bool.not_eq_true, ← decodeCommand_ok_iff]
  rintro ⟨i, hi⟩
  rw [hi] at h
  cases h

/-! ## Commands under a recorded fault (R163, 60_exceptions.md R178) -/

/-- An illegal word under a recorded fault leaves the first record (60_exceptions.md R178). -/
theorem exec_wr_cmd_illegal_refused {s : State} (hfault : ¬ Executing s) {cw : Word} {e : IllegalWord}
    (h : decodeCommand cw = .error e) : exec (.wr cmdIndex cw) s = .next s := by
  rw [exec_wr_cmd, startCommand_error h, illegalCommand, runCommand_refused (Bool.of_not_eq_false hfault)]

/-- CLRF has one command word (30_encoding.md R75). -/
theorem decodeCommand_eq_clrf {cw : Word} (h : decodeCommand cw = .ok .clrf) : cw = cwClrf := by
  have hpack : packCommand cwClrf = packCommand cw := (decodeCommand_encode h).1
  have hdata := congrArg txData hpack
  rwa [packCommand, packCommand, txData_packTx, txData_packTx, eq_comm] at hdata

/-- A command other than CLRF passes the gate of `runCommand`, which refuses it under a recorded fault. -/
theorem exec_command_refused {s : State} (hfault : ¬ Executing s) {cw : Word} {i : Instr}
    (h : decodeCommand cw = .ok i) (hi : i ≠ .clrf) : exec i s = .next s := by
  obtain ⟨hrd, hwr⟩ := decodeCommand_not_bus h
  cases i with
  | clrf => exact absurd rfl hi
  | rd idx => exact absurd rfl (hrd idx)
  | wr idx v => exact absurd rfl (hwr idx v)
  | _ => exact congrArg Host.Outcome.next (runCommand_refused (Bool.of_not_eq_false hfault) _ _ _)

/-- Every word written to CMD under a recorded fault, CLRF's apart, changes nothing. -/
theorem exec_wr_cmd_refused {s : State} (hfault : ¬ Executing s) {cw : Word} (hcw : cw ≠ cwClrf) :
    exec (.wr cmdIndex cw) s = .next s := by
  cases hd : decodeCommand cw with
  | error e => exact exec_wr_cmd_illegal_refused hfault hd
  | ok i =>
    have hi : i ≠ .clrf := fun hclrf => hcw (decodeCommand_eq_clrf (hclrf ▸ hd))
    rw [exec_wr_cmd_ok hd, exec_command_refused hfault hd hi]

/-- With no fault and no remainder of one, there is nothing to clear (60_exceptions.md R179). -/
theorem clearFault_of_executing {s : State} (he : Executing s) (hrec : RecordWhole s) : clearFault s = s := by
  obtain ⟨hcause, hfinfo⟩ := hrec.1 he
  have hflag : s.setFlag .fault false = s := he ▸ setFlag_self s .fault
  calc clearFault s
    _ = { s with cause := 0#64, finfo := 0#64 } := by rw [clearFault, hflag]
    _ = s := congrArg₂ (fun cause finfo => { s with cause, finfo }) hcause.symm hfinfo.symm

/-- Settles O21: CLRF has no gate to pass, and the gate refuses every other command. -/
theorem clrfRule : Obligations.ClrfRule :=
  ⟨Laws.RoundTrip.clrf rfl, fun s => ⟨rfl,
    fun he hrec => congrArg Host.Outcome.next (clearFault_of_executing he hrec),
    fun hfault => ⟨exec_wr_cmd_ok (by decide) s, fun _ hcw => exec_wr_cmd_refused hfault hcw⟩⟩⟩

/-- Settles O9: refused or executed, NOP keeps the state. -/
theorem nopRule : Obligations.NopRule := by
  refine ⟨Laws.RoundTrip.nop rfl, fun s => congrArg Host.Outcome.next ?_⟩
  cases hfault : s.flag .fault with
  | true => exact runCommand_refused hfault cwNop false id
  | false => exact runCommand_executes hfault cwNop id

/-! ## Which indices RD and WR refuse (R160, R161) -/

/-- `FINFO` of a refused read is the index (60_exceptions.md R174). -/
theorem accessInfo_read (idx : Index) : accessInfo false idx = BitVec.ofNat 64 idx.toNat := by
  rw [eq_ofNat_iff (by omega), accessInfo_toNat, Bool.toNat_false, Nat.zero_mul, Nat.zero_add]

/-- `FINFO` of a refused write is 64 and the index (60_exceptions.md R174). -/
theorem accessInfo_write (idx : Index) : accessInfo true idx = BitVec.ofNat 64 (64 + idx.toNat) := by
  rw [eq_ofNat_iff (by omega), accessInfo_toNat, Bool.toNat_true, Nat.one_mul]

/-- Neither an unmapped index nor CMD's can be read. -/
theorem readableAt_eq_none {harness : Bool} {idx : Index} (h : accessAt harness idx = none ∨ idx = cmdIndex) :
    Reg.readableAt harness idx = none := by
  rcases h with hnone | rfl
  · rw [← ofIndex_access, Option.map_eq_none_iff] at hnone
    rw [Reg.readableAt, hnone]
  · rfl

/-- A data register is writable at its index. -/
theorem writableAt_of_ofIndex {harness : Bool} {idx : Index} {g : Reg} (h : Reg.ofIndex harness idx = some g)
    (hg : g.access = .readWrite) : Reg.writableAt harness idx = some g :=
  index_of_ofIndex h ▸ (dataReg_at_index harness hg).2.1

/-- An index whose access is not RW cannot be written. -/
theorem writableAt_eq_none {harness : Bool} {idx : Index} (h : accessAt harness idx ≠ some .readWrite) :
    Reg.writableAt harness idx = none := by
  rw [← ofIndex_access] at h
  unfold Reg.writableAt
  split
  · next g hg => exact if_neg fun hrw => h (by rw [hg, Option.map_some, hrw])
  · rfl

/-- CMD is neither unmapped nor read-only (20_memory.md R59). -/
theorem ne_cmdIndex_of_access {harness : Bool} {idx : Index}
    (h : accessAt harness idx = none ∨ accessAt harness idx = some .readOnly) : idx ≠ cmdIndex := by
  rintro rfl
  have hcmd : accessAt harness cmdIndex = some .writeOnly := (ofIndex_access harness cmdIndex).symm
  rw [hcmd] at h
  rcases h with h | h <;> cases h

/-! ## RD (R160) -/

/-- A readable register is answered, and nothing but the reply changes. -/
theorem exec_rd_readable {s : State} {idx : Index} {g : Reg} (h : Reg.ofIndex s.build.harness idx = some g)
    (hg : g ≠ .cmd) : exec (.rd idx) s = .next { s with reply := .data (s.reg g) } := by
  simp only [exec, execRd, readableAt_of_ofIndex h hg]

/-- A refused read answers 0 and raises ACCESS. -/
theorem exec_rd_forbidden {s : State} {idx : Index} (h : Reg.readableAt s.build.harness idx = none) :
    exec (.rd idx) s = .next { raiseFault .access (BitVec.ofNat 64 idx.toNat) s with reply := .data 0#64 } := by
  simp only [exec, execRd, h, accessInfo_read]

/-- Settles O38: what can be read is answered; elsewhere ACCESS is raised, which keeps an earlier record. -/
theorem rdRule : Obligations.RdRule := by
  refine fun s idx => ⟨fun g hidx hg => exec_rd_readable hidx hg, fun hforbidden => ?_⟩
  have hexec := exec_rd_forbidden (readableAt_eq_none hforbidden)
  refine ⟨fun he => ?_, fun hfault => ?_⟩
  · rw [hexec, raiseFault_eq_faulted he, Cause.code]
  · rw [hexec, raiseFault_recorded (Bool.of_not_eq_false hfault)]

/-! ## WR (R161) -/

/-- A data register takes the word, whatever STATUS.FAULT is. -/
theorem exec_wr_dataReg {s : State} {idx : Index} {g : Reg} (h : Reg.ofIndex s.build.harness idx = some g)
    (hg : g.access = .readWrite) (v : Word) : exec (.wr idx v) s = .next (s.writeReg g v) := by
  have hne : idx ≠ cmdIndex := index_of_ofIndex h ▸ (dataReg_at_index s.build.harness hg).2.2
  simp only [exec, execWr, if_neg hne, writableAt_of_ofIndex h hg]

/-- A refused write stores nothing and raises ACCESS. -/
theorem exec_wr_forbidden {s : State} {idx : Index} (hne : idx ≠ cmdIndex)
    (h : Reg.writableAt s.build.harness idx = none) (v : Word) :
    exec (.wr idx v) s = .next (raiseFault .access (BitVec.ofNat 64 (64 + idx.toNat)) s) := by
  simp only [exec, execWr, if_neg hne, h, accessInfo_write]

/-- Settles O39: a data register by its write, a forbidden index by ACCESS, CMD by the command or ILLEGAL_CMD. -/
theorem wrRule : Obligations.WrRule := by
  refine fun s idx v => ⟨fun g hidx hg => ?_, fun hforbidden => ?_, fun i hi => exec_wr_cmd_ok hi s, fun e herr =>
    ⟨fun he => exec_wr_cmd_illegal he (isLegalCommandWord_of_error herr),
      fun hfault => exec_wr_cmd_illegal_refused hfault herr⟩⟩
  · exact ⟨s.writeReg g v, exec_wr_dataReg hidx hg v, reg_writeReg_same s g v hg,
      fun f hf => reg_writeReg_ne s g f v hf.symm, writeReg_build s g v, writeReg_drawn s g v,
      writeReg_pending s g v, writeReg_reply s g v⟩
  · have hnotData : accessAt s.build.harness idx ≠ some .readWrite := fun hrw => by
      rcases hforbidden with h | h <;> rw [h] at hrw <;> cases hrw
    have hexec := exec_wr_forbidden (ne_cmdIndex_of_access hforbidden) (writableAt_eq_none hnotData) v
    refine ⟨fun he => ?_, fun hfault => ?_⟩
    · rw [hexec, raiseFault_eq_faulted he, Cause.code]
    · rw [hexec, raiseFault_recorded (Bool.of_not_eq_false hfault)]

end Sys2Proof.Machine
end

section
/-! The family 60_exceptions.md: which instruction raises which fault, and that the record is all it writes (R170 to
R177). -/

namespace Sys2Proof.Machine

open Sys2Proof.Safety

/-! ## Two states with one fault record -/

/-- FAULT, CAUSE and FINFO, the fault record (R175), are the same in two states. -/
structure SameRecord (s t : State) : Prop where
  fault : t.flag .fault = s.flag .fault
  cause : t.cause = s.cause
  finfo : t.finfo = s.finfo

theorem SameRecord.refl (s : State) : SameRecord s s := ⟨rfl, rfl, rfl⟩

theorem SameRecord.trans {s t u : State} (h : SameRecord s t) (h' : SameRecord t u) : SameRecord s u :=
  ⟨h'.fault.trans h.fault, h'.cause.trans h.cause, h'.finfo.trans h.finfo⟩

/-- Registers other than STATUS, CAUSE and FINFO may change at will. -/
theorem SameRecord.of_status_eq {s t : State} (hstatus : t.status = s.status := by rfl)
    (hcause : t.cause = s.cause := by rfl) (hfinfo : t.finfo = s.finfo := by rfl) : SameRecord s t :=
  ⟨by rw [State.flag, hstatus, State.flag], hcause, hfinfo⟩

/-- A write of a STATUS field other than FAULT keeps the record. -/
theorem SameRecord.setFlag {s t : State} (h : SameRecord s t) {f : Flag} (hf : f ≠ .fault) (b : Bool) :
    SameRecord s (t.setFlag f b) :=
  h.trans ⟨flag_setFlag_ne t b hf, rfl, rfl⟩

theorem sameRecord_writeDelta (out : DeltaOut) (s : State) : SameRecord s (writeDelta out s) :=
  ⟨writeDelta_flag out s (by decide) (by decide), rfl, rfl⟩

theorem sameRecord_writeReg (s : State) (g : Reg) (v : Word) : SameRecord s (s.writeReg g v) :=
  .of_status_eq (writeReg_status s g v) (writeReg_cause s g v) (writeReg_finfo s g v)

/-- The check of a vector that passes writes results and a count (44_oracle_harness.md R145). -/
theorem sameRecord_checkedState (s : State) : SameRecord s (checkedState s) :=
  (sameRecord_writeDelta (deltaValue s.a s.c s.p s.r) s).trans .of_status_eq

/-- HRUN over vectors of the compared domain raises nothing (44_oracle_harness.md R154). -/
theorem sameRecord_hrun (cw : Word) (draws : Nat) {vs : List Vec} (hvs : ∀ v ∈ vs, InDomain v) (s : State) :
    SameRecord s (hrun cw draws vs s) := by
  rw [hrun_passes cw draws vs s hvs]
  clear hvs
  induction vs generalizing s with
  | nil => exact .refl s
  | cons v vs ih =>
    have happlied : SameRecord s (applyVec draws v s) := .of_status_eq
    exact (happlied.trans (sameRecord_checkedState _)).trans (ih _)

/-! ## Raising exactly one fault, or none -/

/-- The instruction completes. If a fault is given, with its code and information word, it has written that record and,
at most, a reply; if none is given, the record is what it was. -/
def Raises (i : Instr) (s : State) : Option (Word × Word) → Prop
  | some (code, info) => ∃ rp, exec i s = .next { faulted code info s with reply := rp }
  | none => ∃ t, exec i s = .next t ∧ SameRecord s t

theorem Raises.of_faulted {i : Instr} {s : State} {code info : Word} (h : exec i s = .next (faulted code info s)) :
    Raises i s (some (code, info)) := ⟨s.reply, h⟩

theorem Raises.of_sameRecord {i : Instr} {s t : State} (h : exec i s = .next t) (hrec : SameRecord s t) :
    Raises i s none := ⟨t, h, hrec⟩

/-- A harness command raises ILLEGAL_CMD in an instance without the harness, ahead of its own tests (R173, R177). -/
theorem Raises.of_harnessCommand {i : Instr} {s : State} {cw : Word} {effect : State → State}
    {f : Option (Word × Word)} (he : Executing s) (hexec : exec i s = .next (runCommand cw true effect s))
    (hpresent : s.build.harness = true → Raises i s f) :
    Raises i s (if s.build.harness = false then some (3#64, cw) else f) := by
  cases hh : s.build.harness with
  | false => exact .of_faulted (hexec.trans (harnessCommand_absent cw effect he hh))
  | true => exact hpresent hh

/-! ## The commands (R171 to R173) -/

theorem raises_snum {s : State} (he : Executing s) : Raises .snum s (expectedFault .snum s) := by
  rw [expectedFault]
  split
  · next hs => exact .of_faulted ((exec_snum_executing he).trans (congrArg _ (snumEffect_domain he hs)))
  · next hs =>
    rw [Nat.not_le] at hs
    exact .of_sameRecord ((exec_snum_executing he).trans (congrArg _ (snumEffect_inDomain hs)))
      (.setFlag .of_status_eq (by decide) _)

/-- A denominator whose words are not both zero is positive (00_scope.md R11). -/
theorem val2_pos_of_not_zero {h l : Word} (hne : ¬ (h = 0#64 ∧ l = 0#64)) : 0 < val2 h l :=
  Nat.pos_of_ne_zero fun hz => hne (val2_inj (h' := 0#64) (l' := 0#64) hz)

theorem raises_bdiv {s : State} (he : Executing s) : Raises .bdiv s (expectedFault .bdiv s) := by
  rw [expectedFault]
  split
  · next hz =>
    obtain ⟨hh, hl⟩ := hz
    exact .of_faulted ((exec_bdiv_executing he).trans (congrArg _ (bdivEffect_div0 he hh hl)))
  · next hne =>
    exact .of_sameRecord
      ((exec_bdiv_executing he).trans (congrArg _ (bdivEffect_ok (bdiv_value (val2_pos_of_not_zero hne)))))
      (.setFlag .of_status_eq (by decide) _)

theorem raises_delta {s : State} (he : Executing s) : Raises .delta s (expectedFault .delta s) := by
  rw [expectedFault]
  split
  · next hr => exact .of_faulted (exec_delta_error he (delta_domain (BitVec.lt_def.2 hr)))
  · next hr =>
    have hle : s.r ≤ Config.rateMax := BitVec.le_def.2 (Nat.not_lt.1 hr)
    split
    · next hz => exact .of_sameRecord (exec_delta_ok he (delta_zero hle hz)) (sameRecord_writeDelta _ s)
    · next hz =>
      obtain ⟨ha, hc, hr0⟩ : s.a ≠ 0#64 ∧ s.c ≠ 0#64 ∧ s.r ≠ 0#64 := by simpa only [not_or] using hz
      split
      · next hp => exact .of_faulted (exec_delta_error (e := .div0) he (hp ▸ delta_div0 hle ha hc hr0))
      · next hp => exact .of_sameRecord (exec_delta_ok he (delta_value hle hp)) (sameRecord_writeDelta _ s)

theorem raises_ref {s : State} (he : Executing s) : Raises .ref s (expectedFault .ref s) := by
  refine .of_harnessCommand (cw := cwRef) (effect := refEffect) he rfl fun hh => ?_
  split
  · next hr => exact .of_faulted (exec_ref_domain he hh hr)
  · next hr =>
    split
    · next hp => exact .of_faulted (exec_ref_div0 he hh (Nat.not_lt.1 hr) hp)
    · next hp => exact .of_sameRecord (exec_ref_value he hh (Nat.not_lt.1 hr) hp) .of_status_eq

/-- That a vector of the compared domain raises no MISMATCH is R154. -/
theorem raises_hchk {s : State} (he : Executing s) : Raises .hchk s (expectedFault .hchk s) := by
  refine .of_harnessCommand (cw := cwHchk) (effect := hchkEffect) he rfl fun hh => ?_
  split
  · next hr => exact .of_faulted (exec_hchk_domain he hh hr)
  · next hr =>
    have hle := Nat.not_lt.1 hr
    split
    · next hp => exact .of_faulted (exec_hchk_div0 he hh hle hp)
    · next hp =>
      refine .of_sameRecord (exec_hchk_passes he hh hle hp) ?_
      rw [← checkedState_eq_afterRun (BitVec.le_def.2 hle) hp]
      exact sameRecord_checkedState s

/-- An HRUN of any class, its vectors being of the compared domain, raises ILLEGAL_CMD or nothing (R154). -/
theorem raises_hrun {i : Instr} {s : State} {cw : Word} {effect : State → State} (he : Executing s)
    (hexec : exec i s = .next (runCommand cw true effect s)) (draws : Nat) {vs : List Vec}
    (heffect : effect s = hrun cw draws vs s) (hvs : ∀ v ∈ vs, InDomain v) :
    Raises i s (if s.build.harness = false then some (3#64, cw) else none) := by
  refine .of_harnessCommand he hexec fun hh => ?_
  refine .of_sameRecord (hexec.trans (harnessCommand_executes cw effect he hh)) ?_
  rw [heffect]
  exact sameRecord_hrun cw draws hvs s

theorem raises_hclr {s : State} (he : Executing s) : Raises .hclr s (expectedFault .hclr s) :=
  .of_harnessCommand he rfl fun hh =>
    .of_sameRecord (harnessCommand_executes cwHclr hclrEffect he hh) .of_status_eq

/-! ## The transactions (R173, R174) -/

/-- What the map allows at an index is what it allows at the register that stands there (20_memory.md R59). -/
theorem ofIndex_of_accessAt {harness : Bool} {idx : Index} {x : Access} (h : accessAt harness idx = some x) :
    ∃ g, Reg.ofIndex harness idx = some g ∧ g.access = x := by
  rwa [← ofIndex_access, Option.map_eq_some_iff] at h

/-- CMD is the only write-only location (20_memory.md R59). -/
theorem eq_cmdIndex_of_writeOnly {harness : Bool} {idx : Index} (h : accessAt harness idx = some .writeOnly) :
    idx = cmdIndex := by
  obtain ⟨g, hg, haccess⟩ := ofIndex_of_accessAt h
  have hcmd : g = .cmd := by cases g <;> first | rfl | cases haccess
  rw [← index_of_ofIndex hg, hcmd]
  rfl

theorem raises_rd_readable {s : State} {idx : Index} {x : Access} (h : accessAt s.build.harness idx = some x)
    (hx : x ≠ .writeOnly) : Raises (.rd idx) s none := by
  obtain ⟨g, hg, rfl⟩ := ofIndex_of_accessAt h
  exact .of_sameRecord (exec_rd_readable hg fun hcmd => hx (hcmd ▸ rfl)) .of_status_eq

theorem raises_rd_forbidden {s : State} (he : Executing s) {idx : Index}
    (h : accessAt s.build.harness idx = none ∨ idx = cmdIndex) :
    Raises (.rd idx) s (some (4#64, BitVec.ofNat 64 idx.toNat)) := by
  obtain ⟨_, hforbidden⟩ := rdRule s idx
  obtain ⟨hraised, _⟩ := hforbidden h
  exact ⟨_, hraised he⟩

theorem raises_rd {s : State} (he : Executing s) (idx : Index) : Raises (.rd idx) s (expectedFault (.rd idx) s) := by
  rw [expectedFault]
  cases haccess : accessAt s.build.harness idx with
  | none => exact raises_rd_forbidden he (.inl haccess)
  | some x =>
    cases x with
    | readWrite => exact raises_rd_readable haccess (by decide)
    | readOnly => exact raises_rd_readable haccess (by decide)
    | writeOnly => exact raises_rd_forbidden he (.inr (eq_cmdIndex_of_writeOnly haccess))

theorem raises_wr_forbidden {s : State} (he : Executing s) {idx : Index} (v : Word)
    (h : accessAt s.build.harness idx = none ∨ accessAt s.build.harness idx = some .readOnly) :
    Raises (.wr idx v) s (some (4#64, BitVec.ofNat 64 (64 + idx.toNat))) := by
  obtain ⟨_, hforbidden, _⟩ := wrRule s idx v
  obtain ⟨hraised, _⟩ := hforbidden h
  exact .of_faulted (hraised he)

/-- Written as itself, a `WR` to CMD carries an illegal word (45_host_system.md R166). -/
theorem raises_wr {s : State} (he : Executing s) {idx : Index} {v : Word} (hwf : (Instr.wr idx v).wf = true) :
    Raises (.wr idx v) s (expectedFault (.wr idx v) s) := by
  rw [expectedFault]
  cases haccess : accessAt s.build.harness idx with
  | none => exact raises_wr_forbidden he v (.inl haccess)
  | some x =>
    cases x with
    | readWrite =>
      obtain ⟨g, hg, hrw⟩ := ofIndex_of_accessAt haccess
      exact .of_sameRecord (exec_wr_dataReg hg hrw v) (sameRecord_writeReg s g v)
    | readOnly => exact raises_wr_forbidden he v (.inr haccess)
    | writeOnly =>
      obtain rfl := eq_cmdIndex_of_writeOnly haccess
      have hillegal : isLegalCommandWord v = false := by simpa [Instr.wf] using hwf
      exact .of_faulted (exec_wr_cmd_illegal he hillegal)

/-! ## Every instruction (R177) -/

/-- CLRF apart, which clears the record, every well-formed instruction raises the fault its tests give. -/
theorem raises_expectedFault {i : Instr} {s : State} (hwf : i.wf = true) (hb : s.build.wf) (he : Executing s)
    (hi : i ≠ .clrf) : Raises i s (expectedFault i s) := by
  obtain ⟨_, hsmall⟩ := hb
  cases i with
  | nop =>
    obtain ⟨_, hnop⟩ := nopRule
    exact .of_sameRecord (hnop s) (.refl s)
  | wmul => exact .of_sameRecord (exec_wmul_executing he) .of_status_eq
  | snum => exact raises_snum he
  | bdiv => exact raises_bdiv he
  | delta => exact raises_delta he
  | clrf => exact absurd rfl hi
  | ref => exact raises_ref he
  | hchk => exact raises_hchk he
  | hrunSmall => exact raises_hrun (effect := hrunSmallEffect) he rfl 0 rfl (smallVectors_inDomain hsmall)
  | hrunBoundary => exact raises_hrun (effect := hrunBoundaryEffect) he rfl 0 rfl boundaryVectors_inDomain
  | hrunRandom n => exact raises_hrun (effect := hrunRandomEffect n) he rfl 4 rfl (randomVectors_inDomain _ _ _)
  | hrunSatedge => exact raises_hrun (effect := hrunSatedgeEffect) he rfl 0 rfl satEdgeVectors_inDomain
  | hclr => exact raises_hclr he
  | rd idx => exact raises_rd he idx
  | wr idx v => exact raises_wr he hwf

/-- Settles O42: CLRF has no fault to clear, and every other instruction raises exactly what its tests give. -/
theorem faultsAreExpectedAndPrecise : Obligations.FaultsAreExpectedAndPrecise := by
  intro i s hwf hb he
  by_cases hi : i = .clrf
  · subst hi
    exact ⟨clearFault s, rfl, fun _ _ hsome => (nomatch hsome),
      fun _ => ⟨clearFault_flag_fault s, fun hne => absurd rfl hne⟩⟩
  have hraises := raises_expectedFault hwf hb he hi
  cases hf : expectedFault i s with
  | none =>
    rw [hf] at hraises
    obtain ⟨t, ht, hrec⟩ := hraises
    exact ⟨t, ht, fun _ _ hsome => (nomatch hsome),
      fun _ => ⟨hrec.fault.trans he, fun _ => ⟨hrec.cause, hrec.finfo⟩⟩⟩
  | some f =>
    obtain ⟨code, info⟩ := f
    rw [hf] at hraises
    obtain ⟨rp, ht⟩ := hraises
    refine ⟨_, ht, ?_, fun hnone => (nomatch hnone)⟩
    rintro _ _ ⟨⟩
    exact ⟨flag_setFlag_same s .fault true, rfl⟩

end Sys2Proof.Machine
end

section
/-! The family 60_exceptions.md: what goes on and what is refused while a fault is recorded (R178). -/

namespace Sys2Proof.Machine

open Sys2Proof.Safety

/-- A data register stands at its own index in every instance (20_memory.md R59). -/
theorem ofIndex_dataReg (harness : Bool) {g : Reg} (hg : g.access = .readWrite) :
    Reg.ofIndex harness g.index = some g := by
  cases g <;> first | rfl | cases hg

/-- The first fault is kept (R175). -/
theorem sameRecord_raiseFault {s : State} (hfault : s.flag .fault = true) (e : Cause) (info : Word) :
    SameRecord s (raiseFault e info s) := by
  rw [raiseFault_recorded hfault]
  exact .refl s

/-- A recorded fault outlives every instruction but CLRF, with its cause and its information word. -/
theorem sameRecord_effectOf {s : State} (hfault : s.flag .fault = true) {i : Instr} (hi : i ≠ .clrf) :
    SameRecord s (effectOf i s) := by
  cases i with
  | clrf => exact absurd rfl hi
  | rd idx =>
    rcases readEffect_cases idx s with ⟨g, _, he⟩ | ⟨_, he⟩ <;> rw [effectOf, he]
    · exact .of_status_eq
    · exact (sameRecord_raiseFault hfault _ _).trans .of_status_eq
  | wr idx v =>
    rcases writeEffect_cases idx v s with ⟨_, he⟩ | ⟨g, _, _, he⟩ | ⟨_, _, he⟩ <;> rw [effectOf, he]
    · rw [illegalCommand, runCommand_refused hfault]
      exact .refl s
    · exact sameRecord_writeReg s g v
    · exact sameRecord_raiseFault hfault _ _
  | _ =>
    rw [effectOf, runCommand_refused hfault]
    exact .refl s

/-- A reset clears the record (70_reset_and_hazards.md R200). -/
theorem step_reset_clears {s : State} {rest : List Input} (hp : s.pending = .reset :: rest) :
    ∃ t, step s = .next t ∧ t.flag .fault = false :=
  ⟨State.resetWith s.build s.drawn rest, step_of_input hp, Bool.of_not_eq_true (flag_resetWith _ _ _)⟩

/-- Settles O43: the gate refuses the commands, RD and WR have no gate, and fault entry keeps the first record. -/
theorem recordedFaultGatesCommands : Obligations.RecordedFaultGatesCommands := by
  intro s hfault
  have hrecorded : ¬ Executing s := fun he => Bool.false_ne_true (he.symm.trans hfault)
  refine ⟨fun cw hcw => exec_wr_cmd_refused hrecorded hcw, ?_, fun g hg hcmd => exec_rd_readable hg hcmd,
    fun g v hg => exec_wr_dataReg (ofIndex_dataReg s.build.harness hg) hg v, ?_, fun idx v => ⟨?_, ?_⟩,
    fun rest hp => step_reset_clears hp⟩
  · have hclrf : decodeCommand 0x0F#64 = .ok .clrf := by decide
    exact ⟨clearFault s, exec_wr_cmd_ok hclrf s, rfl, clearFault_flag_fault s⟩
  · intro i hwf hi
    have hrec := sameRecord_effectOf hfault hi
    exact ⟨effectOf i s, exec_eq_effectOf hwf s, hrec.fault.trans hfault, hrec.cause, hrec.finfo⟩
  · intro h
    obtain ⟨_, hforbidden⟩ := rdRule s idx
    obtain ⟨_, hkept⟩ := hforbidden h
    exact hkept hrecorded
  · intro h
    obtain ⟨_, hforbidden, _⟩ := wrRule s idx v
    obtain ⟨_, hkept⟩ := hforbidden h
    exact hkept hrecorded

end Sys2Proof.Machine
end

section
/-! The family 60_exceptions.md: a script that ends with no fault, none of its lines clearing the record, ran whole
(R192). -/

namespace Sys2Proof.Machine

open Sys2Proof.Safety

/-! ## One transaction -/

/-- A write is taken as the `WR` it packs; at CMD as the command its data encodes (30_encoding.md R70). -/
theorem exec_decode_writeWord (idx : Index) (v : Word) (s : State) :
    exec (decode (packTx true idx v)) s = exec (.wr idx v) s := by
  by_cases hi : idx = cmdIndex
  · rw [hi, exec_wr_cmd_eq_decoded, packCommand]
  · rw [decode_writeWord_ne_cmd hi]

/-- One write is CLRF: that of its word to CMD (30_encoding.md R75). -/
theorem writeWord_of_decode_clrf {idx : Index} {v : Word} (h : decode (packTx true idx v) = .clrf) :
    idx = cmdIndex ∧ v = cwClrf := by
  have hpack := encode_decode_writeWord idx v
  rw [h, encode, packCommand] at hpack
  have hidx := congrArg txIdx hpack
  have hdata := congrArg txData hpack
  rw [txIdx_packTx, txIdx_packTx] at hidx
  rw [txData_packTx, txData_packTx] at hdata
  exact ⟨hidx.symm, hdata.symm⟩

/-- Where no fault is recorded after a transaction other than CLRF, none was recorded before it (R175, R178). -/
theorem executing_before_issue {tw : TxWord} {s t : State} (h : issue (.transaction tw) s = some t)
    (hclrf : decode tw ≠ .clrf) (ht : Executing t) : Executing s := by
  refine Bool.of_not_eq_true fun hfault => ?_
  have hexec := issue_transaction.1 h
  rw [exec_eq_effectOf (decode_wf tw)] at hexec
  cases hexec
  have hkept : (effectOf (decode tw) { s with reply := .notDriven }).flag .fault = true :=
    effectOf_keeps_fault (s := { s with reply := .notDriven }) hfault hclrf
  exact Bool.false_ne_true (ht.symm.trans hkept)

theorem executing_before_issueRd {idx : Index} {w : Word} {s t : State} (h : issueRd idx s = some (w, t))
    (ht : Executing t) : Executing s := by
  obtain ⟨hexec, _⟩ := issueRd_iff.1 h
  have hissue : issue (.transaction (packTx false idx 0#64)) s = some t :=
    issue_transaction.2 (decode_read idx ▸ hexec)
  exact executing_before_issue hissue (by rw [decode_read]; exact Instr.noConfusion) ht

/-! ## One line -/

/-- `MOV` is a read and a write of the word read, in that order, whatever the indices allow (30_encoding.md R81). -/
theorem run_mov_eq_some {dst src : Index} {s : State} {y : ScriptRun} (h : (ScriptLine.mov dst src).run s = some y) :
    ∃ w u, issueRd src s = some (w, u) ∧ issueWr dst w u = some y.block := by
  obtain ⟨t, ht, rfl⟩ := Option.map_eq_some_iff.1 h
  obtain ⟨⟨w, u⟩, hread, hwrite⟩ := Option.bind_eq_some_iff.1 ht
  exact ⟨w, u, hread, hwrite⟩

/-- The write of a `MOV` that does not clear the record is no CLRF. -/
theorem decode_mov_ne_clrf {dst src : Index} {w : Word} {s u : State} (hread : issueRd src s = some (w, u))
    (hclear : (ScriptLine.mov dst src).clearsRecord s = false) : decode (packTx true dst w) ≠ .clrf := by
  intro hdecode
  obtain ⟨rfl, rfl⟩ := writeWord_of_decode_clrf hdecode
  simp [ScriptLine.clearsRecord, hread] at hclear

/-- Where no fault is recorded after a line that does not clear the record, none was recorded before it. -/
theorem executing_before_line {line : ScriptLine} {s : State} {y : ScriptRun} (h : line.run s = some y)
    (hclear : line.clearsRecord s = false) (hy : Executing y.block) : Executing s := by
  cases line with
  | wr idx v =>
    obtain ⟨t, ht, rfl⟩ := Option.map_eq_some_iff.1 h
    exact executing_before_issue ht (of_decide_eq_false hclear) hy
  | rd idx =>
    obtain ⟨⟨w, t⟩, ht, rfl⟩ := Option.map_eq_some_iff.1 h
    exact executing_before_issueRd ht hy
  | command i =>
    obtain ⟨t, ht, rfl⟩ := Option.map_eq_some_iff.1 h
    exact executing_before_issue ht (of_decide_eq_false hclear) hy
  | ldv a c p r =>
    obtain rfl := Option.some.inj ((ldv_run a c p r s).symm.trans h)
    exact hy
  | mov dst src =>
    obtain ⟨w, u, hread, hwrite⟩ := run_mov_eq_some h
    exact executing_before_issueRd hread (executing_before_issue hwrite (decode_mov_ne_clrf hread hclear) hy)
  | expect idx v =>
    obtain ⟨⟨w, t⟩, ht, rfl⟩ := Option.map_eq_some_iff.1 h
    exact executing_before_issueRd ht hy
  | reset => cases hclear

/-- A line issued in `s` left `t` by the rule of its instruction: a command, a `WR`, and a `MOV`, which read with no
fault and wrote what it read. -/
def RanByRule (line : ScriptLine) (s t : State) : Prop :=
  (∀ i, line = .command i → i.wf = true → exec i { s with reply := .notDriven } = .next t) ∧
  (∀ idx v, line = .wr idx v → exec (.wr idx v) { s with reply := .notDriven } = .next t) ∧
  (∀ dst src, line = .mov dst src → ∃ w u, issueRd src s = some (w, u) ∧ Executing u ∧
    exec (.wr dst w) { u with reply := .notDriven } = .next t)

theorem exec_of_issueWr {idx : Index} {v : Word} {s t : State} (h : issueWr idx v s = some t) :
    exec (.wr idx v) { s with reply := .notDriven } = .next t :=
  (exec_decode_writeWord idx v _).symm.trans (issueWr_iff.1 h)

/-- A line that ends with no fault and does not clear the record was not refused on the way. -/
theorem ranByRule_of_executing {line : ScriptLine} {s : State} {y : ScriptRun} (h : line.run s = some y)
    (hclear : line.clearsRecord s = false) (hy : Executing y.block) : RanByRule line s y.block := by
  refine ⟨?_, ?_, ?_⟩
  · rintro i rfl hwf
    obtain ⟨t, ht, rfl⟩ := Option.map_eq_some_iff.1 h
    have hexec := issue_transaction.1 ht
    rwa [decode_encode hwf] at hexec
  · rintro idx v rfl
    obtain ⟨t, ht, rfl⟩ := Option.map_eq_some_iff.1 h
    exact exec_of_issueWr ht
  · rintro dst src rfl
    obtain ⟨w, u, hread, hwrite⟩ := run_mov_eq_some h
    exact ⟨w, u, hread, executing_before_issue hwrite (decode_mov_ne_clrf hread hclear) hy, exec_of_issueWr hwrite⟩

/-! ## A script -/

theorem issuedIn_cons {line : ScriptLine} {s : State} {y : ScriptRun} (h : line.run s = some y)
    (lines : List ScriptLine) : issuedIn (line :: lines) s = (line, s) :: issuedIn lines y.block := by
  simp only [issuedIn, h]

/-- Every line is issued, in order (30_encoding.md R81). -/
theorem issuedIn_lines (lines : List ScriptLine) (s : State) : (issuedIn lines s).map Prod.fst = lines := by
  induction lines generalizing s with
  | nil => rfl
  | cons line lines ih =>
    obtain ⟨y, hy⟩ := line.run_some s
    rw [issuedIn_cons hy, List.map_cons, ih]

/-- From the last line back to the first: no fault after a line means none before it (R175, R192). -/
theorem lines_ranByRule {lines : List ScriptLine} {s : State} {x : ScriptRun} (h : runScript lines s = some x)
    (hx : Executing x.block) (hclear : ∀ l ∈ issuedIn lines s, l.1.clearsRecord l.2 = false) :
    Executing s ∧ ∀ l ∈ issuedIn lines s, Executing l.2 ∧
      ∃ y, l.1.run l.2 = some y ∧ Executing y.block ∧ RanByRule l.1 l.2 y.block := by
  induction lines generalizing s x with
  | nil =>
    cases h
    exact ⟨hx, fun _ hmem => absurd hmem List.not_mem_nil⟩
  | cons line lines ih =>
    obtain ⟨y, hy⟩ := line.run_some s
    rw [runScript, hy, Option.bind_some] at h
    obtain ⟨z, hz, rfl⟩ := Option.map_eq_some_iff.1 h
    rw [issuedIn_cons hy, List.forall_mem_cons] at hclear
    obtain ⟨hline, hrest⟩ := hclear
    obtain ⟨hmid, hlater⟩ := ih hz hx hrest
    have hs : Executing s := executing_before_line hy hline hmid
    rw [issuedIn_cons hy, List.forall_mem_cons]
    exact ⟨hs, ⟨hs, y, hy, hmid, ranByRule_of_executing hy hline hmid⟩, hlater⟩

/-- Settles O44, from the script's end to its start: the record is sticky, so it was never there. -/
theorem cleanScriptRanEveryLine : Obligations.CleanScriptRanEveryLine := by
  intro lines s hends hclear
  obtain ⟨x, hx⟩ := runScript_some lines s
  have hend : Executing x.block := by
    simp only [endsWithoutFault, hx, Bool.and_eq_true, Bool.not_eq_true'] at hends
    obtain ⟨_, hend⟩ := hends
    exact hend
  obtain ⟨_, hran⟩ := lines_ranByRule hx hend hclear
  exact ⟨issuedIn_lines lines s, hran⟩

end Sys2Proof.Machine
end

section
/-! The family 70_reset_and_hazards.md: a command issued again, SNUM followed by BDIV (R204), and what each command does
straight after reset (R201). -/

namespace Sys2Proof.Machine

open Sys2Proof.Safety

/-! ## One write again -/

/-- A field written with the value it has keeps the state. -/
theorem setFlag_of_flag {s : State} {f : Flag} {b : Bool} (h : s.flag f = b) : s.setFlag f b = s :=
  h ▸ setFlag_self s f

/-- What SNUM writes of what its unit returns (41_snum.md R104). -/
def writeSnum (out : SnumOut) (s : State) : State :=
  { s with t2 := out.t.hi2, t1 := out.t.hi1, t0 := out.t.lo }.setFlag .sat out.sat

theorem snumEffect_eq_writeSnum {s : State} (hs : s.s.toNat < 2 ^ 14) :
    snumEffect s = writeSnum (snum s.nh s.nl s.s s.k) s := snumEffect_inDomain hs

theorem writeSnum_writeSnum (out : SnumOut) (s : State) : writeSnum out (writeSnum out s) = writeSnum out s :=
  calc writeSnum out (writeSnum out s)
    _ = (writeSnum out s).setFlag .sat out.sat := rfl
    _ = writeSnum out s := setFlag_of_flag (flag_setFlag_same _ _ _)

/-- What BDIV writes of what its unit returns (42_bdiv.md R118). -/
def writeBdiv (out : BdivOut) (s : State) : State := { s with q := out.q }.setFlag .cap out.cap

theorem bdivEffect_eq_writeBdiv {s : State} {out : BdivOut} (h : bdiv s.t2 s.t1 s.t0 s.dh s.dl s.k = .ok out) :
    bdivEffect s = writeBdiv out s := bdivEffect_ok h

theorem writeBdiv_writeBdiv (out : BdivOut) (s : State) : writeBdiv out (writeBdiv out s) = writeBdiv out s :=
  calc writeBdiv out (writeBdiv out s)
    _ = (writeBdiv out s).setFlag .cap out.cap := rfl
    _ = writeBdiv out s := setFlag_of_flag (flag_setFlag_same _ _ _)

/-- DELTA's report written twice (43_delta.md R126). -/
theorem writeDelta_writeDelta (out : DeltaOut) (s : State) : writeDelta out (writeDelta out s) = writeDelta out s :=
  calc writeDelta out (writeDelta out s)
    _ = ((writeDelta out s).setFlag .zsc out.zsc).setFlag .clamp out.clamp := rfl
    _ = (writeDelta out s).setFlag .clamp out.clamp := by rw [setFlag_of_flag (writeDelta_flag_zsc out s)]
    _ = writeDelta out s := setFlag_of_flag (writeDelta_flag_clamp out s)

theorem clearFault_clearFault (s : State) : clearFault (clearFault s) = clearFault s := by
  have hstatus : ((clearFault s).setFlag .fault false).status = (clearFault s).status := by
    rw [setFlag_of_flag (clearFault_flag_fault s)]
  exact congrArg (fun w => { clearFault s with status := w }) hstatus

/-! ## One effect again: no command writes a register it reads (R204) -/

theorem not_executing_raiseFault (e : Cause) (info : Word) (s : State) : ¬ Executing (raiseFault e info s) :=
  Bool.eq_false_iff.not_left.2 (raiseFault_flag_fault e info s)

/-- Outside the domain SNUM writes the record alone (41_snum.md R105). -/
theorem snumEffect_raises {s : State} (hs : 2 ^ 14 ≤ s.s.toNat) : snumEffect s = raiseFault .domain cwSnum s := by
  rw [snumEffect, if_pos ((scalarLimit_le_iff s.s).2 hs)]

theorem snumEffect_again {s : State} (he : Executing (snumEffect s)) : snumEffect (snumEffect s) = snumEffect s := by
  rcases Nat.lt_or_ge s.s.toNat (2 ^ 14) with hs | hs
  · rw [snumEffect_eq_writeSnum hs]
    exact (snumEffect_eq_writeSnum (s := writeSnum _ s) hs).trans (writeSnum_writeSnum _ s)
  · rw [snumEffect_raises hs] at he
    exact absurd he (not_executing_raiseFault _ _ s)

theorem bdivEffect_again {s : State} (he : Executing (bdivEffect s)) : bdivEffect (bdivEffect s) = bdivEffect s := by
  cases h : bdiv s.t2 s.t1 s.t0 s.dh s.dl s.k with
  | ok out =>
    rw [bdivEffect_eq_writeBdiv h]
    exact (bdivEffect_eq_writeBdiv (s := writeBdiv out s) h).trans (writeBdiv_writeBdiv out s)
  | error e =>
    rw [bdivEffect_error h] at he
    exact absurd he (not_executing_raiseFault _ _ s)

theorem deltaEffect_again {s : State} (he : Executing (deltaEffect s)) :
    deltaEffect (deltaEffect s) = deltaEffect s := by
  cases h : delta s.a s.c s.p s.r with
  | ok out =>
    rw [deltaEffect_ok h]
    exact (deltaEffect_ok (s := writeDelta out s) h).trans (writeDelta_writeDelta out s)
  | error e =>
    rw [deltaEffect_error h] at he
    exact absurd he (not_executing_raiseFault _ _ s)

theorem refEffect_again {s : State} (he : Executing (refEffect s)) : refEffect (refEffect s) = refEffect s := by
  rcases domain_cases s with hr | ⟨hr, hp⟩ | ⟨hr, hp⟩
  · rw [refEffect_domain hr] at he
    exact absurd he (not_executing_raiseFault _ _ s)
  · rw [refEffect_div0 hr hp] at he
    exact absurd he (not_executing_raiseFault _ _ s)
  · rw [refEffect_value hr hp]
    exact refEffect_value (s := { s with refres := _ }) hr hp

/-! ## One command again -/

/-- A command may be issued again when its effect may: where it was refused, or faulted, it is refused again
(60_exceptions.md R178). -/
theorem runCommand_again {cw : Word} {harnessOnly : Bool} {effect : State → State} {s : State}
    (hbuild : (effect s).build = s.build) (hagain : Executing (effect s) → effect (effect s) = effect s) :
    runCommand cw harnessOnly effect (runCommand cw harnessOnly effect s) = runCommand cw harnessOnly effect s := by
  rcases runCommand_cases cw harnessOnly effect s with ⟨_, hrefused⟩ | ⟨_, _, _, habsent⟩ | ⟨_, hharness, heffect⟩
  · rw [hrefused, hrefused]
  · rw [habsent, runCommand_refused (raiseFault_flag_fault _ _ s)]
  · rw [heffect]
    rcases runCommand_cases cw harnessOnly effect (effect s) with
      ⟨_, hrefused⟩ | ⟨_, honly, habsent, _⟩ | ⟨he, _, heffect'⟩
    · exact hrefused
    · rw [hbuild, hharness honly] at habsent
      cases habsent
    · exact heffect'.trans (hagain he)

/-- The commands R204 speaks of; HCHK and HRUN count vectors. -/
theorem effectOf_again {i : Instr} (hi : i ∈ [Instr.wmul, .snum, .bdiv, .delta, .ref, .hclr, .clrf, .nop]) (s : State) :
    effectOf i (effectOf i s) = effectOf i s := by
  cases i with
  | nop => exact runCommand_again rfl fun _ => rfl
  | wmul => exact runCommand_again rfl fun _ => rfl
  | snum => exact runCommand_again snumEffect_changesOnly.build snumEffect_again
  | bdiv => exact runCommand_again bdivEffect_changesOnly.build bdivEffect_again
  | delta => exact runCommand_again deltaEffect_changesOnly.build deltaEffect_again
  | clrf => exact clearFault_clearFault s
  | ref => exact runCommand_again refEffect_changesOnly.build refEffect_again
  | hclr => exact runCommand_again rfl fun _ => rfl
  | _ => simp at hi

/-! ## SNUM followed by BDIV -/

/-- SNUM inside its domain records no fault (41_snum.md R104). -/
theorem executing_snumEffect {s : State} (he : Executing s) (hs : s.s.toNat < 2 ^ 14) : Executing (snumEffect s) := by
  rw [snumEffect_eq_writeSnum hs]
  exact (flag_setFlag_ne _ _ (by decide)).trans he

/-- SNUM leaves its product where BDIV reads its numerator (41_snum.md R101, R104). -/
theorem snumEffect_numerator {s : State} (hs : s.s.toNat < 2 ^ 14) :
    val3 (snumEffect s).t2 (snumEffect s).t1 (snumEffect s).t0 = val2 s.nh s.nl * s.s.toNat := by
  rw [snumEffect_eq_writeSnum hs]
  obtain ⟨hexact, _, _⟩ := snum_value (nh := s.nh) (nl := s.nl) (k := s.k) hs
  exact hexact

/-- BDIV leaves the quotient of its numerator, clamped at the cap (42_bdiv.md R112, R118). -/
theorem bdivEffect_q {s : State} (hD : val2 s.dh s.dl ≠ 0) :
    (bdivEffect s).q.toNat = min s.k.toNat (val3 s.t2 s.t1 s.t0 / val2 s.dh s.dl) := by
  rw [bdivEffect_eq_writeBdiv (bdiv_value (Nat.pos_of_ne_zero hD))]
  exact (BitVec.toNat_ofNat _ _).trans (Nat.mod_eq_of_lt <| (Nat.min_le_left _ _).trans_lt s.k.isLt)

theorem exec_snum_bdiv {s : State} (he : Executing s) (hs : s.s.toNat < 2 ^ 14) (hD : val2 s.dh s.dl ≠ 0) :
    ∃ t u, exec .snum s = .next t ∧ exec .bdiv t = .next u ∧
      u.q.toNat = min s.k.toNat (val2 s.nh s.nl * s.s.toNat / val2 s.dh s.dl) := by
  have hframe : ChangesOnly (mayWrite .snum) (mayWriteFlag · .snum) s (snumEffect s) := snumEffect_changesOnly
  have hdh : (snumEffect s).dh = s.dh := hframe.reg .dh (by decide) (by decide)
  have hdl : (snumEffect s).dl = s.dl := hframe.reg .dl (by decide) (by decide)
  have hk : (snumEffect s).k = s.k := hframe.reg .k (by decide) (by decide)
  refine ⟨_, _, exec_snum_executing he, exec_bdiv_executing (executing_snumEffect he hs), ?_⟩
  rw [bdivEffect_q (by rwa [hdh, hdl]), snumEffect_numerator hs, hdh, hdl, hk]

/-- Settles O48: each command's effect on what it left is the same effect, and SNUM's triple is BDIV's numerator. -/
theorem commandsMayBeReissued : Obligations.CommandsMayBeReissued := by
  refine ⟨fun i s hi => ?_, fun s he hs hD => exec_snum_bdiv he hs hD⟩
  have hwf : i.wf = true := by
    have hall : ∀ j ∈ [Instr.wmul, .snum, .bdiv, .delta, .ref, .hclr, .clrf, .nop], j.wf = true := by decide
    exact hall i hi
  refine ⟨effectOf i s, exec_eq_effectOf hwf s, ?_⟩
  rw [exec_eq_effectOf hwf, effectOf_again hi]

/-! ## The first command after reset (R201) -/

theorem executing_resetWith (b : Config.Build) (d : Nat) (l : List Input) : Executing (State.resetWith b d l) :=
  Bool.eq_false_iff.2 (flag_resetWith b d l)

section Reset

variable (b : Config.Build) (d : Nat) (l : List Input)

theorem exec_wmul_resetWith : exec .wmul (State.resetWith b d l) = .next (State.resetWith b d l) := by
  rw [exec_wmul_executing (executing_resetWith b d l)]
  simp only [State.resetWith, wmul_zero]

/-- The zero product saturates at the zero cap (41_snum.md R102). -/
theorem exec_snum_resetWith :
    exec .snum (State.resetWith b d l) = .next ((State.resetWith b d l).setFlag .sat true) := by
  have hsat : snum 0#64 0#64 0#64 0#64 = { t := ⟨0#64, 0#64, 0#64⟩, sat := true } := snum_zero_scalar _ _ _
  have hscalar : (State.resetWith b d l).s.toNat < 2 ^ 14 := Nat.two_pow_pos 14
  rw [exec_snum_executing (executing_resetWith b d l), snumEffect_eq_writeSnum hscalar]
  exact congrArg (fun out => Host.Outcome.next (writeSnum out (State.resetWith b d l))) hsat

/-- `A` is 0, and the short-circuit stands before the test of `P` (43_delta.md R132). -/
theorem exec_delta_resetWith :
    exec .delta (State.resetWith b d l) = .next ((State.resetWith b d l).setFlag .zsc true) := by
  have hclamp : ((State.resetWith b d l).setFlag .zsc true).flag .clamp = false :=
    (flag_setFlag_ne _ _ (by decide)).trans (by simp [State.flag, State.resetWith])
  have hrate : (State.resetWith b d l).r ≤ Config.rateMax := BitVec.le_def.2 (Nat.zero_le _)
  rw [exec_delta_ok (executing_resetWith b d l) (delta_zero hrate (.inl rfl))]
  exact congrArg _ (setFlag_of_flag hclamp)

end Reset

/-- Settles O53: with every operand 0, each command takes the path its own tests choose. -/
theorem commandsAfterReset : Obligations.CommandsAfterReset := by
  intro b d l s
  have he : Executing s := executing_resetWith b d l
  have hrate : s.r.toNat ≤ 10000 := Nat.zero_le _
  exact ⟨exec_wmul_resetWith b d l, exec_snum_resetWith b d l,
    (exec_bdiv_executing he).trans (congrArg _ (bdivEffect_div0 he rfl rfl)), exec_delta_resetWith b d l,
    fun hh => ⟨exec_ref_div0 he hh hrate rfl, exec_hchk_div0 he hh hrate rfl⟩⟩

end Sys2Proof.Machine
end
